-- ==== Sys2Proof/Word.lean ====
section
/-! DEFINITION. The two word types of the block: wire bytes (00_scope.md R8) and 32-bit registers (10_state.md R14). -/

namespace Sys2Proof

/-- An unsigned byte 0..255, the unit of IBUF, OBUF and frame data (R8). -/
abbrev Byte := BitVec 8

/-- A whole 32-bit register word (R14, R49). -/
abbrev Word := BitVec 32

end Sys2Proof
end

