-- ==== Sys2Proof/Syntax.lean ====
section
/-! DEFINITION. The syntax of the block: operating modes (R65), layout descriptors (R122), and ONE constructor per row of
spec/opcode_table.json (R66, R67, R68). -/

namespace Sys2Proof

/-- The four values of the MODE field (30_encoding.md R65). -/
inductive Mode
  | AT
  | API
  | API_ESC
  | UNKNOWN
deriving DecidableEq, Repr, Inhabited

/-- The content patterns of a text slot (42_decoder_bank.md R127). -/
inductive Pattern
  | PHONE
  | NONE
deriving DecidableEq, Repr, Inhabited

/-- One field of a layout (42_decoder_bank.md R122). -/
inductive FieldSpec
  | CID
  | INT (w : Nat)
  | CODE (t : Byte)
  | BYTES (w : Nat)
  | TEXT (c : Nat) (q : Pattern)
  | VAR
  | PAYLOAD
deriving DecidableEq, Repr, Inhabited

/-- A layout descriptor: the discriminator of the variant and its ordered field list (42_decoder_bank.md R122). -/
structure Layout where
  type   : Byte
  fields : List FieldSpec
deriving DecidableEq, Repr, Inhabited

/-- The instructions: one constructor per row of spec/opcode_table.json.

The eleven commands and the five reserved opcodes are CMD words (30_encoding.md R64, R66, R67); a field the format does not read is
no operand. The ten discriminators of the default registry are frame data (R62, R68): the operand `body` is every frame-data byte after
the discriminator, fields still packed, because unpacking them is the decoder's effect and may fail (R124, R125). -/
inductive Instr
  | chksum
  | escape
  | unescape
  | validate (minlen : BitVec 16)
  | wrap (mode : Mode)
  | build (mode : Mode)
  | decodev (mode : Mode) (variant : Byte)
  | construct
  | encode (mode : Mode)
  | lookup (table code : Byte)
  | clear
  | frameAtCommand (body : List Byte)
  | frameTransmitRequest (body : List Byte)
  | frameRemoteAtCommandRequest (body : List Byte)
  | frameTxSms (body : List Byte)
  | frameAtCommandResponse (body : List Byte)
  | frameModemStatus (body : List Byte)
  | frameReceivePacket (body : List Byte)
  | frameDeviceRequest (body : List Byte)
  | frameFrameError (body : List Byte)
  | frameGeneric (body : List Byte)
  | reservedOp0
  | reservedOpC
  | reservedOpD
  | reservedOpE
  | reservedOpF
deriving DecidableEq, Repr, Inhabited

/-- The two places an instruction is written in: a CMD word, or the frame data of a frame (30_encoding.md, opening text). -/
inductive Encoded
  | command (w : Word)
  | frameData (fd : List Byte)
deriving DecidableEq, Repr, Inhabited

/-- Why a byte string is no instruction. No CMD word is ever rejected (R67: a reserved opcode is an instruction that fails). -/
inductive DecodeError
  /-- frame data without a discriminator byte (R117) -/
  | emptyFrameData
  /-- a discriminator that is no row of the table (R68, R118) -/
  | unregisteredDiscriminator (t : Byte)
  /-- frame data that no 16-bit length field can announce (R58) -/
  | frameDataTooLong (n : Nat)
deriving DecidableEq, Repr, Inhabited

end Sys2Proof
end

