-- ==== Sys2Proof/Machine/Record.lean ====
section
/-! DEFINITION. The packet record bank's types (10_state.md R24) and the kinds that match a value with a field (R151). -/

namespace Sys2Proof.Machine

/-- The value of one field of a record. Integers are unbounded naturals, so that CONSTRUCT can reject one (R24, R152). -/
inductive FieldVal
  | cid (n : Nat)
  | int (n : Nat)
  | code (n : Nat)
  | bytes (b : List Byte)
  | text (b : List Byte)
  | var (b : List Byte)
  | payload (b : List Byte)
deriving DecidableEq, Repr, Inhabited

/-- A packet record: the discriminator and the field values in layout order (R24). -/
structure Record where
  type : Byte
  vals : List FieldVal
deriving DecidableEq, Repr, Inhabited

/-- The outcome of a code-table lookup (44_code_tables.md R174). -/
inductive Tag
  | KNOWN
  | UNKNOWN
  | ABSENT
deriving DecidableEq, Repr, Inhabited

/-- The packet record bank (R24). `valid` is the bit STATUS.VALID mirrors. -/
structure Prec where
  record : Option Record
  tags   : List (Option Tag)
  valid  : Bool
deriving DecidableEq, Repr, Inhabited

/-- The seven kinds that R151's `kind` maps field values and field specs to. -/
inductive Kind
  | cid
  | int
  | code
  | bytes
  | text
  | var
  | payload
deriving DecidableEq, Repr, Inhabited

/-- R151: the kind of a value. -/
def FieldVal.kind : FieldVal → Kind
  | .cid _ => .cid
  | .int _ => .int
  | .code _ => .code
  | .bytes _ => .bytes
  | .text _ => .text
  | .var _ => .var
  | .payload _ => .payload

/-- R151: the kind of a field. -/
def specKind : FieldSpec → Kind
  | .CID => .cid
  | .INT _ => .int
  | .CODE _ => .code
  | .BYTES _ => .bytes
  | .TEXT _ _ => .text
  | .VAR => .var
  | .PAYLOAD => .payload

/-- The empty bank (R30, R196). -/
def Prec.empty : Prec := { record := none, tags := [], valid := false }

end Sys2Proof.Machine
end

