-- ==== Sys2Proof/Config.lean ====
section
/-! DEFINITION. The configuration of the block (10_state.md R27) as a type, and the free values the spec leaves open. -/

namespace Sys2Proof

/-- What a bus address can select (R52): a register by its index, or the IBUF, OBUF or PREC port. -/
inductive BusPlace
  | register (idx : Fin 16)
  | ibuf
  | obuf
  | prec
deriving DecidableEq, Repr, Inhabited

/-- The configuration, loaded at reset and never changed (R27, R209). REGISTRY is a finite map from a discriminator to a layout (R110), held
as a list of pairs; CODETAB is the finite set of the (table id, code) pairs that are members (R171); BUS_MAP, the platform's parameter (R52,
93 P4), is a finite map from a bus address to what it selects (log entry 23). -/
structure Config where
  ibufCap  : Nat
  obufCap  : Nat
  registry : List (Byte × Layout)
  codetab  : List (Byte × Byte)
  busMap   : List (Nat × BusPlace)
deriving DecidableEq, Repr, Inhabited

/-- FREE VALUE (R6 LATENCY, R28, R211): the number of host steps between the accept of a command and its completion, for the `n`-th
draw. Unbounded and finite; log entry 2. -/
opaque Config.latency : Nat → Nat

/-- FREE VALUE (R18): what the `n`-th draw gives for a RESULT or OLEN read while BUSY = 1; log entry 3. -/
opaque Config.freeWord : Nat → Word

/-- FREE VALUE (R18): what the `n`-th draw gives for an OBUF byte read while BUSY = 1; log entry 3. -/
opaque Config.freeByte : Nat → Byte

/-- FREE VALUE (R18): what the `n`-th draw gives for a whole OBUF read while BUSY = 1; log entry 3. -/
opaque Config.freeBytes : Nat → List Byte

/-- FREE VALUE (R18): what the `n`-th draw gives for a PREC read while BUSY = 1; log entry 3. -/
opaque Config.freePrec : Nat → Machine.Prec

/-- FREE VALUE: the two length bytes of a frame whose frame data is `n` > 65535 bytes long, for which BE16 is not defined (R8, R91); log
entry 4. -/
opaque Config.lengthBytes : Nat → Byte × Byte

/-- FREE VALUE: the bytes of an output that stands for the frame `f` of more than 65535 bytes of frame data, where `f` itself does not fit
OBUF_CAP (R41, R46, R91); its first OBUF_CAP bytes are used, so the output fits; log entry 5. -/
opaque Config.overlongFrame : List Byte → List Byte

end Sys2Proof
end

