-- ==== Sys2Proof/Machine/Layouts.lean ====
section
/-! DEFINITION. The fixed constants (R6), layouts: widths, minimum length and well-formedness (R122, R123), the ten default layouts (R130 to
R139), the code-table ids and policies (R172, R173), and the default configuration (R6). -/

namespace Sys2Proof.Machine

/-- Start delimiter (R6). -/
def DELIM : Byte := 0x7E#8
/-- Escape marker (R6). -/
def ESC : Byte := 0x7D#8
/-- Escape mask (R6). -/
def XMASK : Byte := 0x20#8
/-- The reserved byte set (R6). -/
def RSV : List Byte := [0x7E#8, 0x7D#8, 0x11#8, 0x13#8]
/-- Generic minimum whole-frame length of BUILD (R6, R116). -/
def GEN_MIN : Nat := 5
/-- Smallest envelope VALIDATE can check (R6, R89). -/
def ENV_FLOOR : Nat := 4

/-- The fixed wire width of a field (R123). -/
def fw : FieldSpec → Nat
  | .CID => 1
  | .INT w => w
  | .CODE _ => 1
  | .BYTES w => w
  | .TEXT c _ => c
  | .VAR => 1
  | .PAYLOAD => 0

/-- Σ fw(fields) (R123). -/
def fixedWidth (fs : List FieldSpec) : Nat := (fs.map fw).sum

/-- MINLEN_L, in whole-frame bytes (R123). -/
def minlen (L : Layout) : Nat := 4 + 1 + fixedWidth L.fields

/-- The policy of a code table, fixed per table (R173). -/
inductive Policy
  | degrade
  | absent
deriving DecidableEq, Repr, Inhabited

/-- The defined table ids and their policies (R172); `none` for a reserved id. -/
def policy (t : Byte) : Option Policy :=
  if t.toNat ≤ 5 then some .degrade
  else if 8 ≤ t.toNat ∧ t.toNat ≤ 12 then some .absent
  else none

/-- R172: the id names a table. -/
def tableDefined (t : Byte) : Bool := (policy t).isSome

def isCid : FieldSpec → Bool
  | .CID => true
  | _ => false

def isVar : FieldSpec → Bool
  | .VAR => true
  | _ => false

def isPayload : FieldSpec → Bool
  | .PAYLOAD => true
  | _ => false

/-- The fixed-width specs of R122 (2). -/
def isFixed (f : FieldSpec) : Bool := !isVar f && !isPayload f

/-- After a field that satisfies `p` no later field satisfies `q`. -/
def noneAfter (p q : FieldSpec → Bool) : List FieldSpec → Bool
  | [] => true
  | f :: fs => (!p f || fs.all (fun g => !q g)) && noneAfter p q fs

/-- The widths R122 allows a spec: 1 ≤ w ≤ 8 for INT, w ≥ 1 for BYTES, c ≥ 1 for TEXT. -/
def widthOk : FieldSpec → Bool
  | .INT w => decide (1 ≤ w) && decide (w ≤ 8)
  | .BYTES w => decide (1 ≤ w)
  | .TEXT c _ => decide (1 ≤ c)
  | .CID | .CODE _ | .VAR | .PAYLOAD => true

/-- R122 (7): a code field names a defined table. -/
def codeTableOk : FieldSpec → Bool
  | .CODE t => tableDefined t
  | .CID | .INT _ | .BYTES _ | .TEXT _ _ | .VAR | .PAYLOAD => true

/-- R122 (1): CID at most once and only at index 0. -/
def cidFirst (fs : List FieldSpec) : Bool := fs.tail.all (fun f => !isCid f)

/-- The conditions (1) to (7) of R122, with its width limits. -/
def layoutWf (L : Layout) : Bool :=
  L.fields.all widthOk
    && cidFirst L.fields
    && noneAfter isVar isFixed L.fields
    && noneAfter isPayload isVar L.fields
    && noneAfter isPayload (fun _ => true) L.fields
    && decide (L.fields.length ≤ 255)
    && decide (minlen L ≤ 65539)
    && L.fields.all codeTableOk

/-- A variant needs a correlation id exactly when its first field is CID (R112). -/
def hasCid (L : Layout) : Bool :=
  match L.fields with
  | .CID :: _ => true
  | _ => false

/-! ### The ten default layouts -/

/-- 0x08 AT_COMMAND (R130). -/
def layoutAtCommand : Layout := { type := 0x08#8, fields := [.CID, .BYTES 2, .PAYLOAD] }

/-- 0x10 TRANSMIT_REQUEST (R131). -/
def layoutTransmitRequest : Layout :=
  { type := 0x10#8, fields := [.CID, .BYTES 8, .BYTES 2, .INT 1, .INT 1, .PAYLOAD] }

/-- 0x17 REMOTE_AT_COMMAND_REQUEST (R132). -/
def layoutRemoteAtCommandRequest : Layout :=
  { type := 0x17#8, fields := [.CID, .BYTES 8, .BYTES 2, .INT 1, .BYTES 2, .PAYLOAD] }

/-- 0x1F TX_SMS (R133). -/
def layoutTxSms : Layout := { type := 0x1F#8, fields := [.CID, .INT 1, .TEXT 20 .PHONE, .PAYLOAD] }

/-- 0x88 AT_COMMAND_RESPONSE (R134); table 1 is AT_COMMAND_STATUS. -/
def layoutAtCommandResponse : Layout :=
  { type := 0x88#8, fields := [.CID, .BYTES 2, .CODE 1#8, .PAYLOAD] }

/-- 0x8A MODEM_STATUS (R135); table 4 is MODEM_STATUS. -/
def layoutModemStatus : Layout := { type := 0x8A#8, fields := [.CODE 4#8] }

/-- 0x90 RECEIVE_PACKET (R136). -/
def layoutReceivePacket : Layout :=
  { type := 0x90#8, fields := [.BYTES 8, .BYTES 2, .INT 1, .PAYLOAD] }

/-- 0xB9 DEVICE_REQUEST (R137). -/
def layoutDeviceRequest : Layout :=
  { type := 0xB9#8, fields := [.INT 1, .INT 1, .INT 1, .VAR, .PAYLOAD] }

/-- 0xFE FRAME_ERROR (R138); table 9 is FRAME_ERROR. -/
def layoutFrameError : Layout := { type := 0xFE#8, fields := [.CODE 9#8] }

/-- 0xFF GENERIC (R139). -/
def layoutGeneric : Layout := { type := 0xFF#8, fields := [.PAYLOAD] }

/-- The default layouts, by rising discriminator (R68). -/
def defaultLayouts : List Layout :=
  [ layoutAtCommand, layoutTransmitRequest, layoutRemoteAtCommandRequest, layoutTxSms, layoutAtCommandResponse,
    layoutModemStatus, layoutReceivePacket, layoutDeviceRequest, layoutFrameError, layoutGeneric ]

/-- The default configuration: the default capacities and registry of R6, and the minimal CODETAB, which holds only the member the
source fixes, MODEM_STATUS 0x06 (R171); no place on a bus (R52). Log entries 6, 7 and 23. -/
def defaultConfig : Config :=
  { ibufCap := 131077
    obufCap := 262154
    registry := defaultLayouts.map (fun L => (L.type, L))
    codetab := [(4#8, 0x06#8)]
    busMap := [] }

/-! ### The configuration as a map and a set -/

/-- REGISTRY[t], or `none` when t is not in its domain (R110, R118). -/
def registered (cfg : Config) (t : Byte) : Option Layout := (cfg.registry.find? (fun e => e.1 == t)).map (·.2)

/-- CODETAB(t, n) (R171). -/
def isMember (cfg : Config) (t n : Byte) : Bool := cfg.codetab.contains (t, n)

/-- The keys of REGISTRY rise strictly: one entry per discriminator, and one list per map (R111). -/
def keysRise : List (Byte × Layout) → Bool
  | [] => true
  | e :: es => es.all (fun e' => decide (e.1.toNat < e'.1.toNat)) && keysRise es

/-- The members of CODETAB rise strictly: one list per set. -/
def membersRise : List (Byte × Byte) → Bool
  | [] => true
  | e :: es => es.all (fun e' => decide (256 * e.1.toNat + e.2.toNat < 256 * e'.1.toNat + e'.2.toNat)) && membersRise es

/-- The addresses of BUS_MAP rise strictly: one place per address, and one list per map. -/
def addressesRise : List (Nat × BusPlace) → Bool
  | [] => true
  | e :: es => es.all (fun e' => decide (e.1 < e'.1)) && addressesRise es

/-- What BUS_MAP places at a bus address (R52), if anything. -/
def busPlace (cfg : Config) (addr : Nat) : Option BusPlace := (cfg.busMap.find? (fun e => e.1 == addr)).map (·.2)

end Sys2Proof.Machine
end

