-- ==== Sys2Proof/WellFormed.lean ====
section
/-! DEFINITION. Well-formedness: of an instruction, and of a configuration (R111, R122, R171, R209). -/

namespace Sys2Proof

/-- The frame data an instruction stands for fits the 16-bit length field (R58). -/
def bodyFits (body : List Byte) : Bool := decide (body.length + 1 ≤ 65535)

/-- A well-formed instruction. Every operand of a CMD word is a bit field, so any value is encodable (R64, R65); frame data must fit a
frame (R58). -/
def Instr.wf : Instr → Bool
  | .chksum => true
  | .escape => true
  | .unescape => true
  | .validate _ => true
  | .wrap _ => true
  | .build _ => true
  | .decodev _ _ => true
  | .construct => true
  | .encode _ => true
  | .lookup _ _ => true
  | .clear => true
  | .frameAtCommand body => bodyFits body
  | .frameTransmitRequest body => bodyFits body
  | .frameRemoteAtCommandRequest body => bodyFits body
  | .frameTxSms body => bodyFits body
  | .frameAtCommandResponse body => bodyFits body
  | .frameModemStatus body => bodyFits body
  | .frameReceivePacket body => bodyFits body
  | .frameDeviceRequest body => bodyFits body
  | .frameFrameError body => bodyFits body
  | .frameGeneric body => bodyFits body
  | .reservedOp0 => true
  | .reservedOpC => true
  | .reservedOpD => true
  | .reservedOpE => true
  | .reservedOpF => true

/-- A configuration of this block: capacities at least R6's, every layout well formed and under its own discriminator, one entry per
discriminator (R111, R122, R209), CODETAB holding the member the source fixes (R171), and one place per bus address (R52). Any other
configuration is refused. The orders of the three lists are log entry 22's. -/
def Config.wf (cfg : Config) : Bool :=
  decide (131077 ≤ cfg.ibufCap)
    && decide (2 * cfg.ibufCap ≤ cfg.obufCap)
    && cfg.registry.all (fun e => e.2.type == e.1 && Machine.layoutWf e.2)
    && Machine.keysRise cfg.registry
    && Machine.isMember cfg 4#8 0x06#8
    && Machine.membersRise cfg.codetab
    && Machine.addressesRise cfg.busMap

end Sys2Proof
end

