-- ==== Sys2Proof/Decode.lean ====
section
/-! DEFINITION. The decoder and the encoder of both encoding layers: CMD words (30_encoding.md R64 to R67) and frame data (R62, R68). -/

namespace Sys2Proof

/-! ### Bit fields of a CMD word (10_state.md R15, 30_encoding.md R64) -/

/-- CMD[3:0]. -/
def opField (w : Word) : BitVec 4 := w.extractLsb' 0 4
/-- CMD[5:4]. -/
def modeField (w : Word) : BitVec 2 := w.extractLsb' 4 2
/-- CMD[15:8], VARIANT or TABLE. -/
def selField (w : Word) : Byte := w.extractLsb' 8 8
/-- CMD[23:16], CODE. -/
def codeField (w : Word) : Byte := w.extractLsb' 16 8
/-- CMD[31:16], MINLEN. -/
def minlenField (w : Word) : BitVec 16 := w.extractLsb' 16 16

/-- R65: 0 AT, 1 API, 2 API_ESC, 3 UNKNOWN. -/
def Mode.ofBits (b : BitVec 2) : Mode :=
  match b.toNat with
  | 0 => .AT
  | 1 => .API
  | 2 => .API_ESC
  | _ => .UNKNOWN

/-- R65, the other way. -/
def Mode.bits : Mode → BitVec 2
  | .AT => 0#2
  | .API => 1#2
  | .API_ESC => 2#2
  | .UNKNOWN => 3#2

/-! ### Decoding -/

/-- The command a CMD word selects (R64, R66, R67). Total: bits the format does not read are ignored. -/
def decodeCommand (w : Word) : Instr :=
  match (opField w).toNat with
  | 0x0 => .reservedOp0
  | 0x1 => .chksum
  | 0x2 => .escape
  | 0x3 => .unescape
  | 0x4 => .validate (minlenField w)
  | 0x5 => .wrap (Mode.ofBits (modeField w))
  | 0x6 => .build (Mode.ofBits (modeField w))
  | 0x7 => .decodev (Mode.ofBits (modeField w)) (selField w)
  | 0x8 => .construct
  | 0x9 => .encode (Mode.ofBits (modeField w))
  | 0xA => .lookup (selField w) (codeField w)
  | 0xB => .clear
  | 0xC => .reservedOpC
  | 0xD => .reservedOpD
  | 0xE => .reservedOpE
  | _ => .reservedOpF

/-- The discriminator map of the default registry (R68). -/
def frameOf (t : Byte) (body : List Byte) : Option Instr :=
  match t.toNat with
  | 0x08 => some (.frameAtCommand body)
  | 0x10 => some (.frameTransmitRequest body)
  | 0x17 => some (.frameRemoteAtCommandRequest body)
  | 0x1F => some (.frameTxSms body)
  | 0x88 => some (.frameAtCommandResponse body)
  | 0x8A => some (.frameModemStatus body)
  | 0x90 => some (.frameReceivePacket body)
  | 0xB9 => some (.frameDeviceRequest body)
  | 0xFE => some (.frameFrameError body)
  | 0xFF => some (.frameGeneric body)
  | _ => none

/-- The frame instruction that frame data holds (R62, R117), or the reason it is none. -/
def decodeFrameData : List Byte → Except DecodeError Instr
  | [] => .error .emptyFrameData
  | t :: body =>
    if bodyFits body then
      match frameOf t body with
      | some i => .ok i
      | none => .error (.unregisteredDiscriminator t)
    else .error (.frameDataTooLong (body.length + 1))

/-- The decoder of both layers. -/
def decode : Encoded → Except DecodeError Instr
  | .command w => .ok (decodeCommand w)
  | .frameData fd => decodeFrameData fd

/-! ### Encoding -/

/-- A CMD word of format C0, CM, CV, CL (R64): the fields a format does not read are 0 (R77). -/
def commandWord (op : BitVec 4) (mode : BitVec 2) (sel code : Byte) : Word := 0#8 ++ code ++ sel ++ 0#2 ++ mode ++ op

/-- A CMD word of format CN (R64). -/
def minlenWord (op : BitVec 4) (minlen : BitVec 16) : Word := minlen ++ 0#12 ++ op

/-- The words of an instruction (R64, R66, R68). -/
def encode : Instr → Encoded
  | .chksum => .command (commandWord 0x1#4 0#2 0#8 0#8)
  | .escape => .command (commandWord 0x2#4 0#2 0#8 0#8)
  | .unescape => .command (commandWord 0x3#4 0#2 0#8 0#8)
  | .validate minlen => .command (minlenWord 0x4#4 minlen)
  | .wrap mode => .command (commandWord 0x5#4 mode.bits 0#8 0#8)
  | .build mode => .command (commandWord 0x6#4 mode.bits 0#8 0#8)
  | .decodev mode variant => .command (commandWord 0x7#4 mode.bits variant 0#8)
  | .construct => .command (commandWord 0x8#4 0#2 0#8 0#8)
  | .encode mode => .command (commandWord 0x9#4 mode.bits 0#8 0#8)
  | .lookup table code => .command (commandWord 0xA#4 0#2 table code)
  | .clear => .command (commandWord 0xB#4 0#2 0#8 0#8)
  | .frameAtCommand body => .frameData (0x08#8 :: body)
  | .frameTransmitRequest body => .frameData (0x10#8 :: body)
  | .frameRemoteAtCommandRequest body => .frameData (0x17#8 :: body)
  | .frameTxSms body => .frameData (0x1F#8 :: body)
  | .frameAtCommandResponse body => .frameData (0x88#8 :: body)
  | .frameModemStatus body => .frameData (0x8A#8 :: body)
  | .frameReceivePacket body => .frameData (0x90#8 :: body)
  | .frameDeviceRequest body => .frameData (0xB9#8 :: body)
  | .frameFrameError body => .frameData (0xFE#8 :: body)
  | .frameGeneric body => .frameData (0xFF#8 :: body)
  | .reservedOp0 => .command (commandWord 0x0#4 0#2 0#8 0#8)
  | .reservedOpC => .command (commandWord 0xC#4 0#2 0#8 0#8)
  | .reservedOpD => .command (commandWord 0xD#4 0#2 0#8 0#8)
  | .reservedOpE => .command (commandWord 0xE#4 0#2 0#8 0#8)
  | .reservedOpF => .command (commandWord 0xF#4 0#2 0#8 0#8)

/-! ### The opcode table's own numbering -/

/-- The default layout a discriminator selects (R68), if it is one of the ten. -/
def frameLayout (t : Byte) : Option Layout := Machine.defaultLayouts.find? (fun L => L.type == t)

/-- Frame data of the discriminator `t` whose fixed region is all zero: the frame instruction with operand bytes of zeros. -/
def zeroFrameData (L : Layout) : List Byte := L.type :: List.replicate (Machine.minlen L - 5) 0#8

/-- A row of the table given as one byte is a discriminator (mask 0xFF) when that byte is one of the ten; any other row is a CMD word,
whose bits above `nbits` are 0. Log entry 10. -/
def tableEncoding (nbits w : Nat) : Option Encoded :=
  if nbits ≤ 8 then
    match frameLayout (BitVec.ofNat 8 w) with
    | some L => some (.frameData (zeroFrameData L))
    | none => some (.command (BitVec.ofNat 32 w))
  else if nbits ≤ 32 then some (.command (BitVec.ofNat 32 w))
  else none

/-- The instruction the decoder reads from a row of spec/opcode_table.json. -/
def decodeTableWord (nbits w : Nat) : Option Instr :=
  match tableEncoding nbits w with
  | none => none
  | some e =>
    match decode e with
    | .ok i => some i
    | .error _ => none

end Sys2Proof
end

