-- ==== Sys2Proof/Machine/Errors.lean ====
section
/-! DEFINITION. The typed errors a command can complete with and their STATUS codes (30_encoding.md R70 to R76, 60_exceptions.md R191). -/

namespace Sys2Proof.Machine

/-- One constructor per (ECLASS, EDETAIL) pair of R191; the argument, where there is one, is what EARG records. -/
inductive CommandError
  | operatingModeUnsupported (m : Mode)
  | tooShort
  | badDelimiter
  | lengthMismatch
  | checksumMismatch
  | variantTooShort
  | wrongDiscriminator
  | varFieldOverflow (i : Nat)
  | trailingBytes
  | danglingEscape
  | fieldInvalid (i : Nat)
  | range (i : Nat)
  | size (i : Nat)
  | capacity (i : Nat)
  | pattern (i : Nat)
  | varTooLong (i : Nat)
  | frameTooLong
  | shape (i : Nat)
  | notSupported (t : Byte)
  | illegalOpcode (op : BitVec 4)
  | notConstructed
  | operandTooLong
  | badTable (t : Byte)
  | noRecord
deriving DecidableEq, Repr, Inhabited

/-- ECLASS (R71). -/
def CommandError.eclass : CommandError → BitVec 4
  | .operatingModeUnsupported _ => 1#4
  | .tooShort | .badDelimiter | .lengthMismatch | .checksumMismatch | .variantTooShort | .wrongDiscriminator
  | .varFieldOverflow _ | .trailingBytes | .danglingEscape | .fieldInvalid _ => 2#4
  | .range _ | .size _ | .capacity _ | .pattern _ | .varTooLong _ | .frameTooLong | .shape _ => 3#4
  | .notSupported _ => 4#4
  | .illegalOpcode _ | .notConstructed | .operandTooLong | .badTable _ | .noRecord => 5#4

/-- EDETAIL (R72 to R76). -/
def CommandError.edetail : CommandError → Byte
  | .operatingModeUnsupported _ => 0x00#8
  | .tooShort => 0x01#8
  | .badDelimiter => 0x02#8
  | .lengthMismatch => 0x03#8
  | .checksumMismatch => 0x04#8
  | .variantTooShort => 0x05#8
  | .wrongDiscriminator => 0x06#8
  | .varFieldOverflow _ => 0x07#8
  | .trailingBytes => 0x08#8
  | .danglingEscape => 0x09#8
  | .fieldInvalid _ => 0x0A#8
  | .range _ => 0x01#8
  | .size _ => 0x02#8
  | .capacity _ => 0x03#8
  | .pattern _ => 0x04#8
  | .varTooLong _ => 0x05#8
  | .frameTooLong => 0x06#8
  | .shape _ => 0x07#8
  | .notSupported _ => 0x00#8
  | .illegalOpcode _ => 0x01#8
  | .notConstructed => 0x02#8
  | .operandTooLong => 0x03#8
  | .badTable _ => 0x04#8
  | .noRecord => 0x05#8

/-- EARG (R72 to R76). A field index is at most 255, because a layout has at most 255 fields (R122). -/
def CommandError.earg : CommandError → Byte
  | .operatingModeUnsupported m => m.bits.setWidth 8
  | .varFieldOverflow i | .fieldInvalid i => BitVec.ofNat 8 i
  | .range i | .size i | .capacity i | .pattern i | .varTooLong i | .shape i => BitVec.ofNat 8 i
  | .notSupported t => t
  | .illegalOpcode op => op.setWidth 8
  | .badTable t => t
  | .tooShort | .badDelimiter | .lengthMismatch | .checksumMismatch | .variantTooShort | .wrongDiscriminator
  | .trailingBytes | .danglingEscape | .frameTooLong | .notConstructed | .operandTooLong | .noRecord => 0#8

end Sys2Proof.Machine
end

