-- ==== Sys2Proof/Machine/State.lean ====
section
/-! DEFINITION. The state of the block (10_state.md, 20_memory.md), its environment as plain data, the reasons a step can stop, and reset
(R30). -/

namespace Sys2Proof.Machine

/-- STATUS as its fields (R17). The reserved bits 31:25 read 0 and VALID mirrors PREC.valid, so neither is stored here; `statusWord` in
Flags.lean is the word the host reads. -/
structure Status where
  busy    : Bool
  done    : Bool
  err     : Bool
  ovr     : Bool
  eclass  : BitVec 4
  edetail : Byte
  earg    : Byte
deriving DecidableEq, Repr, Inhabited

/-- What the host does at a bus address (R52): a register moves words (R49), IBUF takes and OBUF gives bytes (R42, R45), PREC moves whole
records (R44). -/
inductive BusAccess
  | writeWord (w : Word)
  | readWord
  | writeBytes (b : List Byte)
  | readBytes
  | readByte (i : Nat)
  | writeRecord (r : Record)
  | readRecord
deriving DecidableEq, Repr, Inhabited

/-- One action of the host (R77), or of the platform (R206). -/
inductive HostAction
  /-- IBUF load (R42) -/
  | load (b : List Byte)
  /-- PREC record write (R26) -/
  | put (r : Record)
  /-- register write by index; index 0 is CMD (R14, R16) -/
  | writeReg (idx : Fin 16) (w : Word)
  /-- register read by index (R14) -/
  | readReg (idx : Fin 16)
  /-- whole OBUF read (R45) -/
  | readObuf
  /-- OBUF byte read (R45) -/
  | readObufByte (i : Nat)
  /-- PREC read (R44) -/
  | readPrec
  /-- an access at a bus address, which BUS_MAP turns into one of the accesses above (R52, log entry 23) -/
  | bus (addr : Nat) (access : BusAccess)
  /-- read STATUS until BUSY = 0 (R77) -/
  | wait
  /-- read STATUS; if ERR = 1 skip the next `n` actions: SEND's condition (R78) -/
  | skipOnError (n : Nat)
  /-- the platform asserts reset (R206) -/
  | resetInput
deriving DecidableEq, Repr, Inhabited

/-- What a host read returned. -/
inductive ReadValue
  | word (w : Word)
  | byte (b : Byte)
  | bytes (b : List Byte)
  | prec (p : Prec)
deriving DecidableEq, Repr, Inhabited

/-- The block and its environment. -/
structure State where
  /-- the frozen configuration (R27) -/
  config : Config
  /-- STATUS (R17) -/
  status : Status
  /-- RESULT (R20) -/
  result : Word
  /-- OLEN (R21) -/
  olen : Word
  /-- ILEN (R21) -/
  ilen : Word
  /-- the latched command word (R28) -/
  latched : Option Word
  /-- the input buffer (R41) -/
  ibuf : List Byte
  /-- the output buffer (R41) -/
  obuf : List Byte
  /-- the packet record bank (R24) -/
  prec : Prec
  /-- MODEL'S OWN: host steps left before the engine completes the command in flight (R28 LATENCY; log entries 1 and 2) -/
  latencyLeft : Nat
  /-- MODEL'S OWN: the counter free values are drawn with (log entries 2 and 3) -/
  draws : Nat
  /-- MODEL'S OWN: the host's actions still to come, oldest first (log entry 1) -/
  pending : List HostAction
  /-- MODEL'S OWN: what the host's reads returned, newest first (log entry 1) -/
  received : List ReadValue
deriving DecidableEq, Repr, Inhabited

/-- The faults. None is the spec's: nothing in the block can hang or trap (R187, R190). Each stops the model, safely, in states that no
run reaches (log entry 15). -/
inductive Fault
  /-- raised by `step` when BUSY = 1 and no command word is latched, against R28; safe -/
  | busyWithoutCommand
  /-- raised by ENCODE when PREC.valid = 1 and PREC holds no record of a registered layout, against R150 and R160; safe -/
  | validWithoutRecord
deriving DecidableEq, Repr

/-- The refusals. -/
inductive Refusal
  /-- raised by exec's arm of an instruction that has no meaning yet; safe -/
  | notModelled (mnemonic : String)
  /-- raised by a host load of more than IBUF_CAP bytes, which the host has no move for (R42); safe -/
  | loadTooLong
  /-- raised by a bus access that BUS_MAP places nowhere, or whose place has no such access (R52, log entry 23); safe -/
  | noBusPlace
  /-- raised by `step` and `powerOn` on a configuration that is not one of this block (R111, R122, R209); safe -/
  | illFormedConfiguration
deriving DecidableEq, Repr

/-- STATUS = 0 (R30). -/
def Status.reset : Status :=
  { busy := false, done := false, err := false, ovr := false, eclass := 0#4, edetail := 0#8, earg := 0#8 }

/-- Every piece of the block at its reset value with the configuration `cfg` loaded (R30, R209). -/
def State.resetWith (cfg : Config) : State :=
  { config := cfg
    status := Status.reset
    result := 0#32
    olen := 0#32
    ilen := 0#32
    latched := none
    ibuf := []
    obuf := []
    prec := Prec.empty
    latencyLeft := 0
    draws := 0
    pending := []
    received := [] }

/-- The block right after reset, with the default configuration (R6, R30). -/
def State.reset : State := State.resetWith defaultConfig

end Sys2Proof.Machine
end

