-- ==== Sys2Proof/Machine/Flags.lean ====
section
/-! DEFINITION. The STATUS flags: the word the host reads (10_state.md R17), the accept of a command (R16), and the two completions (R28,
60_exceptions.md R196). -/

namespace Sys2Proof.Machine

/-- The STATUS word (R17): 31:25 reserved 0, 24 VALID, 23:16 EARG, 15:8 EDETAIL, 7:4 ECLASS, 3 OVR, 2 ERR, 1 DONE, 0 BUSY. -/
def statusWord (st : Status) (valid : Bool) : Word :=
  0#7 ++ BitVec.ofBool valid ++ st.earg ++ st.edetail ++ st.eclass
    ++ BitVec.ofBool st.ovr ++ BitVec.ofBool st.err ++ BitVec.ofBool st.done ++ BitVec.ofBool st.busy

/-- R16: an accepted CMD write. OVR stays. -/
def Status.accepted (st : Status) : Status :=
  { st with busy := true, done := false, err := false, eclass := 0#4, edetail := 0#8, earg := 0#8 }

/-- R28: completion without an error. -/
def Status.succeeded (st : Status) : Status :=
  { st with busy := false, done := true, err := false, eclass := 0#4, edetail := 0#8, earg := 0#8 }

/-- R28, R196: completion with the error `e`; ERR is written together with ECLASS (R19). -/
def Status.failed (st : Status) (e : CommandError) : Status :=
  { st with busy := false, done := true, err := true, eclass := e.eclass, edetail := e.edetail, earg := e.earg }

/-- A dropped host write sets the sticky OVR (R16, R26, R43). -/
def Status.overrun (st : Status) : Status := { st with ovr := true }

/-- CLEAR (R186). -/
def Status.clearOvr (st : Status) : Status := { st with ovr := false }

end Sys2Proof.Machine
end

