-- ==== Sys2Proof/Machine/Codec.lean ====
section
/-! DEFINITION. The frame codec's functions on byte sequences: notation (00_scope.md R8), checksum (R80), escape (R82), unescape (R85),
envelope (R89) and wrap (R91). -/

namespace Sys2Proof.Machine

/-! ### Notation (R8) -/

/-- `sum(b)`, with no wrap. -/
def byteSum (b : List Byte) : Nat := (b.map BitVec.toNat).sum

/-- `b[i:j]`. -/
def slice (b : List Byte) (i j : Nat) : List Byte := (b.take j).drop i

/-- `rdBE(b)`. -/
def rdBE (b : List Byte) : Nat := b.foldl (fun acc x => acc * 256 + x.toNat) 0

/-- `BEw(n)`. -/
def beBytes : Nat → Nat → List Byte
  | 0, _ => []
  | w + 1, n => beBytes w (n / 256) ++ [BitVec.ofNat 8 n]

/-- `BE16(n)`. R8 defines it for n ≤ 65535; above, its two bytes are the free value of log entry 4. -/
def be16 (n : Nat) : List Byte :=
  if n ≤ 65535 then beBytes 2 n else [(Config.lengthBytes n).1, (Config.lengthBytes n).2]

/-! ### Checksum -/

/-- `0xFF − (sum(b) mod 256)` (R80). -/
def checksum (b : List Byte) : Byte := BitVec.ofNat 8 (0xFF - byteSum b % 256)

/-! ### Escape and unescape -/

/-- Membership in RSV (R6). -/
def isReserved (x : Byte) : Bool := RSV.contains x

/-- R82. -/
def escape : List Byte → List Byte
  | [] => []
  | x :: xs => if isReserved x then ESC :: (x ^^^ XMASK) :: escape xs else x :: escape xs

/-- R85, with the error of R87. -/
def unescape : List Byte → Except CommandError (List Byte)
  | [] => .ok []
  | [x] => if x == ESC then .error .danglingEscape else .ok [x]
  | x :: y :: rest =>
    if x == ESC then
      match unescape rest with
      | .ok out => .ok ((y ^^^ XMASK) :: out)
      | .error e => .error e
    else
      match unescape (y :: rest) with
      | .ok out => .ok (x :: out)
      | .error e => .error e

/-! ### Envelope and frame assembly -/

/-- `envelope(raw, m)`: the four checks in the order (a) to (d), then the frame data (R89). -/
def envelope (raw : List Byte) (m : Nat) : Except CommandError (List Byte) :=
  if raw.length < max m ENV_FLOOR then .error .tooShort
  else if raw.headD 0#8 ≠ DELIM then .error .badDelimiter
  else if rdBE (slice raw 1 3) ≠ raw.length - 4 then .error .lengthMismatch
  else if checksum (slice raw 3 (raw.length - 1)) ≠ raw.getLastD 0#8 then .error .checksumMismatch
  else .ok (slice raw 3 (raw.length - 1))

/-- `wrap(fd, mode)` (R91): the length and checksum are over the unescaped frame data, the delimiter is outside the escape. -/
def wrapFrame (fd : List Byte) (mode : Mode) : List Byte :=
  let body := be16 fd.length ++ fd ++ [checksum fd]
  DELIM :: (if mode = .API_ESC then escape body else body)

/-- The modes that decode and encode (R65, R113). -/
def modeAccepted : Mode → Bool
  | .API | .API_ESC => true
  | .AT | .UNKNOWN => false

/-- BUILD's unescape stage (R115): in API_ESC mode the bytes after byte 0 are unescaped and byte 0 is kept. -/
def inboundUnescape (mode : Mode) (raw : List Byte) : Except CommandError (List Byte) :=
  match mode, raw with
  | .API_ESC, x :: xs =>
    match unescape xs with
    | .ok out => .ok (x :: out)
    | .error e => .error e
  | _, _ => .ok raw

/-- BUILD up to the frame data (R114): mode check, unescape, envelope with GEN_MIN, in that order (R93). -/
def inboundFrameData (mode : Mode) (raw : List Byte) : Except CommandError (List Byte) :=
  if modeAccepted mode then
    match inboundUnescape mode raw with
    | .ok u => envelope u GEN_MIN
    | .error e => .error e
  else .error (.operatingModeUnsupported mode)

end Sys2Proof.Machine
end

