-- ==== Sys2Proof/Machine/Operands.lean ====
section
/-! DEFINITION. Every operand form of frame data: the seven field kinds in both directions (30_encoding.md R63), the layout-driven decoder
(R124) and encoder (R128), CONSTRUCT's checks (R151 to R155), and the code-table lookup (R175). -/

namespace Sys2Proof.Machine

/-! ### Code tables -/

/-- `lookup(t, n)` (R175). A reserved id has no policy; a well-formed layout and LOOKUP never pass one (R122, R176). -/
def lookupTag (cfg : Config) (t n : Byte) : Tag :=
  if isMember cfg t n then .KNOWN
  else
    match policy t with
    | some .degrade => .UNKNOWN
    | some .absent | none => .ABSENT

/-- The RESULT value of a tag (R174). -/
def Tag.bits : Tag → BitVec 2
  | .KNOWN => 0#2
  | .UNKNOWN => 1#2
  | .ABSENT => 2#2

/-! ### Text slots -/

/-- `strip0(b)`: without every trailing 0x00 (R63, R127). -/
def strip0 : List Byte → List Byte
  | [] => []
  | x :: xs =>
    match strip0 xs with
    | [] => if x == 0#8 then [] else [x]
    | y :: ys => x :: y :: ys

/-- ASCII 0x30–0x39. -/
def isDigit (x : Byte) : Bool := decide (0x30 ≤ x.toNat) && decide (x.toNat ≤ 0x39)

/-- The content after an optional leading `+`. -/
def afterPlus : List Byte → List Byte
  | [] => []
  | x :: xs => if x == 0x2B#8 then xs else x :: xs

/-- `matches(q, s)` (R127). PHONE's digits exclude 0x00. -/
def matchesPattern : Pattern → List Byte → Bool
  | .PHONE, s => !(afterPlus s).isEmpty && (afterPlus s).all isDigit
  | .NONE, s => s.all (fun x => x != 0#8)

/-! ### Wire to record -/

/-- What one field of a decode gives: its value, its tag, and the bytes after it. -/
abbrev FieldRead := FieldVal × Option Tag × List Byte

/-- One field of decode_L at index `i` (R124, R63), with the cursor as the bytes that remain. -/
def decodeField (cfg : Config) (i : Nat) (f : FieldSpec) (rest : List Byte) : Except CommandError FieldRead :=
  match f with
  | .CID => .ok (.cid (rest.headD 0#8).toNat, none, rest.drop 1)
  | .INT w => .ok (.int (rdBE (rest.take w)), none, rest.drop w)
  | .CODE t => .ok (.code (rest.headD 0#8).toNat, some (lookupTag cfg t (rest.headD 0#8)), rest.drop 1)
  | .BYTES w => .ok (.bytes (rest.take w), none, rest.drop w)
  | .TEXT c q =>
    if matchesPattern q (strip0 (rest.take c)) then .ok (.text (strip0 (rest.take c)), none, rest.drop c)
    else .error (.fieldInvalid i)
  | .VAR =>
    match rest with
    | [] => .error (.varFieldOverflow i)
    | k :: r => if k.toNat ≤ r.length then .ok (.var (r.take k.toNat), none, r.drop k.toNat) else .error (.varFieldOverflow i)
  | .PAYLOAD => .ok (.payload rest, none, [])

/-- The fields from index `i` on, in index order (R124): values, tags, and the bytes left over. -/
def decodeFields (cfg : Config) : Nat → List FieldSpec → List Byte →
    Except CommandError (List FieldVal × List (Option Tag) × List Byte)
  | _, [], rest => .ok ([], [], rest)
  | i, f :: fs, rest =>
    match decodeField cfg i f rest with
    | .error e => .error e
    | .ok (v, t, rest') =>
      match decodeFields cfg (i + 1) fs rest' with
      | .error e => .error e
      | .ok (vs, ts, left) => .ok (v :: vs, t :: ts, left)

/-- `decode_L(fd)` (R124), with the failures in the order of R125. -/
def decodeLayout (cfg : Config) (L : Layout) (fd : List Byte) : Except CommandError (Record × List (Option Tag)) :=
  if fd.length + 4 < minlen L then .error .variantTooShort
  else if fd.headD 0#8 ≠ L.type then .error .wrongDiscriminator
  else
    match decodeFields cfg 0 L.fields (fd.drop 1) with
    | .error e => .error e
    | .ok (vals, tags, left) =>
      if left.isEmpty then .ok ({ type := fd.headD 0#8, vals := vals }, tags) else .error .trailingBytes

/-! ### Record to wire -/

/-- `ser` (R128, R63); `none` when the value is not of the field's kind. -/
def encodeField : FieldSpec → FieldVal → Option (List Byte)
  | .CID, .cid n => some [BitVec.ofNat 8 n]
  | .INT w, .int n => some (beBytes w n)
  | .CODE _, .code n => some [BitVec.ofNat 8 n]
  | .BYTES _, .bytes b => some b
  | .TEXT c _, .text b => some (b ++ List.replicate (c - b.length) 0#8)
  | .VAR, .var b => some (BitVec.ofNat 8 b.length :: b)
  | .PAYLOAD, .payload b => some b
  | _, _ => none

/-- The fields of a record in layout order; `none` when the record has not the layout's shape. -/
def encodeFields : List FieldSpec → List FieldVal → Option (List Byte)
  | [], [] => some []
  | f :: fs, v :: vs =>
    match encodeField f v, encodeFields fs vs with
    | some b, some bs => some (b ++ bs)
    | _, _ => none
  | _, _ => none

/-- `encode_L(rec)` (R128). -/
def encodeLayout (L : Layout) (r : Record) : Option (List Byte) :=
  match encodeFields L.fields r.vals with
  | some b => some (r.type :: b)
  | none => none

/-! ### CONSTRUCT's checks -/

/-- The first index at which the record's shape differs from the layout's (R151 step 1, R153). -/
def shapeMismatch : Nat → List FieldSpec → List FieldVal → Option Nat
  | _, [], [] => none
  | i, f :: fs, v :: vs => if v.kind = specKind f then shapeMismatch (i + 1) fs vs else some i
  | i, _, _ => some i

/-- The value check of one field (R152 to R155); a value of another kind is SHAPE's business (R153). -/
def checkField (i : Nat) : FieldSpec → FieldVal → Option CommandError
  | .CID, .cid n => if n < 256 then none else some (.range i)
  | .INT w, .int n => if n < 256 ^ w then none else some (.range i)
  | .CODE _, .code n => if n < 256 then none else some (.range i)
  | .BYTES w, .bytes b => if b.length = w then none else some (.size i)
  | .TEXT c q, .text b =>
    if c < b.length then some (.capacity i) else if matchesPattern q b then none else some (.pattern i)
  | .VAR, .var b => if b.length ≤ 255 then none else some (.varTooLong i)
  | .PAYLOAD, .payload _ => none
  | _, _ => some (.shape i)

/-- The value checks in index order, the first failure reported (R151 step 2). -/
def checkFields : Nat → List FieldSpec → List FieldVal → Option CommandError
  | i, f :: fs, v :: vs =>
    match checkField i f v with
    | some e => some e
    | none => checkFields (i + 1) fs vs
  | _, _, _ => none

/-- The tag of a constructed field (R151). -/
def fieldTag (cfg : Config) : FieldSpec → FieldVal → Option Tag
  | .CODE t, .code n => some (lookupTag cfg t (BitVec.ofNat 8 n))
  | _, _ => none

/-- PREC.tags of a constructed record (R151, R25). -/
def recordTags (cfg : Config) (L : Layout) (r : Record) : List (Option Tag) := List.zipWith (fieldTag cfg) L.fields r.vals

/-- CONSTRUCT's checks of a record, in the order of R151 and R193. -/
def constructCheck (cfg : Config) (r : Record) : Except CommandError (Layout × List (Option Tag)) :=
  match registered cfg r.type with
  | none => .error (.notSupported r.type)
  | some L =>
    match shapeMismatch 0 L.fields r.vals with
    | some i => .error (.shape i)
    | none =>
      match checkFields 0 L.fields r.vals with
      | some e => .error e
      | none =>
        if ((encodeLayout L r).getD []).length ≤ 65535 then .ok (L, recordTags cfg L r) else .error .frameTooLong

/-! ### RESULT words (R69) -/

/-- `cidval(rec)` (R114): the CID value, or 0. -/
def cidValue (r : Record) : Nat :=
  match r.vals with
  | .cid n :: _ => n
  | _ => 0

/-- RESULT of BUILD, DECODEV and CONSTRUCT: [7:0] type, [8] HAS_CID, [23:16] CID (R69). -/
def recordResult (L : Layout) (r : Record) : Word :=
  0#8 ++ (if hasCid L then BitVec.ofNat 8 (cidValue r) else 0#8) ++ 0#7 ++ BitVec.ofBool (hasCid L) ++ r.type

/-- RESULT of LOOKUP: [1:0] tag, [15:8] TABLE, [23:16] CODE (R69, R176). -/
def lookupResult (tag : Tag) (table code : Byte) : Word := 0#8 ++ code ++ table ++ 0#6 ++ tag.bits

end Sys2Proof.Machine
end

