-- ==== Sys2Proof/Machine/Ops.lean ====
section
/-! DEFINITION. The operations over state that the commands share: completing, failing (the block's exception entry, R196), the output
buffer (R46), the record bank (R24), accepting a command (R16), power-on and reset (R206, R209). There is no return from an error: the next
accepted command clears it (R16, R197). -/

namespace Sys2Proof.Machine

/-- The outcome type of every meaning. -/
abbrev Result := Host.Outcome State Fault Refusal

/-- R28: a command completes without error and leaves `r` in RESULT (R20). Nothing is latched any more. -/
def State.succeed (s : State) (r : Word) : State :=
  { s with status := s.status.succeeded, result := r, latched := none, latencyLeft := 0 }

/-- TAKING AN ERROR (R9 `raise`, R196): BUSY <- 0, DONE <- 1, ERR <- 1, the error's codes, RESULT <- 0. What else a failing command clears
is the command's. -/
def State.fail (s : State) (e : CommandError) : State :=
  { s with status := s.status.failed e, result := 0#32, latched := none, latencyLeft := 0 }

/-- A command replaces OBUF with its whole output and sets OLEN to its length (R46), modulo 2^32 (log entry 12). -/
def State.setObuf (s : State) (b : List Byte) : State := { s with obuf := b, olen := BitVec.ofNat 32 b.length }

/-- A load replaces IBUF and sets ILEN to its length (R42), modulo 2^32 (log entry 12). -/
def State.setIbuf (s : State) (b : List Byte) : State := { s with ibuf := b, ilen := BitVec.ofNat 32 b.length }

/-- PREC is replaced whole (R114, R120). -/
def State.setPrec (s : State) (p : Prec) : State := { s with prec := p }

/-- A command whose output is OBUF: on success the bytes and RESULT, on error an empty OBUF (R88, R90, R92, R160, R196). -/
def State.finishBytes (s : State) (out : Except CommandError (List Byte)) (value : List Byte → Word) : State :=
  match out with
  | .ok b => (s.setObuf b).succeed (value b)
  | .error e => (s.setObuf []).fail e

/-- A command whose output is PREC: on success the valid record and its RESULT, on error the empty PREC (R114, R120, R196). -/
def State.finishRecord (s : State) (L : Layout) (out : Except CommandError (Record × List (Option Tag))) : State :=
  match out with
  | .ok (r, tags) => (s.setPrec { record := some r, tags := tags, valid := true }).succeed (recordResult L r)
  | .error e => (s.setPrec Prec.empty).fail e

/-- The decoder of layout `L` run on frame data (R119, R120, R124). -/
def State.runDecoder (s : State) (L : Layout) (fd : List Byte) : State := s.finishRecord L (decodeLayout s.config L fd)

/-- A BUILD or DECODEV that fails before a decoder runs (R114, R120, R196). -/
def State.failRecord (s : State) (e : CommandError) : State := (s.setPrec Prec.empty).fail e

/-- A reserved opcode (R187): ILLEGAL_OPCODE, and nothing but STATUS and RESULT changes. -/
def State.illegal (s : State) (op : BitVec 4) : State := s.fail (.illegalOpcode op)

/-- The dispatch by discriminator of BUILD (R117, R118) and DECODEV (R120): NotSupported, or the registered variant's decoder. -/
def State.dispatch (s : State) (t : Byte) (fd : List Byte) : State :=
  match registered s.config t with
  | none => s.failRecord (.notSupported t)
  | some L => s.runDecoder L fd

/-- An accepted CMD write (R16). The number of host steps until the engine completes it is drawn here (R28). -/
def State.accept (s : State) (w : Word) : State :=
  { s with status := s.status.accepted, latched := some w, latencyLeft := Config.latency s.draws, draws := s.draws + 1 }

/-- The state in which the next step runs the command word `w`: accepted (R16), with no host step left before the engine's. -/
def State.latch (s : State) (w : Word) : State :=
  { s with status := s.status.accepted, latched := some w, latencyLeft := 0 }

/-- An instruction put where the next step runs it. A command word is latched. Frame data is put in IBUF as the plain frame around it, and
BUILD mode=API (0x00000016, R79) is latched, so that BUILD dispatches to it (R114, R117). Log entry 11. -/
def State.place (s : State) : Encoded → State
  | .command w => s.latch w
  | .frameData fd => (s.setIbuf (wrapFrame fd .API)).latch 0x00000016#32

/-- A dropped host write: nothing changes but OVR (R16, R26, R43). -/
def State.drop (s : State) : State := { s with status := s.status.overrun }

/-- A host record write (R26). -/
def State.putRecord (s : State) (r : Record) : State :=
  s.setPrec { record := some r, tags := List.replicate r.vals.length none, valid := false }

/-- Reset (R206, R207): every piece of the block takes its reset value and the frozen configuration is loaded again; what the model holds
of the host outside the block stays (log entry 16). -/
def State.resetBlock (s : State) : State :=
  { State.resetWith s.config with draws := s.draws, pending := s.pending, received := s.received }

/-- Coming out of power-on with a configuration (R209): a configuration that is not legal is refused. -/
def powerOn (cfg : Config) : Result :=
  if cfg.wf then .next (State.resetWith cfg) else .refused .illFormedConfiguration

end Sys2Proof.Machine
end

