-- ==== Sys2Proof/Machine/CodeTables.lean ====
section
/-! DEFINITION. The code-table command (44_code_tables.md): LOOKUP. -/

namespace Sys2Proof.Machine

/-- LOOKUP (R176). -/
def execLookup (table code : Byte) (s : State) : Result :=
  if tableDefined table then .next (s.succeed (lookupResult (lookupTag s.config table code) table code))
  else .next (s.fail (.badTable table))

end Sys2Proof.Machine
end

