-- ==== Sys2Proof/Machine/Construct.lean ====
section
/-! DEFINITION. Packet construction and encoding (43_construct_encode.md): CONSTRUCT and ENCODE. -/

namespace Sys2Proof.Machine

/-- A failed CONSTRUCT keeps the record, clears valid and sets every tag to none (R151, R196). -/
def State.failConstruct (s : State) (vals : List FieldVal) (e : CommandError) : State :=
  (s.setPrec { record := s.prec.record, tags := List.replicate vals.length none, valid := false }).fail e

/-- CONSTRUCT (R151). -/
def execConstruct (s : State) : Result :=
  match s.prec.record with
  | none => .next (s.failConstruct [] .noRecord)
  | some r =>
    match constructCheck s.config r with
    | .error e => .next (s.failConstruct r.vals e)
    | .ok (L, tags) => .next ((s.setPrec { record := some r, tags := tags, valid := true }).succeed (recordResult L r))

/-- The frame data of the record in PREC (R160): its registered layout's encode_L. -/
def precFrameData (s : State) : Option (List Byte) :=
  match s.prec.record with
  | none => none
  | some r =>
    match registered s.config r.type with
    | none => none
    | some L => encodeLayout L r

/-- ENCODE's output for this frame data: its frame (R91). R91 asks for at most 65535 bytes of frame data, and up to there the frame fits OBUF
(R46). Longer frame data, which DECODEV can leave in a valid record, gives its frame too where that fits OBUF_CAP, and otherwise free bytes
that fit it (R41; log entries 4 and 5). -/
def encodeOutput (cfg : Config) (mode : Mode) (fd : List Byte) : List Byte :=
  if fd.length ≤ 65535 ∨ (wrapFrame fd mode).length ≤ cfg.obufCap then wrapFrame fd mode
  else (Config.overlongFrame (wrapFrame fd mode)).take cfg.obufCap

/-- ENCODE (R160). A valid PREC holds a record of a registered layout (R150); one that does not is a state no run reaches. -/
def execEncode (mode : Mode) (s : State) : Result :=
  if modeAccepted mode then
    if s.prec.valid then
      match precFrameData s with
      | none => .fault .validWithoutRecord
      | some fd => .next ((s.setObuf (encodeOutput s.config mode fd)).succeed 0#32)
    else .next ((s.setObuf []).fail .notConstructed)
  else .next ((s.setObuf []).fail (.operatingModeUnsupported mode))

end Sys2Proof.Machine
end

