-- ==== Sys2Proof/Machine/Control.lean ====
section
/-! DEFINITION. The control commands (45_control.md): CLEAR and the five reserved opcodes. -/

namespace Sys2Proof.Machine

/-- CLEAR (R186). -/
def execClear (s : State) : Result := .next ({ s with status := s.status.clearOvr }.succeed 0#32)

/-- Reserved opcode 0x0 (R187). -/
def execReservedOp0 (s : State) : Result := .next (s.illegal 0x0#4)

/-- Reserved opcode 0xC (R187). -/
def execReservedOpC (s : State) : Result := .next (s.illegal 0xC#4)

/-- Reserved opcode 0xD (R187). -/
def execReservedOpD (s : State) : Result := .next (s.illegal 0xD#4)

/-- Reserved opcode 0xE (R187). -/
def execReservedOpE (s : State) : Result := .next (s.illegal 0xE#4)

/-- Reserved opcode 0xF (R187). -/
def execReservedOpF (s : State) : Result := .next (s.illegal 0xF#4)

end Sys2Proof.Machine
end

