-- ==== Sys2Proof/Machine/DecoderBank.lean ====
section
/-! DEFINITION. The decoder bank (42_decoder_bank.md): one frame instruction per default layout. Its effect is that of the variant's decoder on
the frame data `discriminator :: body` (R119, R124): PREC and RESULT, or the decoder's error. The decoders ignore the mode (R119). -/

namespace Sys2Proof.Machine

/-- 0x08 (R130). -/
def execFrameAtCommand (body : List Byte) (s : State) : Result := .next (s.runDecoder layoutAtCommand (0x08#8 :: body))

/-- 0x10 (R131). -/
def execFrameTransmitRequest (body : List Byte) (s : State) : Result := .next (s.runDecoder layoutTransmitRequest (0x10#8 :: body))

/-- 0x17 (R132). -/
def execFrameRemoteAtCommandRequest (body : List Byte) (s : State) : Result := .next (s.runDecoder layoutRemoteAtCommandRequest (0x17#8 :: body))

/-- 0x1F (R133). -/
def execFrameTxSms (body : List Byte) (s : State) : Result := .next (s.runDecoder layoutTxSms (0x1F#8 :: body))

/-- 0x88 (R134). -/
def execFrameAtCommandResponse (body : List Byte) (s : State) : Result := .next (s.runDecoder layoutAtCommandResponse (0x88#8 :: body))

/-- 0x8A (R135). -/
def execFrameModemStatus (body : List Byte) (s : State) : Result := .next (s.runDecoder layoutModemStatus (0x8A#8 :: body))

/-- 0x90 (R136). -/
def execFrameReceivePacket (body : List Byte) (s : State) : Result := .next (s.runDecoder layoutReceivePacket (0x90#8 :: body))

/-- 0xB9 (R137). -/
def execFrameDeviceRequest (body : List Byte) (s : State) : Result := .next (s.runDecoder layoutDeviceRequest (0xB9#8 :: body))

/-- 0xFE (R138). -/
def execFrameFrameError (body : List Byte) (s : State) : Result := .next (s.runDecoder layoutFrameError (0xFE#8 :: body))

/-- 0xFF (R139). -/
def execFrameGeneric (body : List Byte) (s : State) : Result := .next (s.runDecoder layoutGeneric (0xFF#8 :: body))

end Sys2Proof.Machine
end

