-- ==== Sys2Proof/Machine/FrameCodec.lean ====
section
/-! DEFINITION. The frame-codec commands (40_frame_codec.md): CHKSUM, ESCAPE, UNESCAPE, VALIDATE, WRAP. -/

namespace Sys2Proof.Machine

/-- CHKSUM (R84). -/
def execChksum (s : State) : Result := .next (s.succeed ((checksum s.ibuf).setWidth 32))

/-- ESCAPE (R86). -/
def execEscape (s : State) : Result := .next ((s.setObuf (escape s.ibuf)).succeed 0#32)

/-- UNESCAPE (R88). -/
def execUnescape (s : State) : Result := .next (s.finishBytes (unescape s.ibuf) (fun _ => 0#32))

/-- VALIDATE (R90). -/
def execValidate (minlen : BitVec 16) (s : State) : Result :=
  .next (s.finishBytes (envelope s.ibuf minlen.toNat) (fun fd => BitVec.ofNat 32 fd.length))

/-- WRAP's output (R92): the mode check, then the length check, of IBUF itself (log entry 12), then the frame. -/
def wrapOutput (mode : Mode) (fd : List Byte) : Except CommandError (List Byte) :=
  if modeAccepted mode then
    if fd.length ≤ 65535 then .ok (wrapFrame fd mode) else .error .operandTooLong
  else .error (.operatingModeUnsupported mode)

/-- WRAP (R92). -/
def execWrap (mode : Mode) (s : State) : Result := .next (s.finishBytes (wrapOutput mode s.ibuf) (fun _ => 0#32))

end Sys2Proof.Machine
end

