-- ==== Sys2Proof/Machine/Router.lean ====
section
/-! DEFINITION. The discriminator router (41_registry_dispatch.md): BUILD and DECODEV, and the routing of a command to the frame instruction
whose decoder it dispatches to (R117, R119). -/

namespace Sys2Proof.Machine

/-- BUILD (R114). -/
def execBuild (mode : Mode) (s : State) : Result :=
  match inboundFrameData mode s.ibuf with
  | .error e => .next (s.failRecord e)
  | .ok fd => .next (s.dispatch (fd.headD 0#8) fd)

/-- DECODEV (R120). -/
def execDecodev (mode : Mode) (variant : Byte) (s : State) : Result :=
  if modeAccepted mode then .next (s.dispatch variant s.ibuf)
  else .next (s.failRecord (.operatingModeUnsupported mode))

/-- The frame instruction that the decoder of discriminator `t` runs on `fd`: `fd` holds an instruction of discriminator `t`, and the
registry maps `t` to the default layout (log entry 9). -/
def routedFrame (cfg : Config) (t : Byte) (fd : List Byte) : Option Instr :=
  match decodeFrameData fd with
  | .error _ => none
  | .ok i => if fd.headD 0#8 = t ∧ (frameLayout t).isSome ∧ registered cfg t = frameLayout t then some i else none

/-- The block's only control transfer (R117): a BUILD or DECODEV that dispatches to a default variant's decoder runs that variant's frame
instruction; every other command runs as itself. -/
def route (s : State) (i : Instr) : Instr :=
  match i with
  | .build mode =>
    match inboundFrameData mode s.ibuf with
    | .error _ => .build mode
    | .ok fd => (routedFrame s.config (fd.headD 0#8) fd).getD (.build mode)
  | .decodev mode variant =>
    if modeAccepted mode then (routedFrame s.config variant s.ibuf).getD (.decodev mode variant)
    else .decodev mode variant
  | j => j

end Sys2Proof.Machine
end

