-- ==== Sys2Proof/Machine/Dispatch.lean ====
section
/-! DEFINITION. exec: one arm per row of spec/opcode_table.json. -/

namespace Sys2Proof.Machine

def exec (i : Instr) (s : State) : Host.Outcome State Fault Refusal :=
  match i with
  | .chksum => Sys2Proof.Machine.execChksum s
  | .escape => Sys2Proof.Machine.execEscape s
  | .unescape => Sys2Proof.Machine.execUnescape s
  | .validate minlen => Sys2Proof.Machine.execValidate minlen s
  | .wrap mode => Sys2Proof.Machine.execWrap mode s
  | .build mode => Sys2Proof.Machine.execBuild mode s
  | .decodev mode variant => Sys2Proof.Machine.execDecodev mode variant s
  | .construct => Sys2Proof.Machine.execConstruct s
  | .encode mode => Sys2Proof.Machine.execEncode mode s
  | .lookup table code => Sys2Proof.Machine.execLookup table code s
  | .clear => Sys2Proof.Machine.execClear s
  | .frameAtCommand body => Sys2Proof.Machine.execFrameAtCommand body s
  | .frameTransmitRequest body => Sys2Proof.Machine.execFrameTransmitRequest body s
  | .frameRemoteAtCommandRequest body => Sys2Proof.Machine.execFrameRemoteAtCommandRequest body s
  | .frameTxSms body => Sys2Proof.Machine.execFrameTxSms body s
  | .frameAtCommandResponse body => Sys2Proof.Machine.execFrameAtCommandResponse body s
  | .frameModemStatus body => Sys2Proof.Machine.execFrameModemStatus body s
  | .frameReceivePacket body => Sys2Proof.Machine.execFrameReceivePacket body s
  | .frameDeviceRequest body => Sys2Proof.Machine.execFrameDeviceRequest body s
  | .frameFrameError body => Sys2Proof.Machine.execFrameFrameError body s
  | .frameGeneric body => Sys2Proof.Machine.execFrameGeneric body s
  | .reservedOp0 => Sys2Proof.Machine.execReservedOp0 s
  | .reservedOpC => Sys2Proof.Machine.execReservedOpC s
  | .reservedOpD => Sys2Proof.Machine.execReservedOpD s
  | .reservedOpE => Sys2Proof.Machine.execReservedOpE s
  | .reservedOpF => Sys2Proof.Machine.execReservedOpF s

end Sys2Proof.Machine
end

