-- ==== Sys2Proof/Machine/HostPort.lean ====
section
/-! DEFINITION. The host's side: register, buffer and record ports (10_state.md R14 to R18, R26; 20_memory.md R42 to R45), reset (R206), and
the host-program notation with its pseudo-instructions (30_encoding.md R77, R78). -/

namespace Sys2Proof.Machine

/-! ### Reads -/

/-- What a read of register `idx` returns while BUSY = 0 (R14): CMD reads 0, reserved indices read 0. -/
def readRegister (s : State) (idx : Fin 16) : Word :=
  match idx.val with
  | 1 => statusWord s.status s.prec.valid
  | 2 => s.result
  | 3 => s.olen
  | 4 => s.ilen
  | _ => 0#32

/-- A read of this register returns an unspecified value while BUSY = 1: RESULT and OLEN (R18). STATUS, and ILEN, which R18 does not list,
stay exact (log entry 13). -/
def unspecifiedWhileBusy (idx : Fin 16) : Bool := idx.val == 2 || idx.val == 3

/-- OBUF[i], or 0x00 at i ≥ OLEN (R45). DESIGN CHOICE: the index is tested against OBUF's own length, which OLEN equals below 2^32 bytes; where
OBUF is longer OLEN wraps, and the spec does not say which of the two counts (log entry 12). -/
def obufByte (s : State) (i : Nat) : Byte := s.obuf.getD i 0#8

/-- The host receives a value. The block is unchanged: reads have no side effect (R45, R51). -/
def State.receive (s : State) (v : ReadValue) : State := { s with received := v :: s.received }

/-- The host receives a free draw (R18). -/
def State.receiveFree (s : State) (v : Nat → ReadValue) : State :=
  { s with received := v s.draws :: s.received, draws := s.draws + 1 }

/-- A register read (R14, R18). -/
def hostReadReg (idx : Fin 16) (s : State) : State :=
  if s.status.busy && unspecifiedWhileBusy idx then s.receiveFree (fun n => .word (Config.freeWord n))
  else s.receive (.word (readRegister s idx))

/-- A whole OBUF read (R45, R18): all of OBUF, also where OLEN wraps (log entry 12). -/
def hostReadObuf (s : State) : State :=
  if s.status.busy then s.receiveFree (fun n => .bytes (Config.freeBytes n)) else s.receive (.bytes s.obuf)

/-- An OBUF byte read (R45, R18). -/
def hostReadObufByte (i : Nat) (s : State) : State :=
  if s.status.busy then s.receiveFree (fun n => .byte (Config.freeByte n)) else s.receive (.byte (obufByte s i))

/-- A PREC read (R44, R18). -/
def hostReadPrec (s : State) : State :=
  if s.status.busy then s.receiveFree (fun n => .prec (Config.freePrec n)) else s.receive (.prec s.prec)

/-! ### Writes -/

/-- A CMD write: accepted while BUSY = 0, dropped while BUSY = 1 (R16). -/
def hostWriteCmd (w : Word) (s : State) : State := if s.status.busy then s.drop else s.accept w

/-- A register write (R14, R51): index 0 is CMD, every other index is read only or reserved and ignores it. -/
def hostWriteReg (idx : Fin 16) (w : Word) (s : State) : State := if idx.val = 0 then hostWriteCmd w s else s

/-- An IBUF load: more than IBUF_CAP bytes is refused (R42), while BUSY = 1 it is dropped (R43). -/
def hostLoad (b : List Byte) (s : State) : Result :=
  if s.config.ibufCap < b.length then .refused .loadTooLong
  else if s.status.busy then .next s.drop
  else .next (s.setIbuf b)

/-- A PREC record write, dropped while BUSY = 1 (R26). -/
def hostPut (r : Record) (s : State) : State := if s.status.busy then s.drop else s.putRecord r

/-! ### The bus -/

/-- The access of a register by word, of IBUF and OBUF by bytes, of PREC by record (R42, R44, R45, R49); a place has no other access. -/
def hostPlace (place : BusPlace) (access : BusAccess) (s : State) : Result :=
  match place with
  | .register idx =>
    match access with
    | .writeWord w => .next (hostWriteReg idx w s)
    | .readWord => .next (hostReadReg idx s)
    | _ => .refused .noBusPlace
  | .ibuf =>
    match access with
    | .writeBytes b => hostLoad b s
    | _ => .refused .noBusPlace
  | .obuf =>
    match access with
    | .readBytes => .next (hostReadObuf s)
    | .readByte i => .next (hostReadObufByte i s)
    | _ => .refused .noBusPlace
  | .prec =>
    match access with
    | .writeRecord r => .next (hostPut r s)
    | .readRecord => .next (hostReadPrec s)
    | _ => .refused .noBusPlace

/-- An access at a bus address is the access of the register or port that BUS_MAP places there (R52). -/
def hostBus (addr : Nat) (access : BusAccess) (s : State) : Result :=
  match busPlace s.config addr with
  | none => .refused .noBusPlace
  | some place => hostPlace place access s

/-! ### One host action -/

/-- What one action does, in a state whose `pending` no longer holds it. A WAIT that is reached is over (Step.lean keeps it while BUSY = 1);
SEND's condition reads STATUS.ERR, which is exact at any time (R18). -/
def hostAct (a : HostAction) (s : State) : Result :=
  match a with
  | .load b => hostLoad b s
  | .put r => .next (hostPut r s)
  | .writeReg idx w => .next (hostWriteReg idx w s)
  | .readReg idx => .next (hostReadReg idx s)
  | .readObuf => .next (hostReadObuf s)
  | .readObufByte i => .next (hostReadObufByte i s)
  | .readPrec => .next (hostReadPrec s)
  | .bus addr access => hostBus addr access s
  | .wait => .next s
  | .skipOnError n => .next (if s.status.err then { s with pending := s.pending.drop n } else s)
  | .resetInput => .next s.resetBlock

/-- The host takes its next action; with none left it leaves the block idle, which keeps all its state (R205). Each host action while a
command is in flight is one of the host steps LATENCY counts (R28). -/
def hostStep (s : State) : Result :=
  match s.pending with
  | [] => .next s
  | a :: rest => hostAct a { s with pending := rest, latencyLeft := s.latencyLeft - 1 }

/-- Whose turn it is while a command is in flight (log entry 1): the engine's when the drawn latency has passed, and when the host can do
nothing but poll STATUS, which has no effect on the block (R51, R211). -/
def engineTurn (s : State) : Bool :=
  match s.pending with
  | [] => true
  | .wait :: _ => true
  | _ => s.latencyLeft == 0

/-! ### Host programs (R77, R78) -/

/-- `CMD <mnemonic> …`: the CMD write of a command's word (R77, R64). Frame data is no CMD word: it is loaded. -/
def cmdAction (i : Instr) : HostAction :=
  match encode i with
  | .command w => .writeReg 0 w
  | .frameData fd => .load fd

/-- `RUN <cmd…>` (R78). -/
def runActions (i : Instr) : List HostAction := [cmdAction i, .wait]

/-- `DECODE_FRAME <hex> mode=M` (R78). -/
def decodeFrameActions (raw : List Byte) (mode : Mode) : List HostAction := .load raw :: runActions (.build mode)

/-- `SEND <record> mode=M` (R78): ENCODE runs only if STATUS.ERR = 0. -/
def sendActions (r : Record) (mode : Mode) : List HostAction :=
  .put r :: runActions .construct ++ .skipOnError 2 :: runActions (.encode mode)

/-- `FRAME <hex> mode=M` (R78). -/
def frameActions (fd : List Byte) (mode : Mode) : List HostAction := .load fd :: runActions (.wrap mode)

end Sys2Proof.Machine
end

