-- ==== Sys2Proof/Machine/Step.lean ====
section
/-! DEFINITION. One step of the block and its host, and the placing of an instruction where the next step runs it. -/

namespace Sys2Proof.Machine

/-- The instruction the engine runs (R28): the command its latched word selects, routed to the frame instruction it dispatches to, if any
(R117). -/
def fetch (s : State) : Option Instr := s.latched.map (fun w => route s (decodeCommand w))

/-- The engine completes the command in flight as one atomic transition (R28). -/
def engineStep (s : State) : Host.Outcome State Fault Refusal :=
  match fetch s with
  | none => .fault .busyWithoutCommand
  | some i => exec i s

/-- One step: the engine's whole command, or one host action. -/
def step (s : State) : Host.Outcome State Fault Refusal :=
  if s.config.wf then
    if s.status.busy && engineTurn s then engineStep s else hostStep s
  else .refused .illFormedConfiguration

/-- The state in which the next step runs the table row's instruction (`State.place`); log entry 11. -/
def State.withFetchWord (s : State) (nbits w : Nat) : State :=
  match tableEncoding nbits w with
  | none => s
  | some e => s.place e

end Sys2Proof.Machine
end

