-- ==== Sys2Proof/Safety.lean ====
section
/-! DEFINITION. What counts as a safe state of the block, and the terms the statements are written in. -/

namespace Sys2Proof.Machine

/-! ### The invariant -/

/-- The buffers and their length registers (R21, R41, R42, R46): ILEN and OLEN are the lengths, and each buffer is within its capacity. The
two byte sequences are lists of bytes, so they have one form each; this is all there is to keep. -/
def Memory.wf (s : State) : Bool :=
  decide (s.ilen = BitVec.ofNat 32 s.ibuf.length)
    && decide (s.olen = BitVec.ofNat 32 s.obuf.length)
    && decide (s.ibuf.length ≤ s.config.ibufCap)
    && decide (s.obuf.length ≤ s.config.obufCap)

/-- The (ECLASS, EDETAIL) pairs that R71 and R191 list; every other pair is never produced. -/
def legalError (eclass edetail : Nat) : Bool :=
  match eclass with
  | 0 => edetail == 0
  | 1 => edetail == 0
  | 2 => decide (1 ≤ edetail) && decide (edetail ≤ 10)
  | 3 => decide (1 ≤ edetail) && decide (edetail ≤ 7)
  | 4 => edetail == 0
  | 5 => decide (1 ≤ edetail) && decide (edetail ≤ 5)
  | _ => false

/-- STATUS and the latched command: ERR = 1 exactly when ECLASS ≠ 0 (R19), an error only when DONE (R17, R28), a legal error code (R191), a
command latched exactly while BUSY (R28), and nothing but OVR set beside BUSY (R16, R18). -/
def statusWf (s : State) : Bool :=
  (s.status.err == (s.status.eclass != 0#4))
    && (!s.status.err || s.status.done)
    && legalError s.status.eclass.toNat s.status.edetail.toNat
    && (s.status.busy == s.latched.isSome)
    && (!s.status.busy || (!s.status.done && !s.status.err && s.status.edetail == 0#8 && s.status.earg == 0#8))

/-- A record that has passed every field constraint of its variant (R150): its type is registered, it has the layout's shape, and every
value passes its check. -/
def recordOk (cfg : Config) (r : Record) : Bool :=
  match registered cfg r.type with
  | none => false
  | some L => (shapeMismatch 0 L.fields r.vals).isNone && (checkFields 0 L.fields r.vals).isNone

/-- The tags a valid record carries: the lookup of each code field, none elsewhere (R24, R25). -/
def tagsOk (cfg : Config) (r : Record) (tags : List (Option Tag)) : Bool :=
  match registered cfg r.type with
  | none => false
  | some L => decide (tags = recordTags cfg L r)

/-- PREC (R24, R150): no record means no tag and not valid; a record has one tag entry per value; a valid record has passed every field
constraint and carries its tags. -/
def precWf (cfg : Config) (p : Prec) : Bool :=
  match p.record with
  | none => p.tags.isEmpty && !p.valid
  | some r => decide (p.tags.length = r.vals.length) && (!p.valid || (recordOk cfg r && tagsOk cfg r p.tags))

/-- The invariant of the block: a legal configuration (R209), the buffers (R21), STATUS and the latched command (R19, R28), PREC (R150). -/
def Inv (s : State) : Prop :=
  s.config.wf = true ∧ Memory.wf s = true ∧ statusWf s = true ∧ precWf s.config s.prec = true

/-! ### Completion states, written out (R28, R196) -/

/-- STATUS after a completion without error: OVR and VALID aside, DONE alone is 1 (R28). -/
def okStatus (s : State) : Status :=
  { busy := false, done := true, err := false, ovr := s.status.ovr, eclass := 0#4, edetail := 0#8, earg := 0#8 }

/-- STATUS after a completion with an error (R196). -/
def errorStatus (s : State) (eclass : BitVec 4) (edetail earg : Byte) : Status :=
  { busy := false, done := true, err := true, ovr := s.status.ovr, eclass := eclass, edetail := edetail, earg := earg }

/-- The state with nothing changed but what every successful completion writes (R28, R20). -/
def afterOk (s : State) (r : Word) : State :=
  { s with status := okStatus s, result := r, latched := none, latencyLeft := 0 }

/-- The state with nothing changed but what every failing completion writes (R196). -/
def afterError (s : State) (eclass : BitVec 4) (edetail earg : Byte) : State :=
  { s with status := errorStatus s eclass edetail earg, result := 0#32, latched := none, latencyLeft := 0 }

/-- A failing UNESCAPE, VALIDATE, WRAP or ENCODE also empties OBUF (R196). -/
def afterBytesError (s : State) (eclass : BitVec 4) (edetail earg : Byte) : State :=
  { afterError s eclass edetail earg with obuf := [], olen := 0#32 }

/-- A failing BUILD or DECODEV also empties PREC (R196). -/
def afterRecordError (s : State) (eclass : BitVec 4) (edetail earg : Byte) : State :=
  { afterError s eclass edetail earg with prec := { record := none, tags := [], valid := false } }

/-- A failing CONSTRUCT keeps the record and clears valid and the tags (R196). -/
def afterConstructError (s : State) (eclass : BitVec 4) (edetail earg : Byte) : State :=
  { afterError s eclass edetail earg with
    prec :=
      { record := s.prec.record
        tags := (match s.prec.record with
          | none => []
          | some r => List.replicate r.vals.length none)
        valid := false } }

/-- A successful BUILD, DECODEV or frame instruction (R114, R120): PREC holds the valid record, RESULT is [7:0] the type, [8] HAS_CID,
[23:16] the CID (R69). `cid` is the CID value where the variant has one. -/
def afterRecord (s : State) (type : Byte) (cid : Option Byte) (vals : List FieldVal) (tags : List (Option Tag)) : State :=
  { afterOk s (BitVec.ofNat 32 (type.toNat
      + (match cid with
        | none => 0
        | some c => 256 + 65536 * c.toNat))) with
    prec := { record := some { type := type, vals := vals }, tags := tags, valid := true } }

/-- RESULT of BUILD, DECODEV and CONSTRUCT as a number (R69): [7:0] type, [8] HAS_CID, [23:16] the CID value if HAS_CID, else 0. -/
def recordResultValue (L : Layout) (r : Record) : Word :=
  BitVec.ofNat 32 (r.type.toNat
    + (match L.fields, r.vals with
      | .CID :: _, .cid n :: _ => 256 + 65536 * n
      | _, _ => 0))

/-! ### Frames of the wire, written out (R58, R60) -/

/-- `[0x7E] ++ BE16(L) ++ fd ++ [checksum(fd)]` (R58), for L = len(fd) ≤ 65535. -/
def plainFrame (fd : List Byte) : List Byte :=
  0x7E#8 :: BitVec.ofNat 8 (fd.length / 256) :: BitVec.ofNat 8 fd.length
    :: (fd ++ [BitVec.ofNat 8 (255 - (fd.map BitVec.toNat).sum % 256)])

/-- One byte escaped (R60): 0x7D and the byte XOR 0x20 for a reserved byte, the byte itself otherwise. -/
def escapeByte (x : Byte) : List Byte :=
  if x = 0x7E#8 ∨ x = 0x7D#8 ∨ x = 0x11#8 ∨ x = 0x13#8 then [0x7D#8, x ^^^ 0x20#8] else [x]

/-- The wire frame of a mode (R58, R60): in API_ESC mode every byte after the delimiter is escaped. -/
def wireFrame (fd : List Byte) (mode : Mode) : List Byte :=
  match mode, plainFrame fd with
  | .API_ESC, x :: xs => x :: xs.flatMap escapeByte
  | _, f => f

/-- `f` is canonical in `mode` (R156): in API_ESC mode, the delimiter and an escaped byte sequence. -/
def Canonical (mode : Mode) (f : List Byte) : Prop := mode = .API_ESC → ∃ u, f = 0x7E#8 :: escape u

/-! ### Field constraints, written out (R152 to R155) -/

/-- The value satisfies the constraint of its field: of the field's kind, in range, of the right size. -/
def fieldConforms : FieldSpec → FieldVal → Prop
  | .CID, .cid n => n ≤ 255
  | .INT w, .int n => n < 256 ^ w
  | .CODE _, .code n => n ≤ 255
  | .BYTES w, .bytes b => b.length = w
  | .TEXT c q, .text b => b.length ≤ c ∧ matchesPattern q b = true
  | .VAR, .var b => b.length ≤ 255
  | .PAYLOAD, .payload _ => True
  | _, _ => False

/-- PHONE (R127): an optional `+`, then one or more ASCII digits. -/
def PhoneText (s : List Byte) : Prop :=
  ∃ plus digits, s = plus ++ digits ∧ (plus = [] ∨ plus = [0x2B#8]) ∧ digits ≠ []
    ∧ ∀ d ∈ digits, 0x30 ≤ d.toNat ∧ d.toNat ≤ 0x39

/-- The CMD bits a command of this opcode reads (R64): OP, and the fields of its format. -/
def readMask (w : Word) : Word :=
  match w.toNat % 16 with
  | 4 => 0xFFFF000F#32
  | 5 | 6 | 9 => 0x0000003F#32
  | 7 => 0x0000FF3F#32
  | 10 => 0x00FFFF0F#32
  | _ => 0x0000000F#32

/-- An instruction that writes OBUF and OLEN (R46, R196). -/
def writesObuf : Instr → Bool
  | .escape | .unescape | .validate _ | .wrap _ | .encode _ => true
  | _ => false

/-- An instruction that writes PREC (R23): BUILD, DECODEV, CONSTRUCT, and the decoders they dispatch to. -/
def writesPrec : Instr → Bool
  | .build _ | .decodev _ _ | .construct => true
  | .frameAtCommand _ | .frameTransmitRequest _ | .frameRemoteAtCommandRequest _ | .frameTxSms _ | .frameAtCommandResponse _
  | .frameModemStatus _ | .frameReceivePacket _ | .frameDeviceRequest _ | .frameFrameError _ | .frameGeneric _ => true
  | _ => false

/-- A bus access that BUS_MAP serves (R52): its place has such an access, and a load is within IBUF_CAP (R42). -/
def busServes (cfg : Config) (addr : Nat) : BusAccess → Prop
  | .writeWord _ | .readWord => ∃ idx, busPlace cfg addr = some (.register idx)
  | .writeBytes b => busPlace cfg addr = some .ibuf ∧ b.length ≤ cfg.ibufCap
  | .readBytes | .readByte _ => busPlace cfg addr = some .obuf
  | .writeRecord _ | .readRecord => busPlace cfg addr = some .prec

/-- A host action the model does not refuse: a load within IBUF_CAP (R42), and a bus access that BUS_MAP serves (R52). -/
def hostActionFits (cfg : Config) : HostAction → Prop
  | .load b => b.length ≤ cfg.ibufCap
  | .bus addr access => busServes cfg addr access
  | _ => True

end Sys2Proof.Machine
end

