-- ==== Sys2Proof/Certificates/Slice0/Obligations.lean ====
section
/-! DEFINITION. The statements for the provers. Rule numbers are spec/'s; log entries are notes/assumptions/'s. -/

open Sys2Proof Sys2Proof.Machine

/-! ### Encoding -/

/-- R62, R64 to R68: no operand of a well-formed instruction is lost between its encoding and its decoding. -/
def Obligations.DecodeOfEncodeIsTheInstruction : Prop :=
  ∀ i : Instr, i.wf = true → decode (encode i) = .ok i

/-- R62, R68: frame data that decodes is the encoding of what it decodes to, and of a well-formed instruction only. -/
def Obligations.EncodeOfDecodedFrameDataIsTheFrameData : Prop :=
  ∀ (fd : List Byte) (i : Instr), decode (.frameData fd) = .ok i → encode i = .frameData fd ∧ i.wf = true

/-- R64, R65, R66, R67: for every CMD word, the opcode is word mod 16, and each format's fields are the word's digits at their places. -/
def Obligations.CommandWordFieldsByOpcode : Prop :=
  ∀ w : Word,
    (w.toNat % 16 = 0 → decode (.command w) = .ok .reservedOp0)
    ∧ (w.toNat % 16 = 1 → decode (.command w) = .ok .chksum)
    ∧ (w.toNat % 16 = 2 → decode (.command w) = .ok .escape)
    ∧ (w.toNat % 16 = 3 → decode (.command w) = .ok .unescape)
    ∧ (w.toNat % 16 = 4 → decode (.command w) = .ok (.validate (BitVec.ofNat 16 (w.toNat / 65536))))
    ∧ (∀ m : Mode, w.toNat / 16 % 4 = (match m with | .AT => 0 | .API => 1 | .API_ESC => 2 | .UNKNOWN => 3) →
        (w.toNat % 16 = 5 → decode (.command w) = .ok (.wrap m))
        ∧ (w.toNat % 16 = 6 → decode (.command w) = .ok (.build m))
        ∧ (w.toNat % 16 = 7 → decode (.command w) = .ok (.decodev m (BitVec.ofNat 8 (w.toNat / 256))))
        ∧ (w.toNat % 16 = 9 → decode (.command w) = .ok (.encode m)))
    ∧ (w.toNat % 16 = 8 → decode (.command w) = .ok .construct)
    ∧ (w.toNat % 16 = 10 →
        decode (.command w) = .ok (.lookup (BitVec.ofNat 8 (w.toNat / 256)) (BitVec.ofNat 8 (w.toNat / 65536))))
    ∧ (w.toNat % 16 = 11 → decode (.command w) = .ok .clear)
    ∧ (w.toNat % 16 = 12 → decode (.command w) = .ok .reservedOpC)
    ∧ (w.toNat % 16 = 13 → decode (.command w) = .ok .reservedOpD)
    ∧ (w.toNat % 16 = 14 → decode (.command w) = .ok .reservedOpE)
    ∧ (w.toNat % 16 = 15 → decode (.command w) = .ok .reservedOpF)

/-- R64: two words that differ only in bits the opcode's format does not read are the same command. -/
def Obligations.IgnoredCommandBitsSelectTheSameCommand : Prop :=
  ∀ v w : Word, v &&& readMask w = w &&& readMask w → decode (.command v) = decode (.command w)

/-- R79, R68, R67: the spec's example command words, a reserved opcode, a word with ignored bits set, and two discriminators. -/
def Obligations.SpecExampleWordsDecode : Prop :=
  decode (.command 0x00000001#32) = .ok .chksum
  ∧ decode (.command 0x00000002#32) = .ok .escape
  ∧ decode (.command 0x00000003#32) = .ok .unescape
  ∧ decode (.command 0x00050004#32) = .ok (.validate 5#16)
  ∧ decode (.command 0x00000025#32) = .ok (.wrap .API_ESC)
  ∧ decode (.command 0x00000016#32) = .ok (.build .API)
  ∧ decode (.command 0x00008A17#32) = .ok (.decodev .API 0x8A#8)
  ∧ decode (.command 0x00000008#32) = .ok .construct
  ∧ decode (.command 0x00000029#32) = .ok (.encode .API_ESC)
  ∧ decode (.command 0x0006040A#32) = .ok (.lookup 4#8 0x06#8)
  ∧ decode (.command 0x0000000B#32) = .ok .clear
  ∧ decode (.command 0xFFFFFFF0#32) = .ok .reservedOp0
  ∧ decode (.frameData [0x8A#8, 0x06#8]) = .ok (.frameModemStatus [0x06#8])
  ∧ decode (.frameData [0x42#8]) = .error (.unregisteredDiscriminator 0x42#8)

/-! ### A step runs the decoded instruction -/

/-- R28: while BUSY = 1, when it is the engine's turn, the step is the command that the latched word decodes to. Whose turn it is, is the
model's choice (log entry 1). -/
def Obligations.EngineStepRunsTheLatchedCommand : Prop :=
  ∀ (s : State) (w : Word) (i : Instr),
    s.config.wf = true → s.status.busy = true → s.latched = some w → engineTurn s = true →
    decode (.command w) = .ok i → step s = exec i s

/-- R117, R119, R120: a latched BUILD whose frame data, or a latched DECODEV whose IBUF, is a frame instruction of a default variant runs
that frame instruction. -/
def Obligations.EngineStepRunsTheDispatchedFrame : Prop :=
  ∀ (s : State) (w : Word) (m : Mode) (fd : List Byte) (i : Instr),
    s.config.wf = true → s.status.busy = true → s.latched = some w → engineTurn s = true →
    decode (.frameData fd) = .ok i → registered s.config (fd.headD 0#8) = frameLayout (fd.headD 0#8) →
    ((decode (.command w) = .ok (.build m) → inboundFrameData m s.ibuf = .ok fd → step s = exec i s)
      ∧ (decode (.command w) = .ok (.decodev m (fd.headD 0#8)) → (m = .API ∨ m = .API_ESC) → s.ibuf = fd →
          step s = exec i s))

/-! ### The host's side -/

/-- R16: a CMD write while BUSY = 0 is accepted; while BUSY = 1 it is dropped and only OVR changes. The latency of the accepted command is
a free draw (log entry 2). -/
def Obligations.CommandWriteIsAcceptedOrDropped : Prop :=
  ∀ (s : State) (w : Word) (rest : List HostAction),
    s.config.wf = true → s.pending = .writeReg 0 w :: rest →
    (s.status.busy = false →
      step s = .next { s with
        pending := rest
        latched := some w
        status := { busy := true, done := false, err := false, ovr := s.status.ovr, eclass := 0#4, edetail := 0#8, earg := 0#8 }
        latencyLeft := Config.latency s.draws
        draws := s.draws + 1 })
    ∧ (s.status.busy = true → 0 < s.latencyLeft →
      step s = .next { s with
        pending := rest
        latencyLeft := s.latencyLeft - 1
        status := { s.status with ovr := true } })

/-- R42, R43: a load of at most IBUF_CAP bytes replaces IBUF and ILEN while BUSY = 0, and is dropped, setting OVR, while BUSY = 1; a longer
load is refused, idle or busy (busy: log entry 18). -/
def Obligations.LoadReplacesIbufOrIsDroppedOrRefused : Prop :=
  ∀ (s : State) (b : List Byte) (rest : List HostAction),
    s.config.wf = true → s.pending = .load b :: rest →
    (s.status.busy = false → b.length ≤ s.config.ibufCap →
      step s = .next { s with
        pending := rest
        latencyLeft := s.latencyLeft - 1
        ibuf := b
        ilen := BitVec.ofNat 32 b.length })
    ∧ (s.status.busy = true → 0 < s.latencyLeft → b.length ≤ s.config.ibufCap →
      step s = .next { s with
        pending := rest
        latencyLeft := s.latencyLeft - 1
        status := { s.status with ovr := true } })
    ∧ ((s.status.busy = false ∨ 0 < s.latencyLeft) → s.config.ibufCap < b.length → step s = .refused .loadTooLong)

/-- R26: a record-port write while BUSY = 0 stores the record with every tag none and valid = 0; while BUSY = 1 it is dropped and sets OVR. -/
def Obligations.RecordWriteClearsValidOrIsDropped : Prop :=
  ∀ (s : State) (r : Record) (rest : List HostAction),
    s.config.wf = true → s.pending = .put r :: rest →
    (s.status.busy = false →
      step s = .next { s with
        pending := rest
        latencyLeft := s.latencyLeft - 1
        prec := { record := some r, tags := r.vals.map (fun _ => none), valid := false } })
    ∧ (s.status.busy = true → 0 < s.latencyLeft →
      step s = .next { s with
        pending := rest
        latencyLeft := s.latencyLeft - 1
        status := { s.status with ovr := true } })

/-- R14, R18, R51: a register read returns, while BUSY = 0, 0 for CMD and indices 5 to 15 and the register's value for 1 to 4; while BUSY =
1 the same but for RESULT and OLEN. A write to an index other than 0 is ignored, busy or not. Neither changes anything of the block. That
ILEN reads exactly while BUSY = 1 is read from the spec by inference (log entry 13). -/
def Obligations.RegisterReadsAndIgnoredWrites : Prop :=
  ∀ (s : State) (idx : Fin 16) (w : Word) (rest : List HostAction), s.config.wf = true →
    (s.pending = .readReg idx :: rest →
      (s.status.busy = false ∨ (0 < s.latencyLeft ∧ idx.val ≠ 2 ∧ idx.val ≠ 3)) →
      ∃ v : Word,
        step s = .next { s with pending := rest, latencyLeft := s.latencyLeft - 1, received := .word v :: s.received }
        ∧ (idx.val = 0 → v = 0#32)
        ∧ (idx.val = 1 → v = statusWord s.status s.prec.valid)
        ∧ (idx.val = 2 → v = s.result)
        ∧ (idx.val = 3 → v = s.olen)
        ∧ (idx.val = 4 → v = s.ilen)
        ∧ (5 ≤ idx.val → v = 0#32))
    ∧ (s.pending = .writeReg idx w :: rest → 0 < idx.val → (s.status.busy = false ∨ 0 < s.latencyLeft) →
      step s = .next { s with pending := rest, latencyLeft := s.latencyLeft - 1 })

/-- R17: the STATUS word's bits: 0 BUSY, 1 DONE, 2 ERR, 3 OVR, 7:4 ECLASS, 15:8 EDETAIL, 23:16 EARG, 24 VALID, 31:25 zero. -/
def Obligations.StatusWordHoldsEachFieldAtItsBits : Prop :=
  ∀ (st : Status) (valid : Bool),
    (statusWord st valid).toNat =
      st.busy.toNat + 2 * st.done.toNat + 4 * st.err.toNat + 8 * st.ovr.toNat
        + 16 * st.eclass.toNat + 256 * st.edetail.toNat + 65536 * st.earg.toNat + 16777216 * valid.toNat

/-- R44, R45, R18: while BUSY = 0 the host reads OBUF whole, OBUF[i] below OBUF's length and 0x00 from there on, and PREC as (record, tags,
valid); while BUSY = 1 a read of RESULT, OLEN, OBUF or PREC returns a free draw (log entry 3). The block is unchanged. That a byte read's index
is tested against OBUF's length, and not against OLEN where that has wrapped, is the model's choice (log entry 12). -/
def Obligations.BufferReadsIdleAndBusy : Prop :=
  ∀ (s : State) (a : HostAction) (rest : List HostAction) (v : ReadValue),
    s.config.wf = true → s.pending = a :: rest →
    (s.status.busy = false →
      ((a = .readObuf ∧ v = .bytes s.obuf)
        ∨ (∃ i x, a = .readObufByte i ∧ s.obuf[i]? = some x ∧ v = .byte x)
        ∨ (∃ i, a = .readObufByte i ∧ s.obuf.length ≤ i ∧ v = .byte 0x00#8)
        ∨ (a = .readPrec ∧ v = .prec s.prec)) →
      step s = .next { s with pending := rest, latencyLeft := s.latencyLeft - 1, received := v :: s.received })
    ∧ (s.status.busy = true → 0 < s.latencyLeft →
      ((a = .readReg 2 ∧ v = .word (Config.freeWord s.draws))
        ∨ (a = .readReg 3 ∧ v = .word (Config.freeWord s.draws))
        ∨ (a = .readObuf ∧ v = .bytes (Config.freeBytes s.draws))
        ∨ ((∃ i, a = .readObufByte i) ∧ v = .byte (Config.freeByte s.draws))
        ∨ (a = .readPrec ∧ v = .prec (Config.freePrec s.draws))) →
      step s = .next { s with
        pending := rest
        latencyLeft := s.latencyLeft - 1
        draws := s.draws + 1
        received := v :: s.received })

/-- R205, R77, R78: an idle block with no host action to come keeps all its state; a WAIT that finds BUSY = 0 is over and changes nothing of
the block; SEND's condition, idle or busy, changes only the host's program, whose next `n` actions are skipped when STATUS.ERR = 1. That a
host program is a list in the state, and that this condition is an action of its own, are the model's choices (log entries 1 and 21). -/
def Obligations.IdleBlockKeepsItsState : Prop :=
  ∀ s : State, s.config.wf = true →
    (s.status.busy = false → s.pending = [] → step s = .next s)
    ∧ (∀ rest, s.status.busy = false → s.pending = .wait :: rest →
      step s = .next { s with pending := rest, latencyLeft := s.latencyLeft - 1 })
    ∧ (∀ n rest, (s.status.busy = false ∨ 0 < s.latencyLeft) → s.pending = .skipOnError n :: rest →
      step s = .next { s with
        pending := if s.status.err then rest.drop n else rest
        latencyLeft := s.latencyLeft - 1 })

/-- R77, R78: the pseudo-instructions, on an idle block. RUN does to the block what its command does, and only draws one latency; DECODE_FRAME
and FRAME do what BUILD and WRAP do after the load; SEND does what CONSTRUCT does after the record write and, only if that leaves ERR = 0, what
ENCODE does then. Each leaves the rest of the host's program. The host program as a list, its collapsed WAIT and SEND's condition as an action
are the model's choices (log entries 1 and 21); the drawn latency is free (log entry 2). -/
def Obligations.PseudoInstructionsRunTheirCommands : Prop :=
  ∀ (s u : State) (rest : List HostAction), s.config.wf = true → s.status.busy = false →
    (∀ (i : Instr) (w : Word), encode i = .command w → s.pending = runActions i ++ rest → exec i s = .next u →
      Sys2Proof.core.run 3 s = .next { u with draws := s.draws + 1, pending := rest })
    ∧ (∀ (raw : List Byte) (m : Mode), raw.length ≤ s.config.ibufCap → s.pending = decodeFrameActions raw m ++ rest →
      exec (.build m) { s with ibuf := raw, ilen := BitVec.ofNat 32 raw.length } = .next u →
      Sys2Proof.core.run 4 s = .next { u with draws := s.draws + 1, pending := rest })
    ∧ (∀ (fd : List Byte) (m : Mode), fd.length ≤ s.config.ibufCap → s.pending = frameActions fd m ++ rest →
      exec (.wrap m) { s with ibuf := fd, ilen := BitVec.ofNat 32 fd.length } = .next u →
      Sys2Proof.core.run 4 s = .next { u with draws := s.draws + 1, pending := rest })
    ∧ (∀ (r : Record) (m : Mode), s.pending = sendActions r m ++ rest →
      exec .construct { s with prec := { record := some r, tags := r.vals.map (fun _ => none), valid := false } } = .next u →
      (u.status.err = true → Sys2Proof.core.run 5 s = .next { u with draws := s.draws + 1, pending := rest })
      ∧ (u.status.err = false → ∀ v, exec (.encode m) u = .next v →
        Sys2Proof.core.run 8 s = .next { v with draws := s.draws + 2, pending := rest }))

/-- R52: a host access at a bus address is the access of the register or port that BUS_MAP places there; an address with no place is refused.
BUS_MAP is the platform's parameter, any map of a legal configuration; that an address has one place is the model's choice (log entry 23). -/
def Obligations.BusAccessIsTheAccessOfItsPlace : Prop :=
  ∀ (s : State) (addr : Nat) (rest : List HostAction), s.config.wf = true → (s.status.busy = false ∨ 0 < s.latencyLeft) →
    (∀ idx : Fin 16, (addr, .register idx) ∈ s.config.busMap →
      (∀ w : Word, s.pending = .bus addr (.writeWord w) :: rest → step s = step { s with pending := .writeReg idx w :: rest })
      ∧ (s.pending = .bus addr .readWord :: rest → step s = step { s with pending := .readReg idx :: rest }))
    ∧ (∀ b : List Byte, (addr, .ibuf) ∈ s.config.busMap → s.pending = .bus addr (.writeBytes b) :: rest →
      step s = step { s with pending := .load b :: rest })
    ∧ ((addr, .obuf) ∈ s.config.busMap →
      (s.pending = .bus addr .readBytes :: rest → step s = step { s with pending := .readObuf :: rest })
      ∧ (∀ i : Nat, s.pending = .bus addr (.readByte i) :: rest → step s = step { s with pending := .readObufByte i :: rest }))
    ∧ ((addr, .prec) ∈ s.config.busMap →
      (∀ r : Record, s.pending = .bus addr (.writeRecord r) :: rest → step s = step { s with pending := .put r :: rest })
      ∧ (s.pending = .bus addr .readRecord :: rest → step s = step { s with pending := .readPrec :: rest }))
    ∧ (∀ access : BusAccess, (∀ p, (addr, p) ∉ s.config.busMap) → s.pending = .bus addr access :: rest →
      step s = .refused .noBusPlace)

/-! ### Reset -/

/-- R30, R206: the reset values. The configuration loaded is the model's default (log entry 6). -/
def Obligations.ResetLeavesTheResetValues : Prop :=
  statusWord State.reset.status State.reset.prec.valid = 0x00000000#32
  ∧ State.reset.result = 0#32
  ∧ State.reset.olen = 0#32
  ∧ State.reset.ilen = 0#32
  ∧ State.reset.latched = none
  ∧ State.reset.ibuf = []
  ∧ State.reset.obuf = []
  ∧ State.reset.prec = { record := none, tags := [], valid := false }
  ∧ State.reset.config = defaultConfig

/-- R206, R207: a reset, busy or not, gives every piece of the block its reset value and abandons the command in flight; a reset after the
engine's step gives the same block as one before it; two resets are one. That the host's program, what it has read and the draw counter stay
is the model's choice, no rule of the spec (log entry 16); whose turn it is, log entry 1. -/
def Obligations.ResetAbandonsTheCommandAndIsIdempotent : Prop :=
  (∀ (s : State) (rest : List HostAction),
    s.config.wf = true → s.pending = .resetInput :: rest → (s.status.busy = false ∨ 0 < s.latencyLeft) →
    step s = .next { State.resetWith s.config with draws := s.draws, pending := rest, received := s.received })
  ∧ (∀ (s t : State) (i : Instr), exec i s = .next t → t.resetBlock = s.resetBlock)
  ∧ (∀ s : State, s.resetBlock.resetBlock = s.resetBlock)

/-- R209, R6, R111, R122, R171, R27, R56: a configuration is legal when its capacities are at least R6's, every layout is well formed and
stands under its own discriminator, one per discriminator, and CODETAB holds MODEM_STATUS 0x06; it is loaded exactly when it is legal; no step
changes it. The rising orders of the lists (and so one entry per key) are log entry 22's, one place per bus address is log entry 23's, and that
every step refuses an illegal configuration is log entry 17's: choices of the model. -/
def Obligations.OnlyALegalConfigurationIsLoaded : Prop :=
  (∀ cfg : Config, cfg.wf = true → powerOn cfg = .next (State.resetWith cfg))
  ∧ (∀ cfg : Config, cfg.wf = false → powerOn cfg = .refused .illFormedConfiguration)
  ∧ (∀ s : State, s.config.wf = false → step s = .refused .illFormedConfiguration)
  ∧ (∀ s t : State, step s = .next t → t.config = s.config)
  ∧ (∀ cfg : Config, cfg.wf = true ↔
      131077 ≤ cfg.ibufCap ∧ 2 * cfg.ibufCap ≤ cfg.obufCap
      ∧ (∀ e ∈ cfg.registry, e.2.type = e.1 ∧ layoutWf e.2 = true)
      ∧ cfg.registry.Pairwise (fun e e' => e.1.toNat < e'.1.toNat)
      ∧ (4#8, 0x06#8) ∈ cfg.codetab
      ∧ cfg.codetab.Pairwise (fun e e' => 256 * e.1.toNat + e.2.toNat < 256 * e'.1.toNat + e'.2.toNat)
      ∧ cfg.busMap.Pairwise (fun e e' => e.1 < e'.1))

/-- R122: what well-formedness of a layout says, index by index: the conditions (1) to (7) and the width limits of the field kinds. -/
def Obligations.LayoutWellFormednessIndexByIndex : Prop :=
  ∀ L : Layout, layoutWf L = true ↔
    (∀ i : Nat, L.fields[i]? = some .CID → i = 0)
    ∧ (∀ (i j : Nat) (f : FieldSpec), i < j → L.fields[i]? = some .VAR → L.fields[j]? = some f → f = .VAR ∨ f = .PAYLOAD)
    ∧ (∀ i j : Nat, L.fields[i]? = some .VAR → L.fields[j]? = some .PAYLOAD → i < j)
    ∧ (∀ i : Nat, L.fields[i]? = some .PAYLOAD → i + 1 = L.fields.length)
    ∧ L.fields.length ≤ 255
    ∧ minlen L ≤ 65539
    ∧ (∀ t : Byte, FieldSpec.CODE t ∈ L.fields → t.toNat ≤ 5 ∨ (8 ≤ t.toNat ∧ t.toNat ≤ 12))
    ∧ (∀ w : Nat, FieldSpec.INT w ∈ L.fields → 1 ≤ w ∧ w ≤ 8)
    ∧ (∀ w : Nat, FieldSpec.BYTES w ∈ L.fields → 1 ≤ w)
    ∧ (∀ (c : Nat) (q : Pattern), FieldSpec.TEXT c q ∈ L.fields → 1 ≤ c)

/-- R211, R28: from every state of the invariant in which a command is in flight, and with no host action to come that is refused (a load above
IBUF_CAP, a bus access that BUS_MAP does not serve), BUSY = 0 within
one step more than the drawn number of host steps. That number is free (log entry 2). -/
def Obligations.AcceptedCommandCompletes : Prop :=
  ∀ s : State, Inv s → s.status.busy = true → (∀ a ∈ s.pending, hostActionFits s.config a) →
    ∃ (n : Nat) (t : State), n ≤ s.latencyLeft + 1 ∧ Sys2Proof.core.run n s = .next t ∧ t.status.busy = false

/-! ### Frame codec -/

/-- R84, R80: CHKSUM, for every IBUF: RESULT is 0xFF − (sum mod 256), and nothing but the completion changes. -/
def Obligations.ChecksumCommandWritesResult : Prop :=
  ∀ s : State, exec .chksum s = .next (afterOk s (BitVec.ofNat 32 (255 - (s.ibuf.map BitVec.toNat).sum % 256)))

/-- R81: the checksum law, for every byte sequence: the sum of its bytes and its checksum is 0xFF modulo 256. -/
def Obligations.SumAndChecksumMakeFF : Prop :=
  ∀ b : List Byte, ((b.map BitVec.toNat).sum + (checksum b).toNat) % 256 = 0xFF

/-- R86, R82: ESCAPE, for every IBUF: OBUF is IBUF with every reserved byte replaced by its pair, OLEN its length, RESULT 0. -/
def Obligations.EscapeCommandWritesObuf : Prop :=
  ∀ s : State, exec .escape s = .next { afterOk s 0#32 with
    obuf := s.ibuf.flatMap escapeByte
    olen := BitVec.ofNat 32 (s.ibuf.flatMap escapeByte).length }

/-- R83: the four properties of escape. -/
def Obligations.EscapeIsInvertibleAndHidesReservedBytes : Prop :=
  (∀ b : List Byte, (escape b).length = b.length + b.countP (fun x => x == 0x7E#8 || x == 0x7D#8 || x == 0x11#8 || x == 0x13#8)
      ∧ b.length ≤ (escape b).length ∧ (escape b).length ≤ 2 * b.length)
  ∧ (∀ b : List Byte, 0x7E#8 ∉ escape b ∧ 0x11#8 ∉ escape b ∧ 0x13#8 ∉ escape b
      ∧ ∀ i : Nat, (escape b)[i]? = some 0x7D#8 →
          ∃ y, (escape b)[i + 1]? = some y ∧ (y = 0x5E#8 ∨ y = 0x5D#8 ∨ y = 0x31#8 ∨ y = 0x33#8))
  ∧ (∀ b : List Byte, unescape (escape b) = .ok b)
  ∧ (∀ (fd : List Byte) (m : Mode), (wrapFrame fd m)[0]? = some 0x7E#8)
  ∧ (∀ b : List Byte, ∃ out, escape (0x7E#8 :: b) = 0x7D#8 :: 0x5E#8 :: out)

/-- R85, R87, R88: UNESCAPE, for every IBUF. IBUF is a sequence of units, each a byte other than 0x7D or 0x7D and any byte, either to its
end, and then OBUF holds the unit bytes, the second byte of a pair XORed with 0x20; or up to one last 0x7D, and then the command fails with
DANGLING_ESCAPE and empties OBUF. `(false, x)` is a byte unit and `(true, y)` a pair unit. -/
def Obligations.UnescapeCommandCollapsesPairs : Prop :=
  ∀ s : State, ∃ units : List (Bool × Byte),
    (∀ u ∈ units, u.1 = false → u.2 ≠ 0x7D#8)
    ∧ ((s.ibuf = units.flatMap (fun u => if u.1 then [0x7D#8, u.2] else [u.2])
          ∧ exec .unescape s = .next { afterOk s 0#32 with
              obuf := units.map (fun u => if u.1 then u.2 ^^^ 0x20#8 else u.2)
              olen := BitVec.ofNat 32 units.length })
        ∨ (s.ibuf = units.flatMap (fun u => if u.1 then [0x7D#8, u.2] else [u.2]) ++ [0x7D#8]
          ∧ exec .unescape s = .next (afterBytesError s 2#4 0x09#8 0x00#8)))

/-- R90, R89, R58: VALIDATE on any plain frame of at least MINLEN bytes gives its frame data in OBUF and its length in RESULT. -/
def Obligations.ValidateAcceptsEveryEnvelope : Prop :=
  ∀ (s : State) (minlen : BitVec 16) (fd : List Byte),
    fd.length ≤ 65535 → minlen.toNat ≤ fd.length + 4 → s.ibuf = plainFrame fd →
    exec (.validate minlen) s = .next { afterOk s (BitVec.ofNat 32 fd.length) with
      obuf := fd
      olen := BitVec.ofNat 32 fd.length }

/-- R89, R90, R193: VALIDATE reports the first of the checks (a) to (d) that fails, with MINLEN below 4 acting as 4; when none fails IBUF is
the plain frame of some frame data. -/
def Obligations.ValidateReportsTheFirstFailingCheck : Prop :=
  ∀ (s : State) (minlen : BitVec 16),
    ((s.ibuf.length < minlen.toNat ∨ s.ibuf.length < 4) →
        exec (.validate minlen) s = .next (afterBytesError s 2#4 0x01#8 0#8))
    ∧ (∀ d h l rest, s.ibuf = d :: h :: l :: rest → minlen.toNat ≤ s.ibuf.length → 1 ≤ rest.length →
        (d ≠ 0x7E#8 → exec (.validate minlen) s = .next (afterBytesError s 2#4 0x02#8 0#8))
        ∧ (d = 0x7E#8 → 256 * h.toNat + l.toNat ≠ rest.length - 1 →
            exec (.validate minlen) s = .next (afterBytesError s 2#4 0x03#8 0#8))
        ∧ (∀ fd c, rest = fd ++ [c] → d = 0x7E#8 → 256 * h.toNat + l.toNat = fd.length →
            (fd.map BitVec.toNat).sum % 256 + c.toNat ≠ 0xFF →
            exec (.validate minlen) s = .next (afterBytesError s 2#4 0x04#8 0#8))
        ∧ (∀ fd c, rest = fd ++ [c] → d = 0x7E#8 → 256 * h.toNat + l.toNat = fd.length →
            (fd.map BitVec.toNat).sum % 256 + c.toNat = 0xFF → s.ibuf = plainFrame fd))

/-- R94: replacing the length field of an accepted frame by any other value fails with LENGTH_MISMATCH. -/
def Obligations.CorruptedLengthFieldFails : Prop :=
  ∀ (f fd : List Byte) (m len : Nat),
    envelope f m = .ok fd → len ≤ 65535 → len ≠ fd.length →
    envelope (f.take 1 ++ [BitVec.ofNat 8 (len / 256), BitVec.ofNat 8 len] ++ f.drop 3) m = .error .lengthMismatch

/-- R95: replacing the checksum byte, or any one frame-data byte, of an accepted frame by another value fails with CHECKSUM_MISMATCH. -/
def Obligations.CorruptedChecksumOrDataByteFails : Prop :=
  ∀ (f fd : List Byte) (m k : Nat) (x : Byte),
    envelope f m = .ok fd → 3 ≤ k → k < f.length → f[k]? ≠ some x →
    envelope (f.set k x) m = .error .checksumMismatch

/-- R92, R91, R58, R60, R193: WRAP, for MODE API or API_ESC: with at most 65535 bytes of IBUF, OBUF is the wire frame of IBUF in that mode;
with more, the command fails with OPERAND_TOO_LONG and empties OBUF. -/
def Obligations.WrapCommandBuildsTheFrame : Prop :=
  ∀ (s : State) (m : Mode), (m = .API ∨ m = .API_ESC) →
    (s.ibuf.length ≤ 65535 →
      exec (.wrap m) s = .next { afterOk s 0#32 with
        obuf := wireFrame s.ibuf m
        olen := BitVec.ofNat 32 (wireFrame s.ibuf m).length })
    ∧ (65535 < s.ibuf.length → exec (.wrap m) s = .next (afterBytesError s 5#4 0x03#8 0#8))

/-- R113, R72: every command that reads MODE fails with OMU, EARG the MODE value, in mode AT or UNKNOWN, whatever IBUF and PREC hold; WRAP
and ENCODE empty OBUF, BUILD and DECODEV empty PREC (R196). -/
def Obligations.UnsupportedModeIsRejectedFirst : Prop :=
  ∀ (s : State) (m : Mode) (v arg : Byte), (m = .AT ∧ arg = 0#8) ∨ (m = .UNKNOWN ∧ arg = 3#8) →
    exec (.wrap m) s = .next (afterBytesError s 1#4 0x00#8 arg)
    ∧ exec (.encode m) s = .next (afterBytesError s 1#4 0x00#8 arg)
    ∧ exec (.build m) s = .next (afterRecordError s 1#4 0x00#8 arg)
    ∧ exec (.decodev m v) s = .next (afterRecordError s 1#4 0x00#8 arg)

/-! ### Router -/

/-- R114, R115, R116, R117, R119: BUILD, in either mode, on the wire frame of frame data that its registered variant decodes, leaves the
decoded record valid in PREC and its type, HAS_CID and CID in RESULT. -/
def Obligations.BuildDecodesTheWireFrame : Prop :=
  ∀ (s : State) (m : Mode) (fd : List Byte) (L : Layout) (r : Record) (tags : List (Option Tag)),
    (m = .API ∨ m = .API_ESC) → fd.length ≤ 65535 → s.ibuf = wireFrame fd m →
    registered s.config (fd.headD 0#8) = some L → decodeLayout s.config L fd = .ok (r, tags) →
    exec (.build m) s = .next { afterOk s (recordResultValue L r) with
      prec := { record := some r, tags := tags, valid := true } }

/-- R114, R115, R118, R193: BUILD, once the mode is accepted, reports the first of DANGLING_ESCAPE, the envelope checks with minimum 5, NotSupported
naming the discriminator, and the decoder's error; each leaves PREC empty. In API_ESC mode byte 0 is never unescaped: an IBUF whose byte 0 is
0x7D, of at least 5 bytes after the unescape of the rest, fails with BAD_DELIMITER. -/
def Obligations.BuildReportsTheFirstFailingStage : Prop :=
  ∀ (s : State) (m : Mode), (m = .API ∨ m = .API_ESC) →
    (∀ e, inboundUnescape m s.ibuf = .error e →
      e = .danglingEscape ∧ exec (.build m) s = .next (afterRecordError s 2#4 0x09#8 0#8))
    ∧ (∀ raw, inboundUnescape m s.ibuf = .ok raw →
      (∀ e, envelope raw 5 = .error e →
        exec (.build m) s = .next (afterRecordError s 2#4 e.edetail 0#8) ∧ 1 ≤ e.edetail.toNat ∧ e.edetail.toNat ≤ 4)
      ∧ (∀ t body, envelope raw 5 = .ok (t :: body) →
        (registered s.config t = none → exec (.build m) s = .next (afterRecordError s 4#4 0x00#8 t))
        ∧ (∀ L e, registered s.config t = some L → decodeLayout s.config L (t :: body) = .error e →
            exec (.build m) s = .next (afterRecordError s 2#4 e.edetail e.earg)
            ∧ (L.type = t → e.edetail = 0x05#8 ∨ e.edetail = 0x07#8 ∨ e.edetail = 0x08#8 ∨ e.edetail = 0x0A#8))))
    ∧ (∀ xs out, s.ibuf = 0x7D#8 :: xs → unescape xs = .ok out → 4 ≤ out.length →
        exec (.build .API_ESC) s = .next (afterRecordError s 2#4 0x02#8 0#8))

/-- R120, R125, R193: DECODEV, once the mode is accepted: NotSupported with EARG = VARIANT; then VARIANT_TOO_SHORT; then WRONG_DISCRIMINATOR,
whatever the fields hold; then whatever error the fields of the layout of VARIANT give, VAR_FIELD_OVERFLOW and FIELD_INVALID naming the
field, TRAILING_BYTES with EARG 0; and on frame data that the layout decodes, the decoded record valid in PREC. Every error leaves PREC empty. -/
def Obligations.DecodevDecodesOrReportsTheFirstFailingCheck : Prop :=
  ∀ (s : State) (m : Mode) (v : Byte), (m = .API ∨ m = .API_ESC) →
    (registered s.config v = none → exec (.decodev m v) s = .next (afterRecordError s 4#4 0x00#8 v))
    ∧ (∀ L, registered s.config v = some L →
        (s.ibuf.length + 4 < minlen L → exec (.decodev m v) s = .next (afterRecordError s 2#4 0x05#8 0#8))
        ∧ (∀ x xs, s.ibuf = x :: xs → minlen L ≤ s.ibuf.length + 4 → x ≠ L.type →
            exec (.decodev m v) s = .next (afterRecordError s 2#4 0x06#8 0#8))
        ∧ (∀ e, decodeLayout s.config L s.ibuf = .error e →
            exec (.decodev m v) s = .next (afterRecordError s 2#4 e.edetail e.earg)
            ∧ (minlen L ≤ s.ibuf.length + 4 → s.ibuf.head? = some L.type →
              (∃ i < L.fields.length, L.fields[i]? = some .VAR ∧ e.edetail = 0x07#8 ∧ e.earg = BitVec.ofNat 8 i)
              ∨ (∃ i < L.fields.length, (∃ c q, L.fields[i]? = some (.TEXT c q)) ∧ e.edetail = 0x0A#8 ∧ e.earg = BitVec.ofNat 8 i)
              ∨ ((∀ f ∈ L.fields, f ≠ .PAYLOAD) ∧ e.edetail = 0x08#8 ∧ e.earg = 0#8)))
        ∧ (∀ r tags, decodeLayout s.config L s.ibuf = .ok (r, tags) →
            exec (.decodev m v) s = .next { afterOk s (recordResultValue L r) with
              prec := { record := some r, tags := tags, valid := true } }))

/-- R121: BUILD and DECODEV with the frame data's own discriminator give the same PREC, RESULT and error. -/
def Obligations.BuildEqualsEnvelopeThenDecodev : Prop :=
  ∀ (s : State) (m : Mode) (b raw fd : List Byte), (m = .API ∨ m = .API_ESC) →
    inboundUnescape m b = .ok raw → envelope raw 5 = .ok fd →
    ∃ t u : State, exec (.build m) { s with ibuf := b } = .next t
      ∧ exec (.decodev m (fd.headD 0#8)) { s with ibuf := fd } = .next u
      ∧ t.prec = u.prec ∧ t.result = u.result ∧ t.status = u.status

/-! ### Decoder bank: the ten default layouts (log entry 7: their details are the spec's general knowledge) -/

/-- R130, R134, R135, R138, R126: 0x08 and 0x88: CID, a 2-byte AT command name, for 0x88 a status code resolved through table 1, and the
payload; 0x8A and 0xFE: one code, kept raw, its tag from table 4 (degrade) and table 9 (absent). -/
def Obligations.AtCommandAndStatusFramesDecode : Prop :=
  ∀ (s : State) (cid c1 c2 st c : Byte) (data : List Byte),
    exec (.frameAtCommand (cid :: c1 :: c2 :: data)) s =
      .next (afterRecord s 0x08#8 (some cid) [.cid cid.toNat, .bytes [c1, c2], .payload data] [none, none, none])
    ∧ exec (.frameAtCommandResponse (cid :: c1 :: c2 :: st :: data)) s =
      .next (afterRecord s 0x88#8 (some cid) [.cid cid.toNat, .bytes [c1, c2], .code st.toNat, .payload data]
        [none, none, some (lookupTag s.config 1#8 st), none])
    ∧ exec (.frameModemStatus [c]) s =
      .next (afterRecord s 0x8A#8 none [.code c.toNat]
        [some (if (4#8, c) ∈ s.config.codetab then .KNOWN else .UNKNOWN)])
    ∧ exec (.frameFrameError [c]) s =
      .next (afterRecord s 0xFE#8 none [.code c.toNat]
        [some (if (9#8, c) ∈ s.config.codetab then .KNOWN else .ABSENT)])

/-- R131, R132, R136: 0x10, 0x17 and 0x90: 8- and 2-byte addresses in wire order, one-byte integers, a 2-byte command name, the payload. -/
def Obligations.AddressedFramesDecode : Prop :=
  ∀ (s : State) (cid x y c1 c2 : Byte) (a64 a16 data : List Byte), a64.length = 8 → a16.length = 2 →
    exec (.frameTransmitRequest (cid :: (a64 ++ a16 ++ x :: y :: data))) s =
      .next (afterRecord s 0x10#8 (some cid)
        [.cid cid.toNat, .bytes a64, .bytes a16, .int x.toNat, .int y.toNat, .payload data] [none, none, none, none, none, none])
    ∧ exec (.frameRemoteAtCommandRequest (cid :: (a64 ++ a16 ++ x :: c1 :: c2 :: data))) s =
      .next (afterRecord s 0x17#8 (some cid)
        [.cid cid.toNat, .bytes a64, .bytes a16, .int x.toNat, .bytes [c1, c2], .payload data] [none, none, none, none, none, none])
    ∧ exec (.frameReceivePacket (a64 ++ a16 ++ x :: data)) s =
      .next (afterRecord s 0x90#8 none [.bytes a64, .bytes a16, .int x.toNat, .payload data] [none, none, none, none])

/-- R133, R127: 0x1F: CID, options, a 20-byte phone slot zero-padded on the right, the payload. The PHONE pattern is the spec's general
knowledge (log entry 8). -/
def Obligations.TxSmsFrameDecodes : Prop :=
  ∀ (s : State) (cid opts : Byte) (phone data : List Byte), PhoneText phone → phone.length ≤ 20 →
    exec (.frameTxSms (cid :: opts :: (phone ++ List.replicate (20 - phone.length) 0x00#8 ++ data))) s =
      .next (afterRecord s 0x1F#8 (some cid) [.cid cid.toNat, .int opts.toNat, .text phone, .payload data]
        [none, none, none, none])

/-- R137, R139, R129: 0xB9: three integers, a length-prefixed target, the data; 0xFF: the payload, which may be empty. -/
def Obligations.DeviceRequestAndGenericFramesDecode : Prop :=
  ∀ (s : State) (a b c : Byte) (target data : List Byte), target.length ≤ 255 →
    exec (.frameDeviceRequest (a :: b :: c :: BitVec.ofNat 8 target.length :: (target ++ data))) s =
      .next (afterRecord s 0xB9#8 none [.int a.toNat, .int b.toNat, .int c.toNat, .var target, .payload data]
        [none, none, none, none, none])
    ∧ exec (.frameGeneric data) s = .next (afterRecord s 0xFF#8 none [.payload data] [none])

/-- R123, R125, R127, R130 to R138: the decoder errors of the default layouts. Frame data below the variant's minimum length fails with
VARIANT_TOO_SHORT (the whole-frame minima are 8, 18, 19, 27, 9, 6, 16, 9 and 6; 0xFF's is 5, which its discriminator alone reaches); bytes
after a one-code layout are TRAILING_BYTES; a target length past the end is VAR_FIELD_OVERFLOW with EARG 3; a phone slot whose content, what
stands before its trailing zeros, is not an optional `+` and one or more digits (empty, a lone `+`, a byte that is no digit after the first, a
0x00 inside) is FIELD_INVALID with EARG 2. -/
def Obligations.FrameDecodersReportErrors : Prop :=
  (∀ (s : State) (i : Instr) (body : List Byte),
    ((i = .frameAtCommand body ∧ body.length + 5 < 8)
      ∨ (i = .frameTransmitRequest body ∧ body.length + 5 < 18)
      ∨ (i = .frameRemoteAtCommandRequest body ∧ body.length + 5 < 19)
      ∨ (i = .frameTxSms body ∧ body.length + 5 < 27)
      ∨ (i = .frameAtCommandResponse body ∧ body.length + 5 < 9)
      ∨ (i = .frameModemStatus body ∧ body.length + 5 < 6)
      ∨ (i = .frameReceivePacket body ∧ body.length + 5 < 16)
      ∨ (i = .frameDeviceRequest body ∧ body.length + 5 < 9)
      ∨ (i = .frameFrameError body ∧ body.length + 5 < 6)) →
    exec i s = .next (afterRecordError s 2#4 0x05#8 0#8))
  ∧ (∀ (s : State) (a b c k : Byte) (rest : List Byte),
    exec (.frameModemStatus (a :: b :: rest)) s = .next (afterRecordError s 2#4 0x08#8 0#8)
    ∧ exec (.frameFrameError (a :: b :: rest)) s = .next (afterRecordError s 2#4 0x08#8 0#8)
    ∧ (rest.length < k.toNat →
        exec (.frameDeviceRequest (a :: b :: c :: k :: rest)) s = .next (afterRecordError s 2#4 0x07#8 3#8))
    ∧ (∀ (content : List Byte) (zeros : Nat), content.length + zeros = 20 → content.getLast? ≠ some 0x00#8 → ¬ PhoneText content →
        exec (.frameTxSms (a :: b :: (content ++ List.replicate zeros 0x00#8 ++ rest))) s =
          .next (afterRecordError s 2#4 0x0A#8 2#8)))

/-- R140: for every layout of a legal configuration: the plain frame of a record that passes CONSTRUCT and whose variable fields and payload
are empty has exactly MINLEN bytes, and BUILD accepts it; one byte less of frame data fails, with TOO_SHORT when MINLEN = 5 and
VARIANT_TOO_SHORT otherwise. -/
def Obligations.BuildAcceptsExactlyFromMinimumLength : Prop :=
  ∀ (s : State) (L : Layout), s.config.wf = true → registered s.config L.type = some L →
    (∀ (r : Record) (fd : List Byte), r.type = L.type → List.Forall₂ fieldConforms L.fields r.vals →
      (∀ b, FieldVal.var b ∈ r.vals ∨ FieldVal.payload b ∈ r.vals → b = []) →
      encodeLayout L r = some fd → s.ibuf = plainFrame fd →
      s.ibuf.length = minlen L
        ∧ ∃ t, exec (.build .API) s = .next t ∧ t.prec.record = some r ∧ t.prec.valid = true ∧ t.status.err = false)
    ∧ (∀ fd : List Byte, fd.length + 5 = minlen L → (5 < minlen L → fd.head? = some L.type) → s.ibuf = plainFrame fd →
      exec (.build .API) s = .next (afterRecordError s 2#4 (if minlen L = 5 then 0x01#8 else 0x05#8) 0#8))

/-- R141: decode of encode is the record, for every record that passes CONSTRUCT; encode of decode is the frame data, for all frame data
that decodes. -/
def Obligations.FrameDataRoundTrip : Prop :=
  ∀ (cfg : Config) (L : Layout), layoutWf L = true →
    (∀ r : Record, r.type = L.type → List.Forall₂ fieldConforms L.fields r.vals →
      ∃ fd tags, encodeLayout L r = some fd ∧ decodeLayout cfg L fd = .ok (r, tags))
    ∧ (∀ (fd : List Byte) (r : Record) (tags : List (Option Tag)),
      decodeLayout cfg L fd = .ok (r, tags) → encodeLayout L r = some fd)

/-- R178, R126: the contents of CODETAB never decide whether frame data decodes, nor to which record; only the tags depend on them. -/
def Obligations.UnknownCodesNeverFailADecode : Prop :=
  ∀ (cfg : Config) (codetab : List (Byte × Byte)) (L : Layout) (fd : List Byte),
    (∃ e, decodeLayout cfg L fd = .error e ∧ decodeLayout { cfg with codetab := codetab } L fd = .error e)
    ∨ (∃ r tags tags', decodeLayout cfg L fd = .ok (r, tags)
        ∧ decodeLayout { cfg with codetab := codetab } L fd = .ok (r, tags') ∧ tags.map Option.isSome = tags'.map Option.isSome)

/-! ### Construction and encoding -/

/-- R151 to R155: CONSTRUCT on a record of a registered variant whose every value satisfies its field's constraint and whose frame data is at
most 65535 bytes makes it valid, tags its code fields by lookup and reports type, HAS_CID and CID. -/
def Obligations.ConstructAcceptsConformingRecords : Prop :=
  ∀ (s : State) (r : Record) (L : Layout) (fd : List Byte),
    s.prec.record = some r → registered s.config r.type = some L → List.Forall₂ fieldConforms L.fields r.vals →
    encodeLayout L r = some fd → fd.length ≤ 65535 →
    exec .construct s = .next { afterOk s (recordResultValue L r) with
      prec :=
        { record := some r
          tags := List.zipWith (fun f v => match f, v with
            | .CODE t, .code n => some (lookupTag s.config t (BitVec.ofNat 8 n))
            | _, _ => none) L.fields r.vals
          valid := true } }

/-- R151, R153, R193: CONSTRUCT's first three checks: NO_RECORD; NotSupported naming the type; SHAPE at the first index where a field or a
value is missing or the kinds differ, before any value is looked at. -/
def Obligations.ConstructChecksRecordTypeAndShapeFirst : Prop :=
  ∀ s : State,
    (s.prec.record = none → exec .construct s = .next (afterConstructError s 5#4 0x05#8 0#8))
    ∧ (∀ r, s.prec.record = some r → registered s.config r.type = none →
        exec .construct s = .next (afterConstructError s 4#4 0x00#8 r.type))
    ∧ (∀ r L i, s.prec.record = some r → registered s.config r.type = some L →
        (∀ j < i, ∃ f v, L.fields[j]? = some f ∧ r.vals[j]? = some v ∧ v.kind = specKind f) →
        (L.fields[i]?).map specKind ≠ (r.vals[i]?).map FieldVal.kind →
        exec .construct s = .next (afterConstructError s 3#4 0x07#8 (BitVec.ofNat 8 i)))

/-- R152 to R155, R193: CONSTRUCT on a record of the right shape reports the first value that violates its field's constraint: RANGE for an
integer, SIZE for bytes, CAPACITY before PATTERN for text, VAR_TOO_LONG for a variable field, with EARG the field index; and when every value
conforms but the frame data is longer than 65535 bytes, FRAME_TOO_LONG with EARG 0. -/
def Obligations.ConstructReportsTheFirstBadField : Prop :=
  ∀ (s : State) (r : Record) (L : Layout),
    s.prec.record = some r → registered s.config r.type = some L →
    (∀ (i : Nat) (f : FieldSpec) (v : FieldVal) (detail : Byte),
      r.vals.map FieldVal.kind = L.fields.map specKind →
      (∀ j < i, ∃ g u, L.fields[j]? = some g ∧ r.vals[j]? = some u ∧ fieldConforms g u) →
      L.fields[i]? = some f → r.vals[i]? = some v →
      ((∃ n, f = .CID ∧ v = .cid n ∧ 255 < n ∧ detail = 0x01#8)
        ∨ (∃ w n, f = .INT w ∧ v = .int n ∧ 256 ^ w ≤ n ∧ detail = 0x01#8)
        ∨ (∃ t n, f = .CODE t ∧ v = .code n ∧ 255 < n ∧ detail = 0x01#8)
        ∨ (∃ w b, f = .BYTES w ∧ v = .bytes b ∧ b.length ≠ w ∧ detail = 0x02#8)
        ∨ (∃ c q b, f = .TEXT c q ∧ v = .text b ∧ c < b.length ∧ detail = 0x03#8)
        ∨ (∃ c q b, f = .TEXT c q ∧ v = .text b ∧ b.length ≤ c ∧ matchesPattern q b = false ∧ detail = 0x04#8)
        ∨ (∃ b, f = .VAR ∧ v = .var b ∧ 255 < b.length ∧ detail = 0x05#8)) →
      exec .construct s = .next (afterConstructError s 3#4 detail (BitVec.ofNat 8 i)))
    ∧ (∀ fd : List Byte, List.Forall₂ fieldConforms L.fields r.vals → encodeLayout L r = some fd → 65535 < fd.length →
      exec .construct s = .next (afterConstructError s 3#4 0x06#8 0#8))

/-- R160, R91, R128, R215: ENCODE, for MODE API or API_ESC: a valid record of a registered variant with at most 65535 bytes of frame data
puts its wire frame in OBUF and leaves PREC; while PREC.valid = 0, in particular right after a host record write, it fails with
NOT_CONSTRUCTED and empties OBUF. With more frame data, for which R91 gives no frame, it completes too, with an output within OBUF_CAP (R41,
R46): the frame with two length bytes that are free, where that fits, and free bytes otherwise (the model's choice, log entries 4 and 5). -/
def Obligations.EncodeWritesTheWireFrame : Prop :=
  ∀ (s : State) (m : Mode) (r : Record), (m = .API ∨ m = .API_ESC) →
    (∀ (L : Layout) (fd : List Byte),
      s.prec.valid = true → s.prec.record = some r → registered s.config r.type = some L →
      encodeLayout L r = some fd → fd.length ≤ 65535 →
      exec (.encode m) s = .next { afterOk s 0#32 with
        obuf := wireFrame fd m
        olen := BitVec.ofNat 32 (wireFrame fd m).length })
    ∧ (∀ (L : Layout) (fd : List Byte),
      s.prec.valid = true → s.prec.record = some r → registered s.config r.type = some L →
      encodeLayout L r = some fd → 65535 < fd.length →
      ∃ (h l : Byte) (out : List Byte),
        exec (.encode m) s = .next { afterOk s 0#32 with obuf := out, olen := BitVec.ofNat 32 out.length }
        ∧ out.length ≤ s.config.obufCap
        ∧ (∀ body frame : List Byte, body = h :: l :: (fd ++ [BitVec.ofNat 8 (255 - (fd.map BitVec.toNat).sum % 256)]) →
          frame = 0x7E#8 :: (if m = .API_ESC then body.flatMap escapeByte else body) →
          frame.length ≤ s.config.obufCap → out = frame))
    ∧ (s.prec.valid = false → exec (.encode m) s = .next (afterBytesError s 5#4 0x02#8 0#8))
    ∧ (s.status.busy = false → exec (.encode m) (hostPut r s) = .next (afterBytesError (hostPut r s) 5#4 0x02#8 0#8))

/-- R157: whatever the state, a completed ENCODE never reports a field-constraint error: its ECLASS is 0, 1 or 5. -/
def Obligations.EncodeNeverReportsAFieldConstraint : Prop :=
  ∀ (s t : State) (m : Mode), exec (.encode m) s = .next t →
    t.status.eclass = 0#4 ∨ t.status.eclass = 1#4 ∨ t.status.eclass = 5#4

/-- R156: a canonical frame of API_ESC mode is the delimiter and an escaped sequence, equivalently by its bytes: byte 0 is 0x7E, no later
byte is 0x7E, 0x11 or 0x13, and every later 0x7D is followed by 0x5E, 0x5D, 0x31 or 0x33; in API mode every sequence is canonical. -/
def Obligations.CanonicalFramesByTheirBytes : Prop :=
  ∀ f : List Byte,
    (Canonical .API_ESC f ↔ ∃ u, f = 0x7E#8 :: escape u)
    ∧ ((∃ u, f = 0x7E#8 :: escape u) ↔
      f[0]? = some 0x7E#8
      ∧ (∀ i : Nat, 1 ≤ i → f[i]? ≠ some 0x7E#8 ∧ f[i]? ≠ some 0x11#8 ∧ f[i]? ≠ some 0x13#8)
      ∧ (∀ i : Nat, 1 ≤ i → f[i]? = some 0x7D#8 →
          ∃ y, f[i + 1]? = some y ∧ (y = 0x5E#8 ∨ y = 0x5D#8 ∨ y = 0x31#8 ∨ y = 0x33#8)))
    ∧ Canonical .API f

/-- R161 (1): CONSTRUCT, ENCODE, a load of OBUF and BUILD in the same mode give the record back, valid. -/
def Obligations.RecordRoundTripThroughTheWire : Prop :=
  ∀ (s t : State) (m : Mode) (r : Record),
    s.config.wf = true → (m = .API ∨ m = .API_ESC) → s.prec.record = some r →
    exec .construct s = .next t → t.status.err = false →
    ∃ u v w : State, exec (.encode m) t = .next u ∧ hostLoad u.obuf u = .next v ∧ exec (.build m) v = .next w
      ∧ w.prec.record = some r ∧ w.prec.valid = true ∧ w.status.err = false

/-- R161 (2): BUILD then ENCODE in the same mode gives back every frame that BUILD accepts and that is canonical for the mode. -/
def Obligations.FrameRoundTripThroughTheRecord : Prop :=
  ∀ (s t : State) (m : Mode),
    s.config.wf = true → Canonical m s.ibuf → exec (.build m) s = .next t → t.status.err = false →
    ∃ u : State, exec (.encode m) t = .next u ∧ u.obuf = s.ibuf ∧ u.status.err = false

/-! ### Code tables and control -/

/-- R176, R175, R172, R174, R177: LOOKUP on a defined table never fails: tag 0 for a member, 1 for a non-member of a degrade table, 2 for a
non-member of an absent table; TABLE and CODE in RESULT. On a reserved id it fails with BAD_TABLE. -/
def Obligations.LookupReportsTheTag : Prop :=
  ∀ (s : State) (table code : Byte),
    ((table.toNat ≤ 5 ∨ (8 ≤ table.toNat ∧ table.toNat ≤ 12)) →
      exec (.lookup table code) s = .next (afterOk s (BitVec.ofNat 32
        ((if (table, code) ∈ s.config.codetab then 0 else if table.toNat ≤ 5 then 1 else 2)
          + 256 * table.toNat + 65536 * code.toNat))))
    ∧ ((table.toNat = 6 ∨ table.toNat = 7 ∨ 13 ≤ table.toNat) →
      exec (.lookup table code) s = .next (afterError s 5#4 0x04#8 table))

/-- R186, R187, R67: CLEAR clears OVR and RESULT and changes nothing else but the completion; each reserved opcode completes with
ILLEGAL_OPCODE, EARG the opcode, and changes nothing but STATUS and RESULT. -/
def Obligations.ControlCommandsComplete : Prop :=
  ∀ s : State,
    exec .clear s = .next { afterOk s 0#32 with status := { okStatus s with ovr := false } }
    ∧ exec .reservedOp0 s = .next (afterError s 5#4 0x01#8 0x00#8)
    ∧ exec .reservedOpC s = .next (afterError s 5#4 0x01#8 0x0C#8)
    ∧ exec .reservedOpD s = .next (afterError s 5#4 0x01#8 0x0D#8)
    ∧ exec .reservedOpE s = .next (afterError s 5#4 0x01#8 0x0E#8)
    ∧ exec .reservedOpF s = .next (afterError s 5#4 0x01#8 0x0F#8)

/-! ### The whole machine -/

/-- R19, R21, R28, R41, R42, R46, R150, R191, R209: every step keeps the invariant: a legal configuration, IBUF and OBUF within their capacities
and ILEN and OLEN their lengths, STATUS and the latched command, PREC. -/
def Obligations.EveryStepKeepsTheInvariant : Prop :=
  ∀ s t : State, Inv s → step s = .next t → Inv t

/-- R30: reset has the invariant. -/
def Obligations.ResetHasTheInvariant : Prop := Inv State.reset

/-- R187, R188, R190: in every state of the invariant no step faults, and every instruction completes with a next state that is idle: the
block never hangs, and no error needs a reset. -/
def Obligations.NothingHangsUnderTheInvariant : Prop :=
  (∀ (s : State) (f : Fault), Inv s → step s ≠ .fault f)
  ∧ (∀ (s : State) (i : Instr), Inv s → ∃ t, exec i s = .next t ∧ t.status.busy = false ∧ t.status.done = true ∧ t.latched = none)

/-- R195, R28, R27: the frame of every instruction: IBUF, ILEN, the configuration and what the model holds of the host are unchanged; OVR is
unchanged but by CLEAR; OBUF and OLEN are unchanged but by the five commands that write OBUF; PREC is unchanged but by BUILD, DECODEV,
CONSTRUCT and the frame decoders. -/
def Obligations.InstructionsChangeOnlyTheirOutputs : Prop :=
  ∀ (s t : State) (i : Instr), exec i s = .next t →
    t.ibuf = s.ibuf ∧ t.ilen = s.ilen ∧ t.config = s.config
    ∧ t.pending = s.pending ∧ t.received = s.received ∧ t.draws = s.draws
    ∧ (i ≠ .clear → t.status.ovr = s.status.ovr)
    ∧ (writesObuf i = false → t.obuf = s.obuf ∧ t.olen = s.olen)
    ∧ (writesPrec i = false → t.prec = s.prec)

/-- R196, R195, R20: what every failing instruction leaves: RESULT 0; OBUF and OLEN unchanged or, for the commands that write them, empty; PREC
unchanged, or empty for BUILD, DECODEV and the frame decoders, or for CONSTRUCT the same record with valid 0 and every tag none. -/
def Obligations.FailingInstructionsLeaveNoPartialOutput : Prop :=
  ∀ (s t : State) (i : Instr), exec i s = .next t → t.status.err = true →
    t.result = 0#32
    ∧ (writesObuf i = false → t.obuf = s.obuf ∧ t.olen = s.olen)
    ∧ (writesObuf i = true → t.obuf = [] ∧ t.olen = 0#32)
    ∧ (writesPrec i = false → t.prec = s.prec)
    ∧ (writesPrec i = true → i ≠ .construct → t.prec = { record := none, tags := [], valid := false })
    ∧ (i = .construct → t.prec.record = s.prec.record ∧ t.prec.valid = false ∧ ∀ x ∈ t.prec.tags, x = none)

/-- R29, R10: the outcome of an instruction depends on IBUF, PREC and the configuration only: two states that agree on these get the same
RESULT, error and PREC, and, from an instruction that writes OBUF, the same OBUF and OLEN. -/
def Obligations.OutcomeDependsOnOperandsOnly : Prop :=
  ∀ (s s' t t' : State) (i : Instr),
    s.ibuf = s'.ibuf → s.prec = s'.prec → s.config = s'.config →
    exec i s = .next t → exec i s' = .next t' →
    t.result = t'.result ∧ t.prec = t'.prec
    ∧ t.status.err = t'.status.err ∧ t.status.eclass = t'.status.eclass
    ∧ t.status.edetail = t'.status.edetail ∧ t.status.earg = t'.status.earg
    ∧ (writesObuf i = true → t.obuf = t'.obuf ∧ t.olen = t'.olen)
end

