-- ==== Sys2Proof/Laws/Codec.lean ====
section
/-! SUPPORT. The frame codec's functions: byte sums and checksums, big-endian integers, escape and unescape, envelope and wrap. -/

namespace Sys2Proof.Machine

/-! ### Sums and checksums -/

theorem byteSum_nil : byteSum [] = 0 := rfl

theorem byteSum_cons (x : Byte) (b : List Byte) : byteSum (x :: b) = x.toNat + byteSum b := by
  simp [byteSum]

theorem byteSum_append (a b : List Byte) : byteSum (a ++ b) = byteSum a + byteSum b := by
  simp [byteSum]

theorem checksum_toNat (b : List Byte) : (checksum b).toNat = 255 - byteSum b % 256 := by
  have h : byteSum b % 256 < 256 := Nat.mod_lt _ (by decide)
  simp only [checksum, BitVec.toNat_ofNat]
  omega

/-- The checksum test of an envelope as a sum of numbers (R81). -/
theorem checksum_eq_iff (b : List Byte) (c : Byte) : checksum b = c ↔ byteSum b % 256 + c.toNat = 255 := by
  have h := checksum_toNat b
  have hm : byteSum b % 256 < 256 := Nat.mod_lt _ (by decide)
  constructor
  · rintro rfl; omega
  · intro hc; apply BitVec.eq_of_toNat_eq; omega

/-! ### Big-endian integers -/

theorem rdBE_append_singleton (b : List Byte) (x : Byte) : rdBE (b ++ [x]) = rdBE b * 256 + x.toNat := by
  simp [rdBE]

theorem rdBE_singleton (x : Byte) : rdBE [x] = x.toNat := by simp [rdBE]

theorem rdBE_pair (x y : Byte) : rdBE [x, y] = x.toNat * 256 + y.toNat := by simp [rdBE]

theorem rdBE_lt (b : List Byte) : rdBE b < 256 ^ b.length := by
  induction b using List.reverseRecOn with
  | nil => simp [rdBE]
  | append_singleton b x ih =>
    rw [rdBE_append_singleton, List.length_append, List.length_singleton, Nat.pow_succ]
    have hx := x.isLt
    omega

theorem beBytes_length (w n : Nat) : (beBytes w n).length = w := by
  induction w generalizing n with
  | zero => rfl
  | succ w ih => simp [beBytes, ih]

theorem rdBE_beBytes (w n : Nat) (h : n < 256 ^ w) : rdBE (beBytes w n) = n := by
  induction w generalizing n with
  | zero => simp at h; subst h; rfl
  | succ w ih =>
    have hq : n / 256 < 256 ^ w := by
      rw [Nat.pow_succ] at h
      exact Nat.div_lt_of_lt_mul (by omega)
    rw [beBytes, rdBE_append_singleton, ih _ hq, BitVec.toNat_ofNat]
    omega

theorem beBytes_rdBE (b : List Byte) : beBytes b.length (rdBE b) = b := by
  induction b using List.reverseRecOn with
  | nil => rfl
  | append_singleton b x ih =>
    rw [List.length_append, List.length_singleton, beBytes, rdBE_append_singleton]
    have hx := x.isLt
    have hq : (rdBE b * 256 + x.toNat) / 256 = rdBE b := by omega
    rw [hq, ih]
    congr 2
    apply BitVec.eq_of_toNat_eq
    rw [BitVec.toNat_ofNat]
    omega

theorem be16_of_le (n : Nat) (h : n ≤ 65535) : be16 n = [BitVec.ofNat 8 (n / 256), BitVec.ofNat 8 n] := by
  simp [be16, h, beBytes]

theorem be16_length (n : Nat) : (be16 n).length = 2 := by
  unfold be16; split
  · exact beBytes_length 2 n
  · rfl

/-! ### Escape -/

theorem isReserved_iff (x : Byte) : isReserved x = true ↔ x = 0x7E#8 ∨ x = 0x7D#8 ∨ x = 0x11#8 ∨ x = 0x13#8 := by
  simp [isReserved, RSV]

/-- A reserved byte's pair (R60). -/
theorem escape_cons_reserved (x : Byte) (b : List Byte) (h : isReserved x = true) :
    escape (x :: b) = 0x7D#8 :: (x ^^^ 0x20#8) :: escape b := by
  simp [escape, h, ESC, XMASK]

theorem escape_cons_plain (x : Byte) (b : List Byte) (h : isReserved x = false) : escape (x :: b) = x :: escape b := by
  simp [escape, h]

theorem escape_eq_flatMap (b : List Byte) : escape b = b.flatMap escapeByte := by
  induction b with
  | nil => rfl
  | cons x b ih =>
    rw [List.flatMap_cons, ← ih]
    cases h : isReserved x
    · rw [escape_cons_plain x b h, escapeByte, if_neg]
      · rfl
      · rw [← isReserved_iff, h]; decide
    · rw [escape_cons_reserved x b h, escapeByte, if_pos ((isReserved_iff x).1 h)]
      rfl

theorem escape_append (a b : List Byte) : escape (a ++ b) = escape a ++ escape b := by
  simp [escape_eq_flatMap]

theorem escape_length_le (b : List Byte) : (escape b).length ≤ 2 * b.length := by
  induction b with
  | nil => simp [escape]
  | cons x b ih =>
    cases h : isReserved x
    · rw [escape_cons_plain x b h]; simp only [List.length_cons]; omega
    · rw [escape_cons_reserved x b h]; simp only [List.length_cons]; omega

theorem isReserved_false_ne_esc (x : Byte) (h : isReserved x = false) : x ≠ 0x7D#8 := by
  rintro rfl; exact absurd h (by decide)

/-! ### Unescape -/

theorem unescape_pair (y : Byte) (rest : List Byte) :
    unescape (0x7D#8 :: y :: rest) =
      (match unescape rest with
        | .ok out => .ok ((y ^^^ 0x20#8) :: out)
        | .error e => .error e) := by
  rw [unescape]
  cases unescape rest <;> rfl

theorem unescape_plain (x : Byte) (rest : List Byte) (h : x ≠ 0x7D#8) :
    unescape (x :: rest) =
      (match unescape rest with
        | .ok out => .ok (x :: out)
        | .error e => .error e) := by
  cases rest with
  | nil => simp [unescape, ESC, h]
  | cons y rest =>
    rw [unescape]
    cases unescape (y :: rest) <;> simp [ESC, h]

theorem unescape_dangling : unescape [0x7D#8] = .error .danglingEscape := by
  simp [unescape, ESC]

/-- The only error of unescape (R87). -/
theorem unescape_error (b : List Byte) (e : CommandError) (h : unescape b = .error e) : e = .danglingEscape := by
  induction b using unescape.induct generalizing e with
  | case1 => simp [unescape] at h
  | case2 x hx => simp [unescape, hx] at h; exact h.symm
  | case3 x hx => simp [unescape, hx] at h
  | case4 x y rest hx out hr ih => simp [unescape, hx, hr] at h
  | case5 x y rest hx e' hr ih => simp [unescape, hx, hr] at h; subst h; exact ih _ hr
  | case6 x y rest hx out hr ih => simp [unescape, hx, hr] at h
  | case7 x y rest hx e' hr ih => simp [unescape, hx, hr] at h; subst h; exact ih _ hr

theorem unescape_length_le (b out : List Byte) (h : unescape b = .ok out) : out.length ≤ b.length := by
  induction b using unescape.induct generalizing out with
  | case1 => cases h; exact Nat.le_refl _
  | case2 x hx => simp [unescape, hx] at h
  | case3 x hx => simp [unescape, hx] at h; subst h; exact Nat.le_refl _
  | case4 x y rest hx out' hr ih =>
    simp [unescape, hx, hr] at h
    have := ih _ hr
    subst h
    simp only [List.length_cons]
    omega
  | case5 x y rest hx e hr ih => simp [unescape, hx, hr] at h
  | case6 x y rest hx out' hr ih =>
    simp [unescape, hx, hr] at h
    have := ih _ hr
    subst h
    simp only [List.length_cons] at this ⊢
    omega
  | case7 x y rest hx e hr ih => simp [unescape, hx, hr] at h

/-! ### Envelope -/

theorem slice_frame (d h l : Byte) (fd : List Byte) (c : Byte) :
    slice (d :: h :: l :: (fd ++ [c])) 3 ((d :: h :: l :: (fd ++ [c])).length - 1) = fd := by
  simp [slice]

/-- The envelope checks on a buffer of at least 4 bytes, cut at the places R58 names (R89). -/
theorem envelope_frame (d h l : Byte) (fd : List Byte) (c : Byte) (m : Nat) :
    envelope (d :: h :: l :: (fd ++ [c])) m =
      if fd.length + 4 < m then .error .tooShort
      else if d ≠ 0x7E#8 then .error .badDelimiter
      else if h.toNat * 256 + l.toNat ≠ fd.length then .error .lengthMismatch
      else if byteSum fd % 256 + c.toNat ≠ 255 then .error .checksumMismatch
      else .ok fd := by
  have hlen : (d :: h :: l :: (fd ++ [c])).length = fd.length + 4 := by simp
  have hlast : (d :: h :: l :: (fd ++ [c])).getLastD 0#8 = c := by simp [List.getLastD]
  have h13 : slice (d :: h :: l :: (fd ++ [c])) 1 3 = [h, l] := by simp [slice]
  have hmax : fd.length + 4 < max m ENV_FLOOR ↔ fd.length + 4 < m := by simp [ENV_FLOOR]
  have hchk : checksum fd ≠ c ↔ byteSum fd % 256 + c.toNat ≠ 255 := by rw [Ne, checksum_eq_iff]
  have hsl := slice_frame d h l fd c
  unfold envelope
  rw [hsl, hlast, h13, hlen]
  simp only [hmax, hchk, rdBE_pair, List.headD_cons, DELIM, Nat.add_sub_cancel]

theorem envelope_short (raw : List Byte) (m : Nat) (h : raw.length < 4) : envelope raw m = .error .tooShort := by
  have : raw.length < max m ENV_FLOOR := by simp only [ENV_FLOOR]; omega
  simp [envelope, this]

/-- A buffer of at least 4 bytes is a delimiter, two length bytes, frame data and a checksum byte. -/
theorem exists_frame_parts (raw : List Byte) (h : 4 ≤ raw.length) :
    ∃ d h' l fd c, raw = d :: h' :: l :: (fd ++ [c]) := by
  match raw, h with
  | d :: h' :: l :: x :: xs, _ =>
    exact ⟨d, h', l, (x :: xs).dropLast, (x :: xs).getLast (by simp), by rw [List.dropLast_append_getLast]⟩

/-- What an accepted envelope says (R89). -/
theorem envelope_ok (raw fd : List Byte) (m : Nat) (h : envelope raw m = .ok fd) :
    ∃ hi lo c, raw = 0x7E#8 :: hi :: lo :: (fd ++ [c]) ∧ m ≤ fd.length + 4 ∧ hi.toNat * 256 + lo.toNat = fd.length
      ∧ byteSum fd % 256 + c.toNat = 255 := by
  by_cases h4 : raw.length < 4
  · rw [envelope_short raw m h4] at h; cases h
  · obtain ⟨d, hi, lo, fd', c, rfl⟩ := exists_frame_parts raw (by omega)
    rw [envelope_frame] at h
    split at h
    · cases h
    · split at h
      · cases h
      · split at h
        · cases h
        · split at h
          · cases h
          · cases h
            rename_i hd hm hl hc
            exact ⟨hi, lo, c, by rw [not_not.1 hd], by omega, not_not.1 hl, not_not.1 hc⟩

theorem envelope_length_le (raw fd : List Byte) (m : Nat) (h : envelope raw m = .ok fd) : fd.length ≤ raw.length := by
  obtain ⟨hi, lo, c, rfl, -⟩ := envelope_ok raw fd m h
  simp only [List.length_cons, List.length_append]
  omega

/-- The envelope's errors (R89): each has its own EDETAIL, none an argument. -/
theorem envelope_error (raw : List Byte) (m : Nat) (e : CommandError) (h : envelope raw m = .error e) :
    e = .tooShort ∨ e = .badDelimiter ∨ e = .lengthMismatch ∨ e = .checksumMismatch := by
  unfold envelope at h
  split at h
  · cases h; simp
  · split at h
    · cases h; simp
    · split at h
      · cases h; simp
      · split at h
        · cases h; simp
        · cases h

/-! ### Wrap -/

theorem wrapFrame_eq_wireFrame (fd : List Byte) (m : Mode) (h : fd.length ≤ 65535) : wrapFrame fd m = wireFrame fd m := by
  have hc : checksum fd = BitVec.ofNat 8 (255 - (fd.map BitVec.toNat).sum % 256) := rfl
  unfold wrapFrame wireFrame plainFrame
  cases m <;> simp [be16_of_le _ h, DELIM, hc, escape_eq_flatMap]

/-- The longest frame: 1 + 2·(2 + 65535 + 1) bytes (R42, R46). -/
theorem wrapFrame_length_le (fd : List Byte) (m : Mode) (h : fd.length ≤ 65535) : (wrapFrame fd m).length ≤ 131077 := by
  have he := escape_length_le (be16 fd.length ++ fd ++ [checksum fd])
  have hb := be16_length fd.length
  simp only [List.length_append, List.length_singleton, hb] at he
  unfold wrapFrame
  split <;> simp only [List.length_cons, List.length_append, List.length_nil, hb] <;> omega

end Sys2Proof.Machine
end

