-- ==== Sys2Proof/Laws/Decode.lean ====
section
/-! SUPPORT. The fields of CMD words as digits (R64, R65), the words the encoder writes (R77), and the discriminators of frame data (R68). -/

namespace Sys2Proof

theorem modeOfBits_bits (m : Mode) : Mode.ofBits m.bits = m := by cases m <;> rfl

/-- R65, as numbers. -/
theorem modeOfBits_toNat (b : BitVec 2) : Mode.ofBits b =
    (if b.toNat = 0 then .AT else if b.toNat = 1 then .API else if b.toNat = 2 then .API_ESC else .UNKNOWN) := by
  revert b; decide

/-! ### The fields as digits of the word -/

theorem opField_toNat (w : Word) : (opField w).toNat = w.toNat % 16 := by simp [opField]

theorem modeField_toNat (w : Word) : (modeField w).toNat = w.toNat / 16 % 4 := by
  simp [modeField, Nat.shiftRight_eq_div_pow]

theorem selField_toNat (w : Word) : (selField w).toNat = w.toNat / 256 % 256 := by
  simp [selField, Nat.shiftRight_eq_div_pow]

theorem codeField_toNat (w : Word) : (codeField w).toNat = w.toNat / 65536 % 256 := by
  simp [codeField, Nat.shiftRight_eq_div_pow]

theorem minlenField_toNat (w : Word) : (minlenField w).toNat = w.toNat / 65536 % 65536 := by
  simp [minlenField, Nat.shiftRight_eq_div_pow]

/-! ### The words the encoder writes, as numbers -/

theorem toNat_append_digits {v w : Nat} (x : BitVec v) (y : BitVec w) : (x ++ y).toNat = x.toNat * 2 ^ w + y.toNat := by
  rw [BitVec.toNat_append, Nat.shiftLeft_eq, Nat.mul_comm, ← Nat.two_pow_add_eq_or_of_lt y.isLt]

theorem commandWord_toNat (op : BitVec 4) (mode : BitVec 2) (sel code : Byte) :
    (commandWord op mode sel code).toNat = op.toNat + 16 * mode.toNat + 256 * sel.toNat + 65536 * code.toNat := by
  simp only [commandWord, toNat_append_digits, BitVec.toNat_ofNat]
  omega

theorem minlenWord_toNat (op : BitVec 4) (minlen : BitVec 16) : (minlenWord op minlen).toNat = op.toNat + 65536 * minlen.toNat := by
  simp only [minlenWord, toNat_append_digits, BitVec.toNat_ofNat]
  omega

/-! ### The fields of the words the encoder writes -/

theorem opField_commandWord (op : BitVec 4) (mode : BitVec 2) (sel code : Byte) : opField (commandWord op mode sel code) = op := by
  apply BitVec.eq_of_toNat_eq
  rw [opField_toNat, commandWord_toNat]
  omega

theorem modeField_commandWord (op : BitVec 4) (mode : BitVec 2) (sel code : Byte) : modeField (commandWord op mode sel code) = mode := by
  apply BitVec.eq_of_toNat_eq
  rw [modeField_toNat, commandWord_toNat]
  omega

theorem selField_commandWord (op : BitVec 4) (mode : BitVec 2) (sel code : Byte) : selField (commandWord op mode sel code) = sel := by
  apply BitVec.eq_of_toNat_eq
  rw [selField_toNat, commandWord_toNat]
  omega

theorem codeField_commandWord (op : BitVec 4) (mode : BitVec 2) (sel code : Byte) : codeField (commandWord op mode sel code) = code := by
  apply BitVec.eq_of_toNat_eq
  rw [codeField_toNat, commandWord_toNat]
  omega

theorem opField_minlenWord (op : BitVec 4) (minlen : BitVec 16) : opField (minlenWord op minlen) = op := by
  apply BitVec.eq_of_toNat_eq
  rw [opField_toNat, minlenWord_toNat]
  omega

theorem minlenField_minlenWord (op : BitVec 4) (minlen : BitVec 16) : minlenField (minlenWord op minlen) = minlen := by
  apply BitVec.eq_of_toNat_eq
  rw [minlenField_toNat, minlenWord_toNat]
  omega

/-! ### Frame data -/

/-- A frame instruction is written as its discriminator and its body. -/
theorem encode_frameOf (t : Byte) (body : List Byte) (i : Instr) (h : frameOf t body = some i) : encode i = .frameData (t :: body) := by
  unfold frameOf at h
  split at h
  case h_11 => cases h
  all_goals
    rename_i ht
    cases h
    have hb : t = BitVec.ofNat 8 t.toNat := by simp
    rw [ht] at hb
    rw [hb]
    rfl

/-- A frame instruction is well formed when its frame data fits the length field. -/
theorem wf_frameOf (t : Byte) (body : List Byte) (i : Instr) (h : frameOf t body = some i) : i.wf = bodyFits body := by
  unfold frameOf at h
  split at h <;> cases h <;> rfl

end Sys2Proof
end

