-- ==== Sys2Proof/Laws/Operands.lean ====
section
/-! SUPPORT. Field kinds, layouts, records: text slots, one field in both directions, CONSTRUCT's checks as a relation, the registry. -/

namespace Sys2Proof.Machine

/-! ### Text slots -/

theorem strip0_nil : strip0 [] = [] := rfl

/-- A slot is its content and zero padding (R127). -/
theorem strip0_append_zeros (b : List Byte) : strip0 b ++ List.replicate (b.length - (strip0 b).length) 0#8 = b := by
  induction b with
  | nil => rfl
  | cons x xs ih =>
    rw [strip0]
    split
    · rename_i h
      rw [h] at ih
      simp only [List.nil_append, List.length_nil, Nat.sub_zero] at ih
      split
      · rename_i hx
        have hx' : x = 0#8 := by simpa using hx
        subst hx'
        simp only [List.nil_append, List.length_cons, List.length_nil, Nat.sub_zero, List.replicate_succ, ih]
      · simp only [List.length_cons, List.length_nil, Nat.add_sub_cancel, List.cons_append, List.nil_append, ih]
    · rename_i y ys h
      rw [h] at ih
      simp only [List.length_cons, Nat.reduceSubDiff, List.cons_append] at ih ⊢
      rw [ih]

theorem strip0_length_le (b : List Byte) : (strip0 b).length ≤ b.length := by
  have h := congrArg List.length (strip0_append_zeros b)
  simp only [List.length_append, List.length_replicate] at h
  omega

theorem strip0_zeros (n : Nat) : strip0 (List.replicate n 0#8) = [] := by
  induction n with
  | zero => rfl
  | succ n ih => rw [List.replicate_succ, strip0, ih]; rfl

/-- The content starts with the slot's first byte, unless it is empty. -/
theorem strip0_cons_cases (x : Byte) (xs : List Byte) : strip0 (x :: xs) = [] ∨ ∃ r, strip0 (x :: xs) = x :: r := by
  rw [strip0]
  split
  · split
    · exact .inl rfl
    · exact .inr ⟨[], rfl⟩
  · exact .inr ⟨_, rfl⟩

/-- Padding is undone when the content does not end in 0x00 (R127). -/
theorem strip0_content (b : List Byte) (n : Nat) (h : b.getLast? ≠ some 0#8) : strip0 (b ++ List.replicate n 0#8) = b := by
  induction b with
  | nil => exact strip0_zeros n
  | cons x xs ih =>
    cases xs with
    | nil =>
      have hx : x ≠ 0#8 := by simpa using h
      rw [List.cons_append, List.nil_append, strip0, strip0_zeros]
      simp [hx]
    | cons y ys =>
      rw [List.cons_append, strip0, ih (by rw [List.getLast?_cons_cons] at h; exact h)]

/-- Padding is undone when the content holds no 0x00 (R141). -/
theorem strip0_padded (b : List Byte) (n : Nat) (h : ∀ x ∈ b, x ≠ 0#8) : strip0 (b ++ List.replicate n 0#8) = b :=
  strip0_content b n fun hl => h 0#8 (List.mem_of_getLast? hl) rfl

theorem afterPlus_cons (x : Byte) (xs : List Byte) : afterPlus (x :: xs) = if x == 0x2B#8 then xs else x :: xs := rfl

/-- Every pattern forbids 0x00 inside the content (R127). -/
theorem matchesPattern_no_zero (q : Pattern) (b : List Byte) (h : matchesPattern q b = true) : ∀ x ∈ b, x ≠ 0#8 := by
  cases q with
  | NONE => simpa [matchesPattern] using h
  | PHONE =>
    simp only [matchesPattern, Bool.and_eq_true, List.all_eq_true] at h
    obtain ⟨-, hd⟩ := h
    have digit : ∀ y, isDigit y = true → y ≠ 0#8 := by
      rintro y hy rfl; exact absurd hy (by decide)
    intro x hx
    cases b with
    | nil => simp at hx
    | cons y ys =>
      rw [afterPlus_cons] at hd
      split at hd
      · rename_i hy
        rcases List.mem_cons.1 hx with rfl | hx
        · rintro rfl; exact absurd hy (by decide)
        · exact digit x (hd x hx)
      · exact digit x (hd x hx)

/-- PHONE is an optional `+` and at least one digit (R127). -/
theorem matches_phone_iff (b : List Byte) : matchesPattern .PHONE b = true ↔ PhoneText b := by
  have digit : ∀ d : Byte, isDigit d = true ↔ 0x30 ≤ d.toNat ∧ d.toNat ≤ 0x39 := by intro d; simp [isDigit]
  simp only [matchesPattern, Bool.and_eq_true, Bool.not_eq_true', List.isEmpty_eq_false_iff, List.all_eq_true, digit]
  constructor
  · rintro ⟨hne, hd⟩
    cases b with
    | nil => exact absurd rfl hne
    | cons x xs =>
      rw [afterPlus_cons] at hne hd
      split at hne
      · rename_i hx
        rw [if_pos hx] at hd
        have hx' : x = 0x2B#8 := by simpa using hx
        exact ⟨[x], xs, rfl, .inr (by rw [hx']), hne, hd⟩
      · rename_i hx
        rw [if_neg hx] at hd
        exact ⟨[], x :: xs, rfl, .inl rfl, hne, hd⟩
  · rintro ⟨plus, digits, rfl, rfl | rfl, hne, hd⟩
    · cases digits with
      | nil => exact absurd rfl hne
      | cons d ds =>
        have hx : (d == 0x2B#8) = false := by
          have := hd d (by simp)
          rw [beq_eq_false_iff_ne]
          rintro rfl
          simp at this
        simp only [List.nil_append, afterPlus, hx]
        exact ⟨by simp, hd⟩
    · simp only [List.cons_append, List.nil_append, afterPlus, beq_self_eq_true, if_true]
      exact ⟨hne, hd⟩

/-! ### CONSTRUCT's checks as one relation -/

theorem checkField_none_iff (i : Nat) (f : FieldSpec) (v : FieldVal) : checkField i f v = none ↔ fieldConforms f v := by
  cases f <;> cases v <;> first | (simp [checkField, fieldConforms]; done) | skip
  all_goals simp only [checkField, fieldConforms]
  all_goals repeat' split
  all_goals simp_all
  all_goals omega

theorem fieldConforms_kind (f : FieldSpec) (v : FieldVal) (h : fieldConforms f v) : v.kind = specKind f := by
  cases f <;> cases v <;> first | rfl | exact absurd h (by simp [fieldConforms])

theorem shapeMismatch_none_iff (i : Nat) (fs : List FieldSpec) (vs : List FieldVal) :
    shapeMismatch i fs vs = none ↔ List.Forall₂ (fun f v => v.kind = specKind f) fs vs := by
  induction fs generalizing i vs with
  | nil => cases vs <;> simp [shapeMismatch]
  | cons f fs ih =>
    cases vs with
    | nil => simp [shapeMismatch]
    | cons v vs =>
      rw [shapeMismatch, List.forall₂_cons, ← ih (i + 1) vs]
      split <;> simp [*]

/-- A record passes the shape and value checks exactly when every value conforms to its field (R151 to R155). -/
theorem checks_none_iff (i : Nat) (fs : List FieldSpec) (vs : List FieldVal) :
    (shapeMismatch i fs vs = none ∧ checkFields i fs vs = none) ↔ List.Forall₂ fieldConforms fs vs := by
  induction fs generalizing i vs with
  | nil => cases vs <;> simp [shapeMismatch, checkFields]
  | cons f fs ih =>
    cases vs with
    | nil => simp [shapeMismatch]
    | cons v vs =>
      rw [shapeMismatch, checkFields, List.forall₂_cons, ← ih (i + 1) vs, ← checkField_none_iff i f v]
      constructor
      · rintro ⟨hs, hc⟩
        split at hs
        · split at hc
          · cases hc
          · rename_i hn; exact ⟨hn, hs, hc⟩
        · cases hs
      · rintro ⟨hn, hs, hc⟩
        have hk := fieldConforms_kind f v ((checkField_none_iff i f v).1 hn)
        rw [if_pos hk, hn]
        exact ⟨hs, hc⟩

/-! ### One field: wire to record and back -/

theorem encodeField_isSome (f : FieldSpec) (v : FieldVal) (h : v.kind = specKind f) : ∃ b, encodeField f v = some b := by
  cases f <;> cases v <;> first | exact ⟨_, rfl⟩ | simp [FieldVal.kind, specKind] at h

/-- A record of the layout's shape has an encoding (R128: encode_L never raises). -/
theorem encodeFields_isSome (fs : List FieldSpec) (vs : List FieldVal)
    (h : List.Forall₂ (fun f v => v.kind = specKind f) fs vs) : ∃ b, encodeFields fs vs = some b := by
  induction h with
  | nil => exact ⟨[], rfl⟩
  | cons hk _ ih =>
    obtain ⟨b, hb⟩ := encodeField_isSome _ _ hk
    obtain ⟨bs, hbs⟩ := ih
    exact ⟨b ++ bs, by simp [encodeFields, hb, hbs]⟩

theorem encodeFields_cons (f : FieldSpec) (fs : List FieldSpec) (v : FieldVal) (vs : List FieldVal) (b bs : List Byte)
    (hb : encodeField f v = some b) (hbs : encodeFields fs vs = some bs) :
    encodeFields (f :: fs) (v :: vs) = some (b ++ bs) := by
  simp [encodeFields, hb, hbs]

theorem encodeFields_cons_inv (f : FieldSpec) (fs : List FieldSpec) (v : FieldVal) (vs : List FieldVal) (out : List Byte)
    (h : encodeFields (f :: fs) (v :: vs) = some out) :
    ∃ b bs, encodeField f v = some b ∧ encodeFields fs vs = some bs ∧ out = b ++ bs := by
  unfold encodeFields at h
  split at h
  · rename_i b bs hb hbs
    cases h; exact ⟨b, bs, hb, hbs, rfl⟩
  · cases h

/-- The field is read by a fixed width or its own length, so bytes after it do not matter. PAYLOAD is the exception: it takes them all. -/
theorem decodeField_encodeField (cfg : Config) (i : Nat) (f : FieldSpec) (v : FieldVal) (b rest : List Byte)
    (hf : f ≠ .PAYLOAD) (hv : fieldConforms f v) (hb : encodeField f v = some b) :
    ∃ t, decodeField cfg i f (b ++ rest) = .ok (v, t, rest) := by
  cases f <;> cases v <;> simp only [fieldConforms] at hv <;> simp only [encodeField, Option.some.injEq] at hb <;> subst hb
  case CID.cid n =>
    refine ⟨none, ?_⟩
    simp only [decodeField, List.cons_append, List.nil_append, List.headD_cons, List.drop_succ_cons, List.drop_zero,
      BitVec.toNat_ofNat]
    rw [Nat.mod_eq_of_lt (by omega)]
  case INT.int w n =>
    refine ⟨none, ?_⟩
    have hl := beBytes_length w n
    simp only [decodeField, List.take_left' hl, List.drop_left' hl, rdBE_beBytes w n hv]
  case CODE.code t n =>
    refine ⟨some (lookupTag cfg t (BitVec.ofNat 8 n)), ?_⟩
    simp only [decodeField, List.cons_append, List.nil_append, List.headD_cons, List.drop_succ_cons, List.drop_zero,
      BitVec.toNat_ofNat]
    rw [Nat.mod_eq_of_lt (by omega)]
  case BYTES.bytes w b =>
    refine ⟨none, ?_⟩
    simp only [decodeField, List.take_left' hv, List.drop_left' hv]
  case TEXT.text c q b =>
    refine ⟨none, ?_⟩
    obtain ⟨hlen, hq⟩ := hv
    have hl : (b ++ List.replicate (c - b.length) 0#8).length = c := by simp; omega
    simp only [decodeField, List.take_left' hl, List.drop_left' hl, strip0_padded b _ (matchesPattern_no_zero q b hq), hq,
      if_true]
  case VAR.var b =>
    refine ⟨none, ?_⟩
    have hk : (BitVec.ofNat 8 b.length).toNat = b.length := by
      rw [BitVec.toNat_ofNat]; exact Nat.mod_eq_of_lt (by omega)
    simp only [decodeField, List.cons_append, hk, List.length_append, Nat.le_add_right, if_true, List.take_left, List.drop_left]
  case PAYLOAD.payload b => exact absurd rfl hf

/-- What one field's read says, when the bytes hold its fixed width (R124): its value conforms, its tag is the lookup of a code, and the
bytes read are its encoding. -/
theorem decodeField_ok (cfg : Config) (i : Nat) (f : FieldSpec) (b rest : List Byte) (v : FieldVal) (t : Option Tag)
    (hw : fw f ≤ b.length) (h : decodeField cfg i f b = .ok (v, t, rest)) :
    fieldConforms f v ∧ t = fieldTag cfg f v ∧ ∃ e, encodeField f v = some e ∧ b = e ++ rest := by
  cases f with
  | CID =>
    simp only [fw] at hw
    obtain ⟨x, xs, rfl⟩ : ∃ x xs, b = x :: xs := by cases b with
      | nil => simp at hw
      | cons x xs => exact ⟨x, xs, rfl⟩
    simp only [decodeField, List.headD_cons, List.drop_succ_cons, List.drop_zero, Except.ok.injEq, Prod.mk.injEq] at h
    obtain ⟨rfl, rfl, rfl⟩ := h
    refine ⟨?_, rfl, [x], ?_, rfl⟩
    · have := x.isLt; simp only [fieldConforms]; omega
    · simp [encodeField]
  | INT w =>
    simp only [decodeField, Except.ok.injEq, Prod.mk.injEq] at h
    obtain ⟨rfl, rfl, rfl⟩ := h
    have hl : (b.take w).length = w := by simp only [fw] at hw; simp; omega
    refine ⟨?_, rfl, b.take w, ?_, by rw [List.take_append_drop]⟩
    · have := rdBE_lt (b.take w); rw [hl] at this; exact this
    · have := beBytes_rdBE (b.take w); rw [hl] at this; simp [encodeField, this]
  | CODE t' =>
    simp only [fw] at hw
    obtain ⟨x, xs, rfl⟩ : ∃ x xs, b = x :: xs := by cases b with
      | nil => simp at hw
      | cons x xs => exact ⟨x, xs, rfl⟩
    simp only [decodeField, List.headD_cons, List.drop_succ_cons, List.drop_zero, Except.ok.injEq, Prod.mk.injEq] at h
    obtain ⟨rfl, rfl, rfl⟩ := h
    refine ⟨?_, ?_, [x], ?_, rfl⟩
    · have := x.isLt; simp only [fieldConforms]; omega
    · simp [fieldTag]
    · simp [encodeField]
  | BYTES w =>
    simp only [decodeField, Except.ok.injEq, Prod.mk.injEq] at h
    obtain ⟨rfl, rfl, rfl⟩ := h
    have hl : (b.take w).length = w := by simp only [fw] at hw; simp; omega
    exact ⟨hl, rfl, b.take w, rfl, by rw [List.take_append_drop]⟩
  | TEXT c q =>
    simp only [decodeField] at h
    split at h
    · rename_i hq
      simp only [Except.ok.injEq, Prod.mk.injEq] at h
      obtain ⟨rfl, rfl, rfl⟩ := h
      have hl : (b.take c).length = c := by simp only [fw] at hw; simp; omega
      have hle := strip0_length_le (b.take c)
      have hpad := strip0_append_zeros (b.take c)
      rw [hl] at hpad hle
      exact ⟨⟨hle, hq⟩, rfl, b.take c, by simp only [encodeField, hpad], by rw [List.take_append_drop]⟩
    · cases h
  | VAR =>
    cases b with
    | nil => simp [fw] at hw
    | cons k r =>
      simp only [decodeField] at h
      split at h
      · rename_i hk
        simp only [Except.ok.injEq, Prod.mk.injEq] at h
        obtain ⟨rfl, rfl, rfl⟩ := h
        have hl : (r.take k.toNat).length = k.toNat := by simp; omega
        refine ⟨?_, rfl, k :: r.take k.toNat, ?_, by rw [List.cons_append, List.take_append_drop]⟩
        · have := k.isLt; simp only [fieldConforms, hl]; omega
        · simp only [encodeField, hl, BitVec.ofNat_toNat, BitVec.setWidth_eq]
      · cases h
  | PAYLOAD =>
    simp only [decodeField, Except.ok.injEq, Prod.mk.injEq] at h
    obtain ⟨rfl, rfl, rfl⟩ := h
    exact ⟨trivial, rfl, b, rfl, by simp⟩

/-- The decoder's field errors (R125): FIELD_INVALID of a text field or VAR_FIELD_OVERFLOW of a variable one, with the field index. -/
theorem decodeField_error (cfg : Config) (i : Nat) (f : FieldSpec) (b : List Byte) (e : CommandError)
    (h : decodeField cfg i f b = .error e) : ((∃ c q, f = .TEXT c q) ∧ e = .fieldInvalid i) ∨ (f = .VAR ∧ e = .varFieldOverflow i) := by
  cases f with
  | CID | INT | CODE | BYTES | PAYLOAD => simp [decodeField] at h
  | TEXT c q =>
    simp only [decodeField] at h
    split at h
    · cases h
    · cases h; exact .inl ⟨⟨c, q, rfl⟩, rfl⟩
  | VAR =>
    cases b with
    | nil => simp only [decodeField] at h; cases h; exact .inr ⟨rfl, rfl⟩
    | cons k r =>
      simp only [decodeField] at h
      split at h
      · cases h
      · cases h; exact .inr ⟨rfl, rfl⟩

/-! ### The registry -/

theorem registered_mem (cfg : Config) (t : Byte) (L : Layout) (h : registered cfg t = some L) : (t, L) ∈ cfg.registry := by
  simp only [registered, Option.map_eq_some_iff] at h
  obtain ⟨e, he, rfl⟩ := h
  have hk := List.find?_some he
  have hm := List.mem_of_find?_eq_some he
  have : e.1 = t := by simpa using hk
  subst this
  exact hm

/-- In a legal configuration a registered layout stands under its own discriminator and is well formed (R111, R209). -/
theorem registered_wf (cfg : Config) (t : Byte) (L : Layout) (hc : cfg.wf = true) (h : registered cfg t = some L) :
    L.type = t ∧ layoutWf L = true := by
  have hm := registered_mem cfg t L h
  simp only [Config.wf, Bool.and_eq_true, List.all_eq_true] at hc
  obtain ⟨⟨⟨⟨⟨-, hall⟩, -⟩, -⟩, -⟩, -⟩ := hc
  have := hall (t, L) hm
  simpa using this

/-- The capacities of a legal configuration (R6). -/
theorem config_capacities (cfg : Config) (hc : cfg.wf = true) : 131077 ≤ cfg.ibufCap ∧ 2 * cfg.ibufCap ≤ cfg.obufCap := by
  simp only [Config.wf, Bool.and_eq_true, decide_eq_true_eq] at hc
  exact ⟨hc.1.1.1.1.1.1, hc.1.1.1.1.1.2⟩

/-! ### The bus -/

theorem find_address (es : List (Nat × BusPlace)) (h : addressesRise es = true) (e : Nat × BusPlace) (he : e ∈ es) :
    es.find? (fun x => x.1 == e.1) = some e := by
  induction es with
  | nil => cases he
  | cons x xs ih =>
    simp only [addressesRise, Bool.and_eq_true, List.all_eq_true, decide_eq_true_eq] at h
    rcases List.mem_cons.1 he with rfl | hm
    · simp
    · have hlt := h.1 e hm
      rw [List.find?_cons_of_neg (by simp; omega), ih h.2 hm]

/-- In a legal configuration BUS_MAP is a map: an address selects the place it is listed with (R52). -/
theorem busPlace_iff_mem (cfg : Config) (addr : Nat) (p : BusPlace) (hc : cfg.wf = true) : busPlace cfg addr = some p ↔ (addr, p) ∈ cfg.busMap := by
  simp only [Config.wf, Bool.and_eq_true] at hc
  constructor
  · intro h
    simp only [busPlace, Option.map_eq_some_iff] at h
    obtain ⟨e, he, rfl⟩ := h
    have hk : e.1 = addr := by simpa using List.find?_some he
    subst hk
    exact List.mem_of_find?_eq_some he
  · intro h
    rw [busPlace, find_address cfg.busMap hc.2 (addr, p) h]
    rfl

end Sys2Proof.Machine
end

