-- ==== Sys2Proof/Laws/Layouts.lean ====
section
/-! SUPPORT. Field lists of a well-formed layout (R122): the widths a decode may rely on, and the field-by-field reading and writing of frame
data (R124, R128). -/

namespace Sys2Proof.Machine

/-! ### Widths -/

/-- The width of the fixed-width fields alone: what a read of the field list takes for granted. -/
def fixedPart : List FieldSpec → Nat
  | [] => 0
  | f :: fs => (if isFixed f then fw f else 0) + fixedPart fs

theorem fixedWidth_cons (f : FieldSpec) (fs : List FieldSpec) : fixedWidth (f :: fs) = fw f + fixedWidth fs := by simp [fixedWidth]

theorem fixedPart_le_fixedWidth (fs : List FieldSpec) : fixedPart fs ≤ fixedWidth fs := by
  induction fs with
  | nil => exact Nat.le_refl 0
  | cons f fs ih =>
    rw [fixedPart, fixedWidth_cons]
    split <;> omega

theorem fixedPart_eq_zero (fs : List FieldSpec) (h : fs.all (fun g => !isFixed g) = true) : fixedPart fs = 0 := by
  induction fs with
  | nil => rfl
  | cons f fs ih =>
    simp only [List.all_cons, Bool.and_eq_true, Bool.not_eq_true'] at h
    rw [fixedPart, h.1, ih h.2]
    rfl

theorem all_not_true_eq_nil (fs : List FieldSpec) (h : fs.all (fun _ => !true) = true) : fs = [] := by
  cases fs with
  | nil => rfl
  | cons f fs => simp at h

theorem noneAfter_cons (p q : FieldSpec → Bool) (f : FieldSpec) (fs : List FieldSpec) :
    noneAfter p q (f :: fs) = true ↔ (p f = true → fs.all (fun g => !q g) = true) ∧ noneAfter p q fs = true := by
  simp only [noneAfter, Bool.and_eq_true, Bool.or_eq_true, Bool.not_eq_true']
  cases p f <;> simp

/-- The bytes a field takes when it is fixed: its width, whatever its value. -/
theorem decodeField_consumes (cfg : Config) (i : Nat) (f : FieldSpec) (b rest : List Byte) (v : FieldVal) (t : Option Tag)
    (hf : isFixed f = true) (h : decodeField cfg i f b = .ok (v, t, rest)) : rest.length = b.length - fw f := by
  cases f with
  | CID | INT w | CODE t' | BYTES w =>
    simp only [decodeField, Except.ok.injEq, Prod.mk.injEq] at h
    obtain ⟨-, -, rfl⟩ := h
    simp [fw]
  | TEXT c q =>
    simp only [decodeField] at h
    split at h
    · simp only [Except.ok.injEq, Prod.mk.injEq] at h
      obtain ⟨-, -, rfl⟩ := h
      simp [fw]
    · cases h
  | VAR | PAYLOAD => exact absurd hf (by decide)

/-- A variable field reads its own length byte, so it needs no width of its own. -/
theorem decodeField_reads (cfg : Config) (i : Nat) (f : FieldSpec) (b rest : List Byte) (v : FieldVal) (t : Option Tag)
    (hw : isFixed f = true → fw f ≤ b.length) (h : decodeField cfg i f b = .ok (v, t, rest)) :
    fieldConforms f v ∧ t = fieldTag cfg f v ∧ ∃ e, encodeField f v = some e ∧ b = e ++ rest := by
  refine decodeField_ok cfg i f b rest v t ?_ h
  cases f with
  | CID | INT w | CODE t' | BYTES w | TEXT c q => exact hw rfl
  | PAYLOAD => exact Nat.zero_le _
  | VAR =>
    cases b with
    | nil => simp [decodeField] at h
    | cons k r => simp [fw]

/-! ### Reading a field list -/

theorem decodeFields_cons_ok (cfg : Config) (i : Nat) (f : FieldSpec) (fs : List FieldSpec) (b left : List Byte) (vals : List FieldVal)
    (tags : List (Option Tag)) (h : decodeFields cfg i (f :: fs) b = .ok (vals, tags, left)) :
    ∃ v t rest vs ts, decodeField cfg i f b = .ok (v, t, rest) ∧ decodeFields cfg (i + 1) fs rest = .ok (vs, ts, left)
      ∧ vals = v :: vs ∧ tags = t :: ts := by
  rw [decodeFields] at h
  split at h
  · cases h
  · rename_i v t rest hd
    split at h
    · cases h
    · rename_i vs ts left' hds
      cases h
      exact ⟨v, t, rest, vs, ts, hd, hds, rfl, rfl⟩

/-- What reading a field list says (R124): every value conforms, the tags are the lookups of the code fields, and the bytes read are the
encoding of the values. -/
theorem decodeFields_reads (cfg : Config) (i : Nat) (fs : List FieldSpec) (b left : List Byte) (vals : List FieldVal)
    (tags : List (Option Tag)) (hvar : noneAfter isVar isFixed fs = true) (hpay : noneAfter isPayload (fun _ => true) fs = true)
    (hw : fixedPart fs ≤ b.length) (h : decodeFields cfg i fs b = .ok (vals, tags, left)) :
    List.Forall₂ fieldConforms fs vals ∧ tags = List.zipWith (fieldTag cfg) fs vals
      ∧ ∃ e, encodeFields fs vals = some e ∧ b = e ++ left := by
  induction fs generalizing i b vals tags with
  | nil =>
    simp only [decodeFields, Except.ok.injEq, Prod.mk.injEq] at h
    obtain ⟨rfl, rfl, rfl⟩ := h
    exact ⟨.nil, rfl, [], rfl, rfl⟩
  | cons f fs ih =>
    obtain ⟨v, t, rest, vs, ts, hd, hds, rfl, rfl⟩ := decodeFields_cons_ok cfg i f fs b left vals tags h
    rw [noneAfter_cons] at hvar hpay
    rw [fixedPart] at hw
    have hwf : isFixed f = true → fw f ≤ b.length := by
      intro hf; rw [if_pos hf] at hw; omega
    obtain ⟨hc, ht, e, he, hb⟩ := decodeField_reads cfg i f b rest v t hwf hd
    have hrest : fixedPart fs ≤ rest.length := by
      cases f with
      | VAR => rw [fixedPart_eq_zero fs (hvar.1 rfl)]; exact Nat.zero_le _
      | PAYLOAD => rw [all_not_true_eq_nil fs (hpay.1 rfl)]; exact Nat.zero_le _
      | CID | INT w | CODE t' | BYTES w | TEXT c q =>
        have := decodeField_consumes cfg i _ b rest v t rfl hd
        rw [if_pos (by rfl)] at hw
        omega
    obtain ⟨hcs, hts, es, hes, hbs⟩ := ih (i + 1) rest vs ts hvar.2 hpay.2 hrest hds
    exact ⟨.cons hc hcs, by rw [ht, hts]; rfl, e ++ es, encodeFields_cons f fs v vs e es he hes, by rw [hb, hbs, List.append_assoc]⟩

/-- Reading the encoding of conforming values gives them back and leaves no byte over (R128, R141), when PAYLOAD is last. -/
theorem decodeFields_encodeFields (cfg : Config) (i : Nat) (fs : List FieldSpec) (vals : List FieldVal) (b : List Byte)
    (hpay : noneAfter isPayload (fun _ => true) fs = true) (hc : List.Forall₂ fieldConforms fs vals) (hb : encodeFields fs vals = some b) :
    decodeFields cfg i fs b = .ok (vals, List.zipWith (fieldTag cfg) fs vals, []) := by
  induction hc generalizing i b with
  | nil =>
    simp only [encodeFields, Option.some.injEq] at hb
    subst hb
    rfl
  | @cons f v fs vs hv hvs ih =>
    obtain ⟨e, es, he, hes, rfl⟩ := encodeFields_cons_inv f fs v vs b hb
    rw [noneAfter_cons] at hpay
    by_cases hf : f = .PAYLOAD
    · subst hf
      have hnil := all_not_true_eq_nil fs (hpay.1 rfl)
      subst hnil
      cases hvs
      cases v <;> simp only [fieldConforms] at hv
      simp only [encodeField, encodeFields, Option.some.injEq] at he hes
      subst he hes
      simp [decodeFields, decodeField, fieldTag]
    · obtain ⟨t, ht⟩ := decodeField_encodeField cfg i f v e es hf hv he
      have htag : t = fieldTag cfg f v := by
        refine (decodeField_reads cfg i f (e ++ es) es v t ?_ ht).2.1
        intro hfix
        by_contra hlt
        -- an encoding of a fixed field is as wide as the field
        have hl : e.length = fw f := by
          cases f <;> cases v <;> simp only [fieldConforms] at hv <;> simp only [encodeField, Option.some.injEq] at he <;> subst he
          case VAR.var => exact absurd hfix (by decide)
          case PAYLOAD.payload => exact absurd rfl hf
          all_goals simp [fw, beBytes_length]
          all_goals omega
        rw [List.length_append] at hlt
        omega
      rw [decodeFields, ht]
      simp only []
      rw [ih (i + 1) es hpay.2 hes, htag]
      rfl

/-- The decoder's field errors (R125), each of a field of its kind. -/
theorem decodeFields_error (cfg : Config) (i : Nat) (fs : List FieldSpec) (b : List Byte) (e : CommandError)
    (h : decodeFields cfg i fs b = .error e) :
    ∃ j, j < fs.length ∧ (((∃ c q, fs[j]? = some (.TEXT c q)) ∧ e = .fieldInvalid (i + j)) ∨ (fs[j]? = some .VAR ∧ e = .varFieldOverflow (i + j))) := by
  induction fs generalizing i b with
  | nil => cases h
  | cons f fs ih =>
    rw [decodeFields] at h
    split at h
    · rename_i e' he
      cases h
      refine ⟨0, by simp, ?_⟩
      rcases decodeField_error cfg i f b _ he with ⟨⟨c, q, rfl⟩, hf⟩ | ⟨rfl, hf⟩
      · exact .inl ⟨⟨c, q, rfl⟩, hf⟩
      · exact .inr ⟨rfl, hf⟩
    · split at h
      · rename_i e' he
        cases h
        obtain ⟨j, hj, h3⟩ := ih (i + 1) _ he
        refine ⟨j + 1, by simp only [List.length_cons]; omega, ?_⟩
        rw [show i + (j + 1) = i + 1 + j by omega]
        exact h3
      · cases h

theorem decodeField_nil (cfg : Config) (i : Nat) (f : FieldSpec) (v : FieldVal) (t : Option Tag) (rest : List Byte)
    (h : decodeField cfg i f [] = .ok (v, t, rest)) : rest = [] := by
  cases f <;> simp only [decodeField] at h
  case TEXT c q =>
    split at h <;> cases h
    exact List.drop_nil
  case VAR => cases h
  all_goals
    cases h
    first | rfl | exact List.drop_nil

theorem decodeFields_nil (cfg : Config) (i : Nat) (fs : List FieldSpec) (left : List Byte) (vals : List FieldVal) (tags : List (Option Tag))
    (h : decodeFields cfg i fs [] = .ok (vals, tags, left)) : left = [] := by
  induction fs generalizing i vals tags with
  | nil => cases h; rfl
  | cons f fs ih =>
    obtain ⟨v, t, rest, vs, ts, hd, hds, -, -⟩ := decodeFields_cons_ok cfg i f fs [] left vals tags h
    obtain rfl := decodeField_nil cfg i f v t rest hd
    exact ih (i + 1) vs ts hds

/-- A payload field leaves no byte over (R124): TRAILING_BYTES is an error of layouts without one. -/
theorem decodeFields_payload (cfg : Config) (i : Nat) (fs : List FieldSpec) (b left : List Byte) (vals : List FieldVal)
    (tags : List (Option Tag)) (hp : .PAYLOAD ∈ fs) (h : decodeFields cfg i fs b = .ok (vals, tags, left)) : left = [] := by
  induction fs generalizing i b vals tags with
  | nil => cases hp
  | cons f fs ih =>
    obtain ⟨v, t, rest, vs, ts, hd, hds, -, -⟩ := decodeFields_cons_ok cfg i f fs b left vals tags h
    rcases List.mem_cons.1 hp with rfl | hm
    · simp only [decodeField, Except.ok.injEq, Prod.mk.injEq] at hd
      obtain ⟨-, -, rfl⟩ := hd
      exact decodeFields_nil cfg (i + 1) fs left vs ts hds
    · exact ih (i + 1) rest vs ts hm hds

/-- An encoding is at least as long as the fixed widths, and exactly that long when every variable field and the payload are empty (R123). -/
theorem encodeFields_length (fs : List FieldSpec) (vals : List FieldVal) (b : List Byte) (hc : List.Forall₂ fieldConforms fs vals)
    (hb : encodeFields fs vals = some b) :
    fixedWidth fs ≤ b.length
      ∧ ((∀ x, FieldVal.var x ∈ vals ∨ FieldVal.payload x ∈ vals → x = []) → b.length = fixedWidth fs) := by
  induction hc generalizing b with
  | nil =>
    simp only [encodeFields, Option.some.injEq] at hb
    subst hb
    exact ⟨Nat.le_refl 0, fun _ => rfl⟩
  | @cons f v fs vs hv hvs ih =>
    obtain ⟨e, es, he, hes, rfl⟩ := encodeFields_cons_inv f fs v vs b hb
    obtain ⟨hle, heq⟩ := ih es hes
    have hf : fw f ≤ e.length ∧ ((∀ x, v = .var x ∨ v = .payload x → x = []) → e.length = fw f) := by
      cases f <;> cases v <;> simp only [fieldConforms] at hv <;> simp only [encodeField, Option.some.injEq] at he <;> subst he
      case VAR.var x => refine ⟨by simp [fw], fun h => ?_⟩; rw [h x (.inl rfl)]; rfl
      case PAYLOAD.payload x => refine ⟨by simp [fw], fun h => ?_⟩; rw [h x (.inr rfl)]; rfl
      all_goals simp [fw, beBytes_length]
      all_goals omega
    rw [fixedWidth_cons, List.length_append]
    refine ⟨by omega, fun h => ?_⟩
    have h1 := hf.2 (by rintro x (rfl | rfl) <;> exact h x (by simp))
    have h2 := heq (by rintro x (hx | hx) <;> exact h x (by simp [hx]))
    omega

/-! ### The decoder's checks, one by one (R125) -/

theorem decodeLayout_tooShort (cfg : Config) (L : Layout) (fd : List Byte) (h : fd.length + 4 < minlen L) :
    decodeLayout cfg L fd = .error .variantTooShort := by
  unfold decodeLayout
  rw [if_pos h]

theorem decodeLayout_wrongDiscriminator (cfg : Config) (L : Layout) (t : Byte) (body : List Byte)
    (hl : minlen L ≤ (t :: body).length + 4) (ht : t ≠ L.type) : decodeLayout cfg L (t :: body) = .error .wrongDiscriminator := by
  unfold decodeLayout
  rw [if_neg (Nat.not_lt.2 hl), if_pos (by exact ht)]

/-- On frame data of the layout's own discriminator, and long enough, the decode is that of the fields. -/
theorem decodeLayout_fields (cfg : Config) (L : Layout) (t : Byte) (body : List Byte) (hl : minlen L ≤ (t :: body).length + 4)
    (ht : t = L.type) :
    decodeLayout cfg L (t :: body) =
      (match decodeFields cfg 0 L.fields body with
        | .error e => .error e
        | .ok (vals, tags, left) => if left.isEmpty then .ok ({ type := t, vals := vals }, tags) else .error .trailingBytes) := by
  unfold decodeLayout
  rw [if_neg (Nat.not_lt.2 hl), if_neg (by rw [not_not]; exact ht)]
  rfl

/-! ### What well-formedness of a layout gives a decode -/

theorem layoutWf_parts (L : Layout) (h : layoutWf L = true) :
    noneAfter isVar isFixed L.fields = true ∧ noneAfter isPayload (fun _ => true) L.fields = true ∧ L.fields.length ≤ 255
      ∧ minlen L ≤ 65539 := by
  simp only [layoutWf, Bool.and_eq_true, decide_eq_true_eq] at h
  obtain ⟨⟨⟨⟨⟨⟨⟨-, -⟩, hv⟩, -⟩, hp⟩, hl⟩, hm⟩, -⟩ := h
  exact ⟨hv, hp, hl, hm⟩

/-- What an accepted decode says (R124, R125). -/
theorem decodeLayout_ok (cfg : Config) (L : Layout) (fd : List Byte) (r : Record) (tags : List (Option Tag))
    (h : decodeLayout cfg L fd = .ok (r, tags)) :
    minlen L ≤ fd.length + 4 ∧ r.type = L.type
      ∧ ∃ rest, fd = L.type :: rest ∧ decodeFields cfg 0 L.fields rest = .ok (r.vals, tags, []) := by
  unfold decodeLayout at h
  split at h
  · cases h
  · rename_i hlen
    split at h
    · cases h
    · rename_i htype
      split at h
      · cases h
      · rename_i vals tags' left hds
        split at h
        · rename_i hleft
          cases h
          have hne : fd ≠ [] := by rintro rfl; simp [minlen] at hlen; omega
          obtain ⟨x, xs, rfl⟩ := List.exists_cons_of_ne_nil hne
          have hx : x = L.type := not_not.1 htype
          have hl : left = [] := by simpa using hleft
          subst hx hl
          exact ⟨by omega, rfl, xs, rfl, hds⟩
        · cases h

/-- The decoder's errors in the order of R125: too short; then the discriminator; then the fields'; then bytes left over, of a layout without a
payload. -/
theorem decodeLayout_error (cfg : Config) (L : Layout) (fd : List Byte) (e : CommandError) (h : decodeLayout cfg L fd = .error e) :
    (fd.length + 4 < minlen L ∧ e = .variantTooShort) ∨ (fd.headD 0#8 ≠ L.type ∧ e = .wrongDiscriminator)
      ∨ (∃ j, j < L.fields.length ∧ (((∃ c q, L.fields[j]? = some (.TEXT c q)) ∧ e = .fieldInvalid j)
          ∨ (L.fields[j]? = some .VAR ∧ e = .varFieldOverflow j)))
      ∨ (.PAYLOAD ∉ L.fields ∧ e = .trailingBytes) := by
  unfold decodeLayout at h
  split at h
  · rename_i hl; cases h; exact .inl ⟨hl, rfl⟩
  · split at h
    · rename_i ht; cases h; exact .inr (.inl ⟨ht, rfl⟩)
    · split at h
      · rename_i e' he
        cases h
        obtain ⟨j, hj, h3⟩ := decodeFields_error cfg 0 L.fields _ _ he
        rw [Nat.zero_add] at h3
        exact .inr (.inr (.inl ⟨j, hj, h3⟩))
      · rename_i vals tags left hd
        split at h
        · cases h
        · rename_i hne
          cases h
          refine .inr (.inr (.inr ⟨fun hp => hne ?_, rfl⟩))
          rw [decodeFields_payload cfg 0 L.fields _ left vals tags hp hd]
          rfl

/-- A decoded record has passed every field constraint and carries its tags (R150, R151): what CONSTRUCT would find of it. -/
theorem decodeLayout_conforms (cfg : Config) (L : Layout) (fd : List Byte) (r : Record) (tags : List (Option Tag))
    (hL : layoutWf L = true) (h : decodeLayout cfg L fd = .ok (r, tags)) :
    List.Forall₂ fieldConforms L.fields r.vals ∧ tags = recordTags cfg L r
      ∧ ∃ b, encodeFields L.fields r.vals = some b ∧ fd = r.type :: b := by
  obtain ⟨hlen, htype, rest, rfl, hds⟩ := decodeLayout_ok cfg L fd r tags h
  obtain ⟨hv, hp, -, -⟩ := layoutWf_parts L hL
  have hw : fixedPart L.fields ≤ rest.length := by
    have := fixedPart_le_fixedWidth L.fields
    simp only [minlen, List.length_cons] at hlen
    omega
  obtain ⟨hc, ht, e, he, hb⟩ := decodeFields_reads cfg 0 L.fields rest [] r.vals tags hv hp hw hds
  exact ⟨hc, ht, e, he, by rw [htype, hb, List.append_nil]⟩

/-! ### Records -/

/-- Conforming values have the layout's kinds (R151, R153). -/
theorem conforms_kinds (fs : List FieldSpec) (vs : List FieldVal) (h : List.Forall₂ fieldConforms fs vs) :
    List.Forall₂ (fun f v => v.kind = specKind f) fs vs := h.imp fun f v hv => fieldConforms_kind f v hv

theorem encodeLayout_some (L : Layout) (r : Record) (fd : List Byte) (h : encodeLayout L r = some fd) :
    ∃ b, encodeFields L.fields r.vals = some b ∧ fd = r.type :: b := by
  unfold encodeLayout at h
  split at h
  · rename_i b hb; cases h; exact ⟨b, hb, rfl⟩
  · cases h

/-- What is left of CONSTRUCT's checks when every value conforms: the length of the frame data (R151 step 3). -/
theorem constructCheck_of_conforms (cfg : Config) (r : Record) (L : Layout) (hr : registered cfg r.type = some L)
    (hc : List.Forall₂ fieldConforms L.fields r.vals) :
    constructCheck cfg r = if ((encodeLayout L r).getD []).length ≤ 65535 then .ok (L, recordTags cfg L r) else .error .frameTooLong := by
  obtain ⟨h1, h2⟩ := (checks_none_iff 0 L.fields r.vals).2 hc
  simp only [constructCheck, hr, h1, h2]

/-- What an accepted CONSTRUCT says of its record (R150 to R155). -/
theorem constructCheck_ok (cfg : Config) (r : Record) (L : Layout) (tags : List (Option Tag)) (h : constructCheck cfg r = .ok (L, tags)) :
    registered cfg r.type = some L ∧ List.Forall₂ fieldConforms L.fields r.vals ∧ tags = recordTags cfg L r
      ∧ ∃ fd, encodeLayout L r = some fd ∧ fd.length ≤ 65535 := by
  unfold constructCheck at h
  split at h
  · cases h
  · rename_i L' hr
    split at h
    · cases h
    · rename_i hs
      split at h
      · cases h
      · rename_i hf
        split at h
        · rename_i hl
          cases h
          have hc := (checks_none_iff 0 L.fields r.vals).1 ⟨hs, hf⟩
          obtain ⟨b, hb⟩ := encodeFields_isSome _ _ (conforms_kinds _ _ hc)
          have he : encodeLayout L r = some (r.type :: b) := by simp [encodeLayout, hb]
          rw [he] at hl
          exact ⟨hr, hc, rfl, _, he, hl⟩
        · cases h

end Sys2Proof.Machine
end

