-- ==== Sys2Proof/Laws/State.lean ====
section
/-! SUPPORT. One lemma per field of State for each operation that writes State (Ops.lean, HostPort.lean), and per field of Status for each
of its updates (Flags.lean). -/

namespace Sys2Proof.Machine

/-! ### State.succeed -/

@[simp] theorem State.succeed_config (s : State) (r : Word) : (s.succeed r).config = s.config := rfl
@[simp] theorem State.succeed_status (s : State) (r : Word) : (s.succeed r).status = s.status.succeeded := rfl
@[simp] theorem State.succeed_result (s : State) (r : Word) : (s.succeed r).result = r := rfl
@[simp] theorem State.succeed_olen (s : State) (r : Word) : (s.succeed r).olen = s.olen := rfl
@[simp] theorem State.succeed_ilen (s : State) (r : Word) : (s.succeed r).ilen = s.ilen := rfl
@[simp] theorem State.succeed_latched (s : State) (r : Word) : (s.succeed r).latched = none := rfl
@[simp] theorem State.succeed_ibuf (s : State) (r : Word) : (s.succeed r).ibuf = s.ibuf := rfl
@[simp] theorem State.succeed_obuf (s : State) (r : Word) : (s.succeed r).obuf = s.obuf := rfl
@[simp] theorem State.succeed_prec (s : State) (r : Word) : (s.succeed r).prec = s.prec := rfl
@[simp] theorem State.succeed_latencyLeft (s : State) (r : Word) : (s.succeed r).latencyLeft = 0 := rfl
@[simp] theorem State.succeed_draws (s : State) (r : Word) : (s.succeed r).draws = s.draws := rfl
@[simp] theorem State.succeed_pending (s : State) (r : Word) : (s.succeed r).pending = s.pending := rfl
@[simp] theorem State.succeed_received (s : State) (r : Word) : (s.succeed r).received = s.received := rfl

/-! ### State.fail -/

@[simp] theorem State.fail_config (s : State) (e : CommandError) : (s.fail e).config = s.config := rfl
@[simp] theorem State.fail_status (s : State) (e : CommandError) : (s.fail e).status = s.status.failed e := rfl
@[simp] theorem State.fail_result (s : State) (e : CommandError) : (s.fail e).result = 0#32 := rfl
@[simp] theorem State.fail_olen (s : State) (e : CommandError) : (s.fail e).olen = s.olen := rfl
@[simp] theorem State.fail_ilen (s : State) (e : CommandError) : (s.fail e).ilen = s.ilen := rfl
@[simp] theorem State.fail_latched (s : State) (e : CommandError) : (s.fail e).latched = none := rfl
@[simp] theorem State.fail_ibuf (s : State) (e : CommandError) : (s.fail e).ibuf = s.ibuf := rfl
@[simp] theorem State.fail_obuf (s : State) (e : CommandError) : (s.fail e).obuf = s.obuf := rfl
@[simp] theorem State.fail_prec (s : State) (e : CommandError) : (s.fail e).prec = s.prec := rfl
@[simp] theorem State.fail_latencyLeft (s : State) (e : CommandError) : (s.fail e).latencyLeft = 0 := rfl
@[simp] theorem State.fail_draws (s : State) (e : CommandError) : (s.fail e).draws = s.draws := rfl
@[simp] theorem State.fail_pending (s : State) (e : CommandError) : (s.fail e).pending = s.pending := rfl
@[simp] theorem State.fail_received (s : State) (e : CommandError) : (s.fail e).received = s.received := rfl

/-! ### State.setObuf -/

@[simp] theorem State.setObuf_config (s : State) (b : List Byte) : (s.setObuf b).config = s.config := rfl
@[simp] theorem State.setObuf_status (s : State) (b : List Byte) : (s.setObuf b).status = s.status := rfl
@[simp] theorem State.setObuf_result (s : State) (b : List Byte) : (s.setObuf b).result = s.result := rfl
@[simp] theorem State.setObuf_olen (s : State) (b : List Byte) : (s.setObuf b).olen = BitVec.ofNat 32 b.length := rfl
@[simp] theorem State.setObuf_ilen (s : State) (b : List Byte) : (s.setObuf b).ilen = s.ilen := rfl
@[simp] theorem State.setObuf_latched (s : State) (b : List Byte) : (s.setObuf b).latched = s.latched := rfl
@[simp] theorem State.setObuf_ibuf (s : State) (b : List Byte) : (s.setObuf b).ibuf = s.ibuf := rfl
@[simp] theorem State.setObuf_obuf (s : State) (b : List Byte) : (s.setObuf b).obuf = b := rfl
@[simp] theorem State.setObuf_prec (s : State) (b : List Byte) : (s.setObuf b).prec = s.prec := rfl
@[simp] theorem State.setObuf_latencyLeft (s : State) (b : List Byte) : (s.setObuf b).latencyLeft = s.latencyLeft := rfl
@[simp] theorem State.setObuf_draws (s : State) (b : List Byte) : (s.setObuf b).draws = s.draws := rfl
@[simp] theorem State.setObuf_pending (s : State) (b : List Byte) : (s.setObuf b).pending = s.pending := rfl
@[simp] theorem State.setObuf_received (s : State) (b : List Byte) : (s.setObuf b).received = s.received := rfl

/-! ### State.setIbuf -/

@[simp] theorem State.setIbuf_config (s : State) (b : List Byte) : (s.setIbuf b).config = s.config := rfl
@[simp] theorem State.setIbuf_status (s : State) (b : List Byte) : (s.setIbuf b).status = s.status := rfl
@[simp] theorem State.setIbuf_result (s : State) (b : List Byte) : (s.setIbuf b).result = s.result := rfl
@[simp] theorem State.setIbuf_olen (s : State) (b : List Byte) : (s.setIbuf b).olen = s.olen := rfl
@[simp] theorem State.setIbuf_ilen (s : State) (b : List Byte) : (s.setIbuf b).ilen = BitVec.ofNat 32 b.length := rfl
@[simp] theorem State.setIbuf_latched (s : State) (b : List Byte) : (s.setIbuf b).latched = s.latched := rfl
@[simp] theorem State.setIbuf_ibuf (s : State) (b : List Byte) : (s.setIbuf b).ibuf = b := rfl
@[simp] theorem State.setIbuf_obuf (s : State) (b : List Byte) : (s.setIbuf b).obuf = s.obuf := rfl
@[simp] theorem State.setIbuf_prec (s : State) (b : List Byte) : (s.setIbuf b).prec = s.prec := rfl
@[simp] theorem State.setIbuf_latencyLeft (s : State) (b : List Byte) : (s.setIbuf b).latencyLeft = s.latencyLeft := rfl
@[simp] theorem State.setIbuf_draws (s : State) (b : List Byte) : (s.setIbuf b).draws = s.draws := rfl
@[simp] theorem State.setIbuf_pending (s : State) (b : List Byte) : (s.setIbuf b).pending = s.pending := rfl
@[simp] theorem State.setIbuf_received (s : State) (b : List Byte) : (s.setIbuf b).received = s.received := rfl

/-! ### State.setPrec -/

@[simp] theorem State.setPrec_config (s : State) (p : Prec) : (s.setPrec p).config = s.config := rfl
@[simp] theorem State.setPrec_status (s : State) (p : Prec) : (s.setPrec p).status = s.status := rfl
@[simp] theorem State.setPrec_result (s : State) (p : Prec) : (s.setPrec p).result = s.result := rfl
@[simp] theorem State.setPrec_olen (s : State) (p : Prec) : (s.setPrec p).olen = s.olen := rfl
@[simp] theorem State.setPrec_ilen (s : State) (p : Prec) : (s.setPrec p).ilen = s.ilen := rfl
@[simp] theorem State.setPrec_latched (s : State) (p : Prec) : (s.setPrec p).latched = s.latched := rfl
@[simp] theorem State.setPrec_ibuf (s : State) (p : Prec) : (s.setPrec p).ibuf = s.ibuf := rfl
@[simp] theorem State.setPrec_obuf (s : State) (p : Prec) : (s.setPrec p).obuf = s.obuf := rfl
@[simp] theorem State.setPrec_prec (s : State) (p : Prec) : (s.setPrec p).prec = p := rfl
@[simp] theorem State.setPrec_latencyLeft (s : State) (p : Prec) : (s.setPrec p).latencyLeft = s.latencyLeft := rfl
@[simp] theorem State.setPrec_draws (s : State) (p : Prec) : (s.setPrec p).draws = s.draws := rfl
@[simp] theorem State.setPrec_pending (s : State) (p : Prec) : (s.setPrec p).pending = s.pending := rfl
@[simp] theorem State.setPrec_received (s : State) (p : Prec) : (s.setPrec p).received = s.received := rfl

/-! ### State.accept -/

@[simp] theorem State.accept_config (s : State) (w : Word) : (s.accept w).config = s.config := rfl
@[simp] theorem State.accept_status (s : State) (w : Word) : (s.accept w).status = s.status.accepted := rfl
@[simp] theorem State.accept_result (s : State) (w : Word) : (s.accept w).result = s.result := rfl
@[simp] theorem State.accept_olen (s : State) (w : Word) : (s.accept w).olen = s.olen := rfl
@[simp] theorem State.accept_ilen (s : State) (w : Word) : (s.accept w).ilen = s.ilen := rfl
@[simp] theorem State.accept_latched (s : State) (w : Word) : (s.accept w).latched = some w := rfl
@[simp] theorem State.accept_ibuf (s : State) (w : Word) : (s.accept w).ibuf = s.ibuf := rfl
@[simp] theorem State.accept_obuf (s : State) (w : Word) : (s.accept w).obuf = s.obuf := rfl
@[simp] theorem State.accept_prec (s : State) (w : Word) : (s.accept w).prec = s.prec := rfl
@[simp] theorem State.accept_latencyLeft (s : State) (w : Word) : (s.accept w).latencyLeft = Config.latency s.draws := rfl
@[simp] theorem State.accept_draws (s : State) (w : Word) : (s.accept w).draws = s.draws + 1 := rfl
@[simp] theorem State.accept_pending (s : State) (w : Word) : (s.accept w).pending = s.pending := rfl
@[simp] theorem State.accept_received (s : State) (w : Word) : (s.accept w).received = s.received := rfl

/-! ### State.latch -/

@[simp] theorem State.latch_config (s : State) (w : Word) : (s.latch w).config = s.config := rfl
@[simp] theorem State.latch_status (s : State) (w : Word) : (s.latch w).status = s.status.accepted := rfl
@[simp] theorem State.latch_result (s : State) (w : Word) : (s.latch w).result = s.result := rfl
@[simp] theorem State.latch_olen (s : State) (w : Word) : (s.latch w).olen = s.olen := rfl
@[simp] theorem State.latch_ilen (s : State) (w : Word) : (s.latch w).ilen = s.ilen := rfl
@[simp] theorem State.latch_latched (s : State) (w : Word) : (s.latch w).latched = some w := rfl
@[simp] theorem State.latch_ibuf (s : State) (w : Word) : (s.latch w).ibuf = s.ibuf := rfl
@[simp] theorem State.latch_obuf (s : State) (w : Word) : (s.latch w).obuf = s.obuf := rfl
@[simp] theorem State.latch_prec (s : State) (w : Word) : (s.latch w).prec = s.prec := rfl
@[simp] theorem State.latch_latencyLeft (s : State) (w : Word) : (s.latch w).latencyLeft = 0 := rfl
@[simp] theorem State.latch_draws (s : State) (w : Word) : (s.latch w).draws = s.draws := rfl
@[simp] theorem State.latch_pending (s : State) (w : Word) : (s.latch w).pending = s.pending := rfl
@[simp] theorem State.latch_received (s : State) (w : Word) : (s.latch w).received = s.received := rfl

/-! ### State.drop -/

@[simp] theorem State.drop_config (s : State) : (s.drop).config = s.config := rfl
@[simp] theorem State.drop_status (s : State) : (s.drop).status = s.status.overrun := rfl
@[simp] theorem State.drop_result (s : State) : (s.drop).result = s.result := rfl
@[simp] theorem State.drop_olen (s : State) : (s.drop).olen = s.olen := rfl
@[simp] theorem State.drop_ilen (s : State) : (s.drop).ilen = s.ilen := rfl
@[simp] theorem State.drop_latched (s : State) : (s.drop).latched = s.latched := rfl
@[simp] theorem State.drop_ibuf (s : State) : (s.drop).ibuf = s.ibuf := rfl
@[simp] theorem State.drop_obuf (s : State) : (s.drop).obuf = s.obuf := rfl
@[simp] theorem State.drop_prec (s : State) : (s.drop).prec = s.prec := rfl
@[simp] theorem State.drop_latencyLeft (s : State) : (s.drop).latencyLeft = s.latencyLeft := rfl
@[simp] theorem State.drop_draws (s : State) : (s.drop).draws = s.draws := rfl
@[simp] theorem State.drop_pending (s : State) : (s.drop).pending = s.pending := rfl
@[simp] theorem State.drop_received (s : State) : (s.drop).received = s.received := rfl

/-! ### State.receive -/

@[simp] theorem State.receive_config (s : State) (v : ReadValue) : (s.receive v).config = s.config := rfl
@[simp] theorem State.receive_status (s : State) (v : ReadValue) : (s.receive v).status = s.status := rfl
@[simp] theorem State.receive_result (s : State) (v : ReadValue) : (s.receive v).result = s.result := rfl
@[simp] theorem State.receive_olen (s : State) (v : ReadValue) : (s.receive v).olen = s.olen := rfl
@[simp] theorem State.receive_ilen (s : State) (v : ReadValue) : (s.receive v).ilen = s.ilen := rfl
@[simp] theorem State.receive_latched (s : State) (v : ReadValue) : (s.receive v).latched = s.latched := rfl
@[simp] theorem State.receive_ibuf (s : State) (v : ReadValue) : (s.receive v).ibuf = s.ibuf := rfl
@[simp] theorem State.receive_obuf (s : State) (v : ReadValue) : (s.receive v).obuf = s.obuf := rfl
@[simp] theorem State.receive_prec (s : State) (v : ReadValue) : (s.receive v).prec = s.prec := rfl
@[simp] theorem State.receive_latencyLeft (s : State) (v : ReadValue) : (s.receive v).latencyLeft = s.latencyLeft := rfl
@[simp] theorem State.receive_draws (s : State) (v : ReadValue) : (s.receive v).draws = s.draws := rfl
@[simp] theorem State.receive_pending (s : State) (v : ReadValue) : (s.receive v).pending = s.pending := rfl
@[simp] theorem State.receive_received (s : State) (v : ReadValue) : (s.receive v).received = v :: s.received := rfl

/-! ### State.receiveFree -/

@[simp] theorem State.receiveFree_config (s : State) (v : Nat → ReadValue) : (s.receiveFree v).config = s.config := rfl
@[simp] theorem State.receiveFree_status (s : State) (v : Nat → ReadValue) : (s.receiveFree v).status = s.status := rfl
@[simp] theorem State.receiveFree_result (s : State) (v : Nat → ReadValue) : (s.receiveFree v).result = s.result := rfl
@[simp] theorem State.receiveFree_olen (s : State) (v : Nat → ReadValue) : (s.receiveFree v).olen = s.olen := rfl
@[simp] theorem State.receiveFree_ilen (s : State) (v : Nat → ReadValue) : (s.receiveFree v).ilen = s.ilen := rfl
@[simp] theorem State.receiveFree_latched (s : State) (v : Nat → ReadValue) : (s.receiveFree v).latched = s.latched := rfl
@[simp] theorem State.receiveFree_ibuf (s : State) (v : Nat → ReadValue) : (s.receiveFree v).ibuf = s.ibuf := rfl
@[simp] theorem State.receiveFree_obuf (s : State) (v : Nat → ReadValue) : (s.receiveFree v).obuf = s.obuf := rfl
@[simp] theorem State.receiveFree_prec (s : State) (v : Nat → ReadValue) : (s.receiveFree v).prec = s.prec := rfl
@[simp] theorem State.receiveFree_latencyLeft (s : State) (v : Nat → ReadValue) : (s.receiveFree v).latencyLeft = s.latencyLeft := rfl
@[simp] theorem State.receiveFree_draws (s : State) (v : Nat → ReadValue) : (s.receiveFree v).draws = s.draws + 1 := rfl
@[simp] theorem State.receiveFree_pending (s : State) (v : Nat → ReadValue) : (s.receiveFree v).pending = s.pending := rfl
@[simp] theorem State.receiveFree_received (s : State) (v : Nat → ReadValue) : (s.receiveFree v).received = v s.draws :: s.received := rfl

/-! ### Status.accepted -/

@[simp] theorem Status.accepted_busy (st : Status) : (st.accepted).busy = true := rfl
@[simp] theorem Status.accepted_done (st : Status) : (st.accepted).done = false := rfl
@[simp] theorem Status.accepted_err (st : Status) : (st.accepted).err = false := rfl
@[simp] theorem Status.accepted_ovr (st : Status) : (st.accepted).ovr = st.ovr := rfl
@[simp] theorem Status.accepted_eclass (st : Status) : (st.accepted).eclass = 0#4 := rfl
@[simp] theorem Status.accepted_edetail (st : Status) : (st.accepted).edetail = 0#8 := rfl
@[simp] theorem Status.accepted_earg (st : Status) : (st.accepted).earg = 0#8 := rfl

/-! ### Status.succeeded -/

@[simp] theorem Status.succeeded_busy (st : Status) : (st.succeeded).busy = false := rfl
@[simp] theorem Status.succeeded_done (st : Status) : (st.succeeded).done = true := rfl
@[simp] theorem Status.succeeded_err (st : Status) : (st.succeeded).err = false := rfl
@[simp] theorem Status.succeeded_ovr (st : Status) : (st.succeeded).ovr = st.ovr := rfl
@[simp] theorem Status.succeeded_eclass (st : Status) : (st.succeeded).eclass = 0#4 := rfl
@[simp] theorem Status.succeeded_edetail (st : Status) : (st.succeeded).edetail = 0#8 := rfl
@[simp] theorem Status.succeeded_earg (st : Status) : (st.succeeded).earg = 0#8 := rfl

/-! ### Status.failed -/

@[simp] theorem Status.failed_busy (st : Status) (e : CommandError) : (st.failed e).busy = false := rfl
@[simp] theorem Status.failed_done (st : Status) (e : CommandError) : (st.failed e).done = true := rfl
@[simp] theorem Status.failed_err (st : Status) (e : CommandError) : (st.failed e).err = true := rfl
@[simp] theorem Status.failed_ovr (st : Status) (e : CommandError) : (st.failed e).ovr = st.ovr := rfl
@[simp] theorem Status.failed_eclass (st : Status) (e : CommandError) : (st.failed e).eclass = e.eclass := rfl
@[simp] theorem Status.failed_edetail (st : Status) (e : CommandError) : (st.failed e).edetail = e.edetail := rfl
@[simp] theorem Status.failed_earg (st : Status) (e : CommandError) : (st.failed e).earg = e.earg := rfl

/-! ### Status.overrun -/

@[simp] theorem Status.overrun_busy (st : Status) : (st.overrun).busy = st.busy := rfl
@[simp] theorem Status.overrun_done (st : Status) : (st.overrun).done = st.done := rfl
@[simp] theorem Status.overrun_err (st : Status) : (st.overrun).err = st.err := rfl
@[simp] theorem Status.overrun_ovr (st : Status) : (st.overrun).ovr = true := rfl
@[simp] theorem Status.overrun_eclass (st : Status) : (st.overrun).eclass = st.eclass := rfl
@[simp] theorem Status.overrun_edetail (st : Status) : (st.overrun).edetail = st.edetail := rfl
@[simp] theorem Status.overrun_earg (st : Status) : (st.overrun).earg = st.earg := rfl

/-! ### Status.clearOvr -/

@[simp] theorem Status.clearOvr_busy (st : Status) : (st.clearOvr).busy = st.busy := rfl
@[simp] theorem Status.clearOvr_done (st : Status) : (st.clearOvr).done = st.done := rfl
@[simp] theorem Status.clearOvr_err (st : Status) : (st.clearOvr).err = st.err := rfl
@[simp] theorem Status.clearOvr_ovr (st : Status) : (st.clearOvr).ovr = false := rfl
@[simp] theorem Status.clearOvr_eclass (st : Status) : (st.clearOvr).eclass = st.eclass := rfl
@[simp] theorem Status.clearOvr_edetail (st : Status) : (st.clearOvr).edetail = st.edetail := rfl
@[simp] theorem Status.clearOvr_earg (st : Status) : (st.clearOvr).earg = st.earg := rfl

end Sys2Proof.Machine
end

