-- ==== Sys2Proof/Laws/Ops.lean ====
section
/-! SUPPORT. What the shared operations and exec can do, said once: the completions, the router, the buffers' canonical form. -/

namespace Sys2Proof.Machine

/-! ### Errors -/

/-- Every error a command can complete with has a pair that R191 lists. -/
theorem legalError_of_error (e : CommandError) : legalError e.eclass.toNat e.edetail.toNat = true := by
  cases e <;> rfl

/-- ERR = 1 exactly when ECLASS ≠ 0 (R19). -/
theorem eclass_ne_zero (e : CommandError) : (e.eclass != 0#4) = true := by
  cases e <;> rfl

/-! ### Operations that finish a command -/

theorem finishBytes_ok (s : State) (b : List Byte) (value : List Byte → Word) :
    s.finishBytes (.ok b) value = (s.setObuf b).succeed (value b) := rfl

theorem finishBytes_error (s : State) (e : CommandError) (value : List Byte → Word) :
    s.finishBytes (.error e) value = (s.setObuf []).fail e := rfl

theorem finishRecord_ok (s : State) (L : Layout) (r : Record) (tags : List (Option Tag)) :
    s.finishRecord L (.ok (r, tags)) = (s.setPrec { record := some r, tags := tags, valid := true }).succeed (recordResult L r) := rfl

theorem finishRecord_error (s : State) (L : Layout) (e : CommandError) : s.finishRecord L (.error e) = s.failRecord e := rfl

theorem runDecoder_ok (s : State) (L : Layout) (fd : List Byte) (r : Record) (tags : List (Option Tag))
    (h : decodeLayout s.config L fd = .ok (r, tags)) :
    s.runDecoder L fd = (s.setPrec { record := some r, tags := tags, valid := true }).succeed (recordResult L r) := by
  rw [State.runDecoder, h, finishRecord_ok]

theorem runDecoder_error (s : State) (L : Layout) (fd : List Byte) (e : CommandError) (h : decodeLayout s.config L fd = .error e) :
    s.runDecoder L fd = s.failRecord e := by
  rw [State.runDecoder, h, finishRecord_error]

theorem dispatch_none (s : State) (t : Byte) (fd : List Byte) (h : registered s.config t = none) :
    s.dispatch t fd = s.failRecord (.notSupported t) := by
  simp only [State.dispatch, h]

theorem dispatch_some (s : State) (t : Byte) (fd : List Byte) (L : Layout) (h : registered s.config t = some L) :
    s.dispatch t fd = s.runDecoder L fd := by
  simp only [State.dispatch, h]

theorem runDecoder_cases (s : State) (L : Layout) (fd : List Byte) :
    (∃ r tags, decodeLayout s.config L fd = .ok (r, tags)
        ∧ s.runDecoder L fd = (s.setPrec { record := some r, tags := tags, valid := true }).succeed (recordResult L r))
      ∨ (∃ e, decodeLayout s.config L fd = .error e ∧ s.runDecoder L fd = s.failRecord e) := by
  rcases h : decodeLayout s.config L fd with e | ⟨r, tags⟩
  · exact .inr ⟨e, rfl, runDecoder_error s L fd e h⟩
  · exact .inl ⟨r, tags, rfl, runDecoder_ok s L fd r tags h⟩

theorem dispatch_cases (s : State) (t : Byte) (fd : List Byte) :
    (∃ L r tags, registered s.config t = some L ∧ decodeLayout s.config L fd = .ok (r, tags)
        ∧ s.dispatch t fd = (s.setPrec { record := some r, tags := tags, valid := true }).succeed (recordResult L r))
      ∨ (∃ e, s.dispatch t fd = s.failRecord e) := by
  cases h : registered s.config t with
  | none => exact .inr ⟨_, dispatch_none s t fd h⟩
  | some L =>
    rw [dispatch_some s t fd L h]
    rcases runDecoder_cases s L fd with ⟨r, tags, hd, hr⟩ | ⟨e, -, hr⟩
    · exact .inl ⟨L, r, tags, rfl, hd, hr⟩
    · exact .inr ⟨e, hr⟩

/-! ### What an instruction can do -/

/-- An output fits OBUF (R46), in a legal configuration and with IBUF within its capacity. -/
def OutputFits (s : State) (b : List Byte) : Prop :=
  s.config.wf = true → s.ibuf.length ≤ s.config.ibufCap → b.length ≤ s.config.obufCap

/-- What is at most twice IBUF fits. -/
theorem outputFits_of_le (s : State) (b : List Byte) (h : b.length ≤ 2 * s.ibuf.length) : OutputFits s b := by
  intro hc hi
  have := config_capacities s.config hc
  omega

/-- Every frame of at most 65535 bytes of frame data fits. -/
theorem outputFits_wrapFrame (s : State) (fd : List Byte) (m : Mode) (h : fd.length ≤ 65535) : OutputFits s (wrapFrame fd m) := by
  intro hc _
  have := config_capacities s.config hc
  have := wrapFrame_length_le fd m h
  omega

theorem encodeOutput_of_le (cfg : Config) (m : Mode) (fd : List Byte) (h : fd.length ≤ 65535) : encodeOutput cfg m fd = wrapFrame fd m :=
  if_pos (.inl h)

/-- ENCODE's output always fits (R41). -/
theorem outputFits_encodeOutput (s : State) (m : Mode) (fd : List Byte) : OutputFits s (encodeOutput s.config m fd) := by
  by_cases h : fd.length ≤ 65535
  · rw [encodeOutput_of_le _ _ _ h]
    exact outputFits_wrapFrame s fd m h
  · intro _ _
    unfold encodeOutput
    split
    · omega
    · exact List.length_take_le _ _

/-- The completions of an instruction (R28, R196): one of the commands' outputs is written whole, and then STATUS and RESULT; or, on an
error, that output is cleared. -/
inductive Completion (i : Instr) (s : State) : State → Prop
  | plain (r : Word) (ho : writesObuf i = false) (hp : writesPrec i = false) (hc : i ≠ .clear) : Completion i s (s.succeed r)
  | plainError (e : CommandError) (ho : writesObuf i = false) (hp : writesPrec i = false) : Completion i s (s.fail e)
  | clear (hi : i = .clear) : Completion i s ({ s with status := s.status.clearOvr }.succeed 0#32)
  | bytes (b : List Byte) (r : Word) (ho : writesObuf i = true) (hb : OutputFits s b) : Completion i s ((s.setObuf b).succeed r)
  | bytesError (e : CommandError) (ho : writesObuf i = true) : Completion i s ((s.setObuf []).fail e)
  | record (r : Record) (tags : List (Option Tag)) (w : Word) (hp : writesPrec i = true) :
      Completion i s ((s.setPrec { record := some r, tags := tags, valid := true }).succeed w)
  | recordError (e : CommandError) (hp : writesPrec i = true) (hi : i ≠ .construct) : Completion i s (s.failRecord e)
  | constructError (vals : List FieldVal) (e : CommandError) (hi : i = .construct)
      (hv : vals = (match s.prec.record with
        | none => []
        | some r => r.vals)) : Completion i s (s.failConstruct vals e)

theorem finishBytes_completion (i : Instr) (s : State) (out : Except CommandError (List Byte)) (value : List Byte → Word)
    (h : writesObuf i = true) (hb : ∀ b, out = .ok b → OutputFits s b) : Completion i s (s.finishBytes out value) := by
  cases out with
  | ok b => exact .bytes b _ h (hb b rfl)
  | error e => exact .bytesError e h

theorem runDecoder_completion (i : Instr) (s : State) (L : Layout) (fd : List Byte) (hp : writesPrec i = true) (hi : i ≠ .construct) :
    Completion i s (s.runDecoder L fd) := by
  rcases runDecoder_cases s L fd with ⟨r, tags, -, h⟩ | ⟨e, -, h⟩ <;> rw [h]
  · exact .record r tags _ hp
  · exact .recordError e hp hi

theorem dispatch_completion (i : Instr) (s : State) (t : Byte) (fd : List Byte) (hp : writesPrec i = true) (hi : i ≠ .construct) :
    Completion i s (s.dispatch t fd) := by
  rcases dispatch_cases s t fd with ⟨L, r, tags, -, -, h⟩ | ⟨e, h⟩ <;> rw [h]
  · exact .record r tags _ hp
  · exact .recordError e hp hi

/-- Every next state that exec answers is one of the completions. -/
theorem exec_completion (i : Instr) (s t : State) (h : exec i s = .next t) : Completion i s t := by
  cases i with
  | chksum => cases h; exact .plain _ rfl rfl (by simp)
  | escape => cases h; exact .bytes _ _ rfl (outputFits_of_le s _ (escape_length_le s.ibuf))
  | unescape =>
    cases h
    refine finishBytes_completion _ s _ _ rfl fun b hb => outputFits_of_le s b ?_
    have := unescape_length_le _ _ hb
    omega
  | validate m =>
    cases h
    refine finishBytes_completion _ s _ _ rfl fun b hb => outputFits_of_le s b ?_
    have := envelope_length_le _ _ _ hb
    omega
  | wrap m =>
    cases h
    refine finishBytes_completion _ s _ _ rfl fun b hb => ?_
    unfold wrapOutput at hb
    split at hb
    · split at hb
      · rename_i hl
        cases hb
        exact outputFits_wrapFrame s _ m hl
      · cases hb
    · cases hb
  | build m =>
    simp only [exec, execBuild] at h
    split at h <;> cases h
    · exact .recordError _ rfl (by simp)
    · exact dispatch_completion _ s _ _ rfl (by simp)
  | decodev m v =>
    simp only [exec, execDecodev] at h
    split at h <;> cases h
    · exact dispatch_completion _ s _ _ rfl (by simp)
    · exact .recordError _ rfl (by simp)
  | construct =>
    simp only [exec, execConstruct] at h
    split at h
    · rename_i hr
      cases h
      exact .constructError _ _ rfl (by rw [hr])
    · rename_i r hr
      split at h <;> cases h
      · exact .constructError _ _ rfl (by rw [hr])
      · exact .record _ _ _ rfl
  | encode m =>
    simp only [exec, execEncode] at h
    split at h
    · split at h
      · split at h
        · cases h
        · cases h; exact .bytes _ _ rfl (outputFits_encodeOutput s m _)
      · cases h; exact .bytesError _ rfl
    · cases h; exact .bytesError _ rfl
  | lookup t c =>
    simp only [exec, execLookup] at h
    split at h <;> cases h
    · exact .plain _ rfl rfl (by simp)
    · exact .plainError _ rfl rfl
  | clear => cases h; exact .clear rfl
  | frameAtCommand b | frameTransmitRequest b | frameRemoteAtCommandRequest b | frameTxSms b | frameAtCommandResponse b
  | frameModemStatus b | frameReceivePacket b | frameDeviceRequest b | frameFrameError b | frameGeneric b =>
    cases h; exact runDecoder_completion _ s _ _ rfl (by simp)
  | reservedOp0 | reservedOpC | reservedOpD | reservedOpE | reservedOpF => cases h; exact .plainError _ rfl rfl

/-- exec never refuses, and its one fault is ENCODE's, on a valid PREC whose record has no encoding (log entry 15). -/
theorem exec_stops_only_in_encode (i : Instr) (s : State) :
    (∃ t, exec i s = .next t)
      ∨ (∃ m, i = .encode m ∧ modeAccepted m = true ∧ s.prec.valid = true ∧ precFrameData s = none
          ∧ exec i s = .fault .validWithoutRecord) := by
  cases i with
  | build m =>
    simp only [exec, execBuild]
    split <;> exact .inl ⟨_, rfl⟩
  | decodev m v =>
    simp only [exec, execDecodev]
    split <;> exact .inl ⟨_, rfl⟩
  | construct =>
    simp only [exec, execConstruct]
    split
    · exact .inl ⟨_, rfl⟩
    · split <;> exact .inl ⟨_, rfl⟩
  | encode m =>
    simp only [exec, execEncode]
    split
    · split
      · split
        · rename_i hm hv _ hp
          exact .inr ⟨m, rfl, hm, hv, hp, rfl⟩
        · exact .inl ⟨_, rfl⟩
      · exact .inl ⟨_, rfl⟩
    · exact .inl ⟨_, rfl⟩
  | lookup t c =>
    simp only [exec, execLookup]
    split <;> exact .inl ⟨_, rfl⟩
  | _ => exact .inl ⟨_, rfl⟩

/-! ### The router -/

/-- The frame instruction of a default variant is that variant's decoder. -/
theorem exec_frameOf (s : State) (t : Byte) (body : List Byte) (i : Instr) (L : Layout) (hi : frameOf t body = some i)
    (hL : frameLayout t = some L) : exec i s = .next (s.runDecoder L (t :: body)) := by
  unfold frameOf at hi
  split at hi
  case h_11 => cases hi
  all_goals
    rename_i ht
    cases hi
    have hb : t = BitVec.ofNat 8 t.toNat := by simp
    rw [ht] at hb
    subst hb
    cases hL
    rfl

theorem decodeFrameData_ok (fd : List Byte) (i : Instr) (h : decodeFrameData fd = .ok i) :
    ∃ t body, fd = t :: body ∧ bodyFits body = true ∧ frameOf t body = some i := by
  cases fd with
  | nil => cases h
  | cons t body =>
    simp only [decodeFrameData] at h
    split at h
    · rename_i hb
      split at h
      · rename_i j hj
        cases h
        exact ⟨t, body, rfl, hb, hj⟩
      · cases h
    · cases h

/-- Running the routed frame instruction is dispatching to the decoder (R117, R119). -/
theorem exec_routedFrame (s : State) (t : Byte) (fd : List Byte) (i : Instr) (h : routedFrame s.config t fd = some i) :
    exec i s = .next (s.dispatch t fd) := by
  unfold routedFrame at h
  split at h
  · cases h
  · rename_i j hj
    split at h
    · rename_i hc
      cases h
      obtain ⟨x, body, rfl, -, hf⟩ := decodeFrameData_ok fd _ hj
      obtain ⟨hx, hs, hr⟩ := hc
      have hx' : x = t := hx
      subst hx'
      obtain ⟨L, hL⟩ := Option.isSome_iff_exists.1 hs
      rw [hL] at hr
      rw [exec_frameOf s x body _ L hf hL, dispatch_some s x _ L hr]
    · cases h

/-- Routing never changes an effect: the frame instruction does what its BUILD or DECODEV does. -/
theorem exec_route (s : State) (i : Instr) : exec (route s i) s = exec i s := by
  cases i with
  | build m =>
    simp only [route]
    split
    · rfl
    · rename_i fd hfd
      cases hr : routedFrame s.config (fd.headD 0#8) fd with
      | none => rfl
      | some j =>
        rw [Option.getD_some, exec_routedFrame s _ fd j hr]
        simp only [exec, execBuild, hfd]
  | decodev m v =>
    simp only [route]
    split
    · rename_i hm
      cases hr : routedFrame s.config v s.ibuf with
      | none => rfl
      | some j =>
        rw [Option.getD_some, exec_routedFrame s v _ j hr]
        simp only [exec, execDecodev, hm, if_true]
    · rfl
  | _ => rfl

/-- The engine's step is the latched command (R28). -/
theorem engineStep_latched (s : State) (w : Word) (h : s.latched = some w) : engineStep s = exec (decodeCommand w) s := by
  simp only [engineStep, fetch, h, Option.map_some, exec_route]

/-! ### The buffers' canonical form -/

theorem memory_wf_iff (s : State) :
    Memory.wf s = true ↔ s.ilen = BitVec.ofNat 32 s.ibuf.length ∧ s.olen = BitVec.ofNat 32 s.obuf.length
      ∧ s.ibuf.length ≤ s.config.ibufCap ∧ s.obuf.length ≤ s.config.obufCap := by
  simp [Memory.wf, and_assoc]

theorem memory_wf_reset : Memory.wf State.reset = true := by decide

theorem setIbuf_memory_wf (s : State) (b : List Byte) (hb : b.length ≤ s.config.ibufCap) (h : Memory.wf s = true) :
    Memory.wf (s.setIbuf b) = true := by
  rw [memory_wf_iff] at h ⊢
  exact ⟨rfl, h.2.1, hb, h.2.2.2⟩

theorem setObuf_memory_wf (s : State) (b : List Byte) (hb : b.length ≤ s.config.obufCap) (h : Memory.wf s = true) : Memory.wf (s.setObuf b) = true := by
  rw [memory_wf_iff] at h ⊢
  exact ⟨h.1, rfl, h.2.2.1, hb⟩

theorem resetWith_memory_wf (cfg : Config) : Memory.wf (State.resetWith cfg) = true := by
  rw [memory_wf_iff]
  exact ⟨rfl, rfl, Nat.zero_le _, Nat.zero_le _⟩

/-- Every instruction keeps the buffers' canonical form, in a legal configuration. -/
theorem exec_memory_wf (i : Instr) (s t : State) (h : exec i s = .next t) (hc : s.config.wf = true) (hw : Memory.wf s = true) :
    Memory.wf t = true := by
  rw [memory_wf_iff] at hw ⊢
  cases exec_completion i s t h with
  | bytes b r ho hb => exact ⟨hw.1, rfl, hw.2.2.1, hb hc hw.2.2.1⟩
  | bytesError e ho => exact ⟨hw.1, rfl, hw.2.2.1, Nat.zero_le _⟩
  | _ => exact hw

/-! ### What a host action can do -/

/-- The effects of a host action: nothing; a dropped write (R16, R26, R43); an accepted load, record write or CMD write; a read, exact or
free (R18); SEND's condition (R78); reset (R206). -/
inductive HostEffect (a : HostAction) (s : State) : State → Prop
  | none : HostEffect a s s
  | drop (hb : s.status.busy = true) : HostEffect a s s.drop
  | load (b : List Byte) (hb : s.status.busy = false) (hl : b.length ≤ s.config.ibufCap) : HostEffect a s (s.setIbuf b)
  | put (r : Record) (hb : s.status.busy = false) : HostEffect a s (s.putRecord r)
  | accept (w : Word) (hb : s.status.busy = false) : HostEffect a s (s.accept w)
  | receive (v : ReadValue) : HostEffect a s (s.receive v)
  | receiveFree (v : Nat → ReadValue) : HostEffect a s (s.receiveFree v)
  | skip (n : Nat) (ha : a = .skipOnError n) (he : s.status.err = true) : HostEffect a s { s with pending := s.pending.drop n }
  | reset (ha : a = .resetInput) : HostEffect a s s.resetBlock

theorem hostLoad_effect (a : HostAction) (b : List Byte) (s t : State) (h : hostLoad b s = .next t) : HostEffect a s t := by
  unfold hostLoad at h
  split at h
  · cases h
  · rename_i hl
    split at h <;> cases h
    · rename_i hb; exact .drop hb
    · rename_i hb; exact .load b (by simpa using hb) (by omega)

theorem hostPut_effect (a : HostAction) (r : Record) (s : State) : HostEffect a s (hostPut r s) := by
  unfold hostPut
  split
  · rename_i hb; exact .drop hb
  · rename_i hb; exact .put r (by simpa using hb)

theorem hostWriteReg_effect (a : HostAction) (idx : Fin 16) (w : Word) (s : State) : HostEffect a s (hostWriteReg idx w s) := by
  unfold hostWriteReg hostWriteCmd
  split
  · split
    · rename_i hb; exact .drop hb
    · rename_i hb; exact .accept w (by simpa using hb)
  · exact .none

theorem hostReadReg_effect (a : HostAction) (idx : Fin 16) (s : State) : HostEffect a s (hostReadReg idx s) := by
  unfold hostReadReg; split
  · exact .receiveFree _
  · exact .receive _

theorem hostReadObuf_effect (a : HostAction) (s : State) : HostEffect a s (hostReadObuf s) := by
  unfold hostReadObuf; split
  · exact .receiveFree _
  · exact .receive _

theorem hostReadObufByte_effect (a : HostAction) (i : Nat) (s : State) : HostEffect a s (hostReadObufByte i s) := by
  unfold hostReadObufByte; split
  · exact .receiveFree _
  · exact .receive _

theorem hostReadPrec_effect (a : HostAction) (s : State) : HostEffect a s (hostReadPrec s) := by
  unfold hostReadPrec; split
  · exact .receiveFree _
  · exact .receive _

/-- A bus access that answers is the access of a register or a port (R52). -/
theorem hostBus_next (addr : Nat) (access : BusAccess) (s t : State) (h : hostBus addr access s = .next t) :
    (∃ idx w, t = hostWriteReg idx w s) ∨ (∃ idx, t = hostReadReg idx s) ∨ (∃ b, hostLoad b s = .next t) ∨ t = hostReadObuf s
      ∨ (∃ i, t = hostReadObufByte i s) ∨ (∃ r, t = hostPut r s) ∨ t = hostReadPrec s := by
  unfold hostBus at h
  split at h
  · cases h
  · rename_i place _
    unfold hostPlace at h
    cases place with
    | register idx =>
      cases access with
      | writeWord w => cases h; exact .inl ⟨idx, w, rfl⟩
      | readWord => cases h; exact .inr (.inl ⟨idx, rfl⟩)
      | _ => cases h
    | ibuf =>
      cases access with
      | writeBytes b => exact .inr (.inr (.inl ⟨b, h⟩))
      | _ => cases h
    | obuf =>
      cases access with
      | readBytes => cases h; exact .inr (.inr (.inr (.inl rfl)))
      | readByte i => cases h; exact .inr (.inr (.inr (.inr (.inl ⟨i, rfl⟩))))
      | _ => cases h
    | prec =>
      cases access with
      | writeRecord r => cases h; exact .inr (.inr (.inr (.inr (.inr (.inl ⟨r, rfl⟩)))))
      | readRecord => cases h; exact .inr (.inr (.inr (.inr (.inr (.inr rfl)))))
      | _ => cases h

theorem hostBus_effect (a : HostAction) (addr : Nat) (access : BusAccess) (s t : State) (h : hostBus addr access s = .next t) :
    HostEffect a s t := by
  rcases hostBus_next addr access s t h with ⟨idx, w, rfl⟩ | ⟨idx, rfl⟩ | ⟨b, hl⟩ | rfl | ⟨i, rfl⟩ | ⟨r, rfl⟩ | rfl
  · exact hostWriteReg_effect a idx w s
  · exact hostReadReg_effect a idx s
  · exact hostLoad_effect a b s t hl
  · exact hostReadObuf_effect a s
  · exact hostReadObufByte_effect a i s
  · exact hostPut_effect a r s
  · exact hostReadPrec_effect a s

/-- Every next state of a host action is one of the effects. -/
theorem hostAct_effect (a : HostAction) (s t : State) (h : hostAct a s = .next t) : HostEffect a s t := by
  cases a with
  | load b => exact hostLoad_effect _ b s t h
  | put r => cases h; exact hostPut_effect _ r s
  | writeReg idx w => cases h; exact hostWriteReg_effect _ idx w s
  | readReg idx => cases h; exact hostReadReg_effect _ idx s
  | readObuf => cases h; exact hostReadObuf_effect _ s
  | readObufByte i => cases h; exact hostReadObufByte_effect _ i s
  | readPrec => cases h; exact hostReadPrec_effect _ s
  | bus addr access => exact hostBus_effect _ addr access s t h
  | wait => cases h; exact .none
  | skipOnError n =>
    cases h
    split
    · rename_i he; exact .skip n rfl he
    · exact .none
  | resetInput => cases h; exact .reset rfl

/-- Every host action keeps the buffers' canonical form. -/
theorem hostAct_memory_wf (a : HostAction) (s t : State) (h : hostAct a s = .next t) (hw : Memory.wf s = true) : Memory.wf t = true := by
  cases hostAct_effect a s t h with
  | load b hb hl => exact setIbuf_memory_wf s b hl hw
  | reset => exact resetWith_memory_wf s.config
  | _ => exact hw

end Sys2Proof.Machine
end

