-- ==== Sys2Proof/Laws/PerInstr.lean ====
section
/-! SUPPORT. Statements about every instruction as syntax. MatchesTableRow: the encoder writes an instruction in the place, and with the match
value under the mask, that its row of spec/opcode_table.json names (R66 to R68). -/

namespace Sys2Proof.Laws.MatchesTableRow

/-- The row's `match` value, and whether the row is a discriminator of frame data (mask 0xFF) or a CMD word (mask 0x0000000F). -/
def row : Instr → Nat × Bool
  | .chksum => (0x1, false)
  | .escape => (0x2, false)
  | .unescape => (0x3, false)
  | .validate _ => (0x4, false)
  | .wrap _ => (0x5, false)
  | .build _ => (0x6, false)
  | .decodev _ _ => (0x7, false)
  | .construct => (0x8, false)
  | .encode _ => (0x9, false)
  | .lookup _ _ => (0xA, false)
  | .clear => (0xB, false)
  | .frameAtCommand _ => (0x08, true)
  | .frameTransmitRequest _ => (0x10, true)
  | .frameRemoteAtCommandRequest _ => (0x17, true)
  | .frameTxSms _ => (0x1F, true)
  | .frameAtCommandResponse _ => (0x88, true)
  | .frameModemStatus _ => (0x8A, true)
  | .frameReceivePacket _ => (0x90, true)
  | .frameDeviceRequest _ => (0xB9, true)
  | .frameFrameError _ => (0xFE, true)
  | .frameGeneric _ => (0xFF, true)
  | .reservedOp0 => (0x0, false)
  | .reservedOpC => (0xC, false)
  | .reservedOpD => (0xD, false)
  | .reservedOpE => (0xE, false)
  | .reservedOpF => (0xF, false)

/-- The encoding of `i` is its row's: a CMD word whose opcode is the row's match, or frame data whose first byte is. -/
def Statement (i : Instr) : Prop :=
  match encode i with
  | .command w => (row i).2 = false ∧ (w &&& 0x0000000F#32).toNat = (row i).1
  | .frameData fd => (row i).2 = true ∧ ∃ body, fd = BitVec.ofNat 8 (row i).1 :: body ∧ (i.wf = true ↔ fd.length ≤ 65535)

/-- The mask of a CMD row keeps the opcode (R15). -/
theorem masked_toNat (w : Word) : (w &&& 0x0000000F#32).toNat = (opField w).toNat := by
  rw [opField_toNat, BitVec.toNat_and]
  exact Nat.and_two_pow_sub_one_eq_mod w.toNat 4

theorem command_masked (op : BitVec 4) (mode : BitVec 2) (sel code : Byte) : (commandWord op mode sel code &&& 0x0000000F#32).toNat = op.toNat := by
  rw [masked_toNat, opField_commandWord]

theorem bodyFits_iff (t : Byte) (body : List Byte) : bodyFits body = true ↔ (t :: body).length ≤ 65535 := by
  simp [bodyFits]

theorem chksum : Statement .chksum := ⟨rfl, command_masked _ _ _ _⟩

theorem escape : Statement .escape := ⟨rfl, command_masked _ _ _ _⟩

theorem unescape : Statement .unescape := ⟨rfl, command_masked _ _ _ _⟩

theorem validate (m : BitVec 16) : Statement (.validate m) := ⟨rfl, by rw [masked_toNat, opField_minlenWord]; rfl⟩

theorem wrap (m : Mode) : Statement (.wrap m) := ⟨rfl, command_masked _ _ _ _⟩

theorem build (m : Mode) : Statement (.build m) := ⟨rfl, command_masked _ _ _ _⟩

theorem decodev (m : Mode) (v : Byte) : Statement (.decodev m v) := ⟨rfl, command_masked _ _ _ _⟩

theorem construct : Statement .construct := ⟨rfl, command_masked _ _ _ _⟩

theorem encode (m : Mode) : Statement (.encode m) := ⟨rfl, command_masked _ _ _ _⟩

theorem lookup (t c : Byte) : Statement (.lookup t c) := ⟨rfl, command_masked _ _ _ _⟩

theorem clear : Statement .clear := ⟨rfl, command_masked _ _ _ _⟩

theorem frameAtCommand (body : List Byte) : Statement (.frameAtCommand body) := ⟨rfl, body, rfl, bodyFits_iff _ body⟩

theorem frameTransmitRequest (body : List Byte) : Statement (.frameTransmitRequest body) := ⟨rfl, body, rfl, bodyFits_iff _ body⟩

theorem frameRemoteAtCommandRequest (body : List Byte) : Statement (.frameRemoteAtCommandRequest body) := ⟨rfl, body, rfl, bodyFits_iff _ body⟩

theorem frameTxSms (body : List Byte) : Statement (.frameTxSms body) := ⟨rfl, body, rfl, bodyFits_iff _ body⟩

theorem frameAtCommandResponse (body : List Byte) : Statement (.frameAtCommandResponse body) := ⟨rfl, body, rfl, bodyFits_iff _ body⟩

theorem frameModemStatus (body : List Byte) : Statement (.frameModemStatus body) := ⟨rfl, body, rfl, bodyFits_iff _ body⟩

theorem frameReceivePacket (body : List Byte) : Statement (.frameReceivePacket body) := ⟨rfl, body, rfl, bodyFits_iff _ body⟩

theorem frameDeviceRequest (body : List Byte) : Statement (.frameDeviceRequest body) := ⟨rfl, body, rfl, bodyFits_iff _ body⟩

theorem frameFrameError (body : List Byte) : Statement (.frameFrameError body) := ⟨rfl, body, rfl, bodyFits_iff _ body⟩

theorem frameGeneric (body : List Byte) : Statement (.frameGeneric body) := ⟨rfl, body, rfl, bodyFits_iff _ body⟩

theorem reservedOp0 : Statement .reservedOp0 := ⟨rfl, command_masked _ _ _ _⟩

theorem reservedOpC : Statement .reservedOpC := ⟨rfl, command_masked _ _ _ _⟩

theorem reservedOpD : Statement .reservedOpD := ⟨rfl, command_masked _ _ _ _⟩

theorem reservedOpE : Statement .reservedOpE := ⟨rfl, command_masked _ _ _ _⟩

theorem reservedOpF : Statement .reservedOpF := ⟨rfl, command_masked _ _ _ _⟩

end Sys2Proof.Laws.MatchesTableRow
end

