-- ==== Sys2Proof/Laws/Step.lean ====
section
/-! SUPPORT. What one step is: the engine's turn or the host's next action; and what a host action leaves alone. -/

namespace Sys2Proof.Machine

/-- While a command is in flight and its latency has not passed, a host action other than a poll goes first. -/
theorem engineTurn_host (s : State) (a : HostAction) (rest : List HostAction) (hp : s.pending = a :: rest) (ha : a ≠ .wait)
    (hl : 0 < s.latencyLeft) : engineTurn s = false := by
  unfold engineTurn
  rw [hp]
  cases a <;> simp_all <;> omega

/-- The engine's turn comes at the latest when the drawn latency has passed (R28, R211). -/
theorem engineTurn_of_latency (s : State) (h : s.latencyLeft = 0) : engineTurn s = true := by
  unfold engineTurn
  split <;> simp [h]

theorem step_engine (s : State) (hc : s.config.wf = true) (hb : s.status.busy = true) (ht : engineTurn s = true) :
    step s = engineStep s := by
  simp only [step, hc, hb, ht, if_true, Bool.and_self]

theorem step_host (s : State) (hc : s.config.wf = true) (h : s.status.busy = false ∨ engineTurn s = false) : step s = hostStep s := by
  rcases h with h | h <;> simp [step, hc, h]

/-- A host action of an idle block. -/
theorem step_idle (s : State) (a : HostAction) (rest : List HostAction) (hc : s.config.wf = true) (hp : s.pending = a :: rest)
    (hb : s.status.busy = false) : step s = hostAct a { s with pending := rest, latencyLeft := s.latencyLeft - 1 } := by
  rw [step_host s hc (.inl hb), hostStep, hp]

/-- A host action before the command in flight completes. -/
theorem step_busy (s : State) (a : HostAction) (rest : List HostAction) (hc : s.config.wf = true) (hp : s.pending = a :: rest)
    (ha : a ≠ .wait) (hl : 0 < s.latencyLeft) :
    step s = hostAct a { s with pending := rest, latencyLeft := s.latencyLeft - 1 } := by
  rw [step_host s hc (.inr (engineTurn_host s a rest hp ha hl)), hostStep, hp]

/-! ### Host actions -/

/-- The configuration never changes (R27). -/
theorem hostAct_config (a : HostAction) (s t : State) (h : hostAct a s = .next t) : t.config = s.config := by
  cases hostAct_effect a s t h <;> rfl

/-- The host's program only shrinks: SEND's condition skips actions, everything else leaves the rest (R78). -/
theorem hostAct_pending (a : HostAction) (s t : State) (h : hostAct a s = .next t) :
    t.pending = s.pending ∨ ∃ n, a = .skipOnError n ∧ s.status.err = true ∧ t.pending = s.pending.drop n := by
  cases hostAct_effect a s t h with
  | skip n ha he => exact .inr ⟨n, ha, he, rfl⟩
  | _ => exact .inl rfl

/-- A bus access is its place's access (R52). -/
theorem hostAct_bus (addr : Nat) (access : BusAccess) (s : State) (place : BusPlace) (h : busPlace s.config addr = some place) :
    hostAct (.bus addr access) s = hostPlace place access s := by
  simp only [hostAct, hostBus, h]

/-- A host action is refused only when it is a load longer than IBUF_CAP (R42) or a bus access that BUS_MAP does not serve (R52), and never
faults. -/
theorem hostAct_next (a : HostAction) (s : State) (h : hostActionFits s.config a) : ∃ t, hostAct a s = .next t := by
  have load : ∀ b : List Byte, b.length ≤ s.config.ibufCap → ∃ t, hostLoad b s = .next t := by
    intro b hb
    unfold hostLoad
    rw [if_neg (Nat.not_lt.2 hb)]
    split <;> exact ⟨_, rfl⟩
  cases a with
  | load b => exact load b h
  | bus addr access =>
    cases access with
    | writeBytes b => rw [hostAct_bus addr _ s .ibuf h.1]; exact load b h.2
    | writeWord w | readWord => obtain ⟨idx, hp⟩ := h; exact ⟨_, hostAct_bus addr _ s _ hp⟩
    | readBytes | readByte i => exact ⟨_, hostAct_bus addr _ s .obuf h⟩
    | writeRecord r | readRecord => exact ⟨_, hostAct_bus addr _ s .prec h⟩
  | _ => exact ⟨_, rfl⟩

theorem hostAct_no_fault (a : HostAction) (s : State) (f : Fault) : hostAct a s ≠ .fault f := by
  have load : ∀ b : List Byte, hostLoad b s ≠ .fault f := by
    intro b h
    unfold hostLoad at h
    split at h
    · cases h
    · split at h <;> cases h
  intro h
  cases a with
  | load b => exact load b h
  | bus addr access =>
    simp only [hostAct, hostBus] at h
    split at h
    · cases h
    · rename_i place _
      cases place <;> cases access <;> first | exact load _ h | cases h
  | _ => cases h

/-- While BUSY = 1 a host action leaves the command in flight alone, unless it is the reset input (R16, R26, R43, R207). -/
theorem hostAct_busy (a : HostAction) (s t : State) (ha : a ≠ .resetInput) (hb : s.status.busy = true) (h : hostAct a s = .next t) :
    t.status.busy = true ∧ t.latched = s.latched ∧ t.latencyLeft = s.latencyLeft ∧ t.ibuf = s.ibuf ∧ t.obuf = s.obuf ∧ t.prec = s.prec := by
  cases hostAct_effect a s t h with
  | load b hi | put r hi | accept w hi => rw [hb] at hi; cases hi
  | reset hr => exact absurd hr ha
  | _ => exact ⟨hb, rfl, rfl, rfl, rfl, rfl⟩

/-! ### Runs of steps -/

theorem run_succ (n : Nat) (s t : State) (h : step s = .next t) : Sys2Proof.core.run (n + 1) s = Sys2Proof.core.run n t := by
  have hc : Sys2Proof.core.step s = .next t := h
  simp only [Host.Core.run, hc]

/-- An instruction reads nothing of the command in flight and of the host: run in a state that differs from `s` in these alone, it does what it
does in `s` (R29). -/
theorem exec_in_flight (i : Instr) (s u : State) (st : Status) (la : Option Word) (ll dr : Nat) (pe : List HostAction)
    (ho : st.ovr = s.status.ovr) (h : exec i s = .next u) :
    exec i { s with status := st, latched := la, latencyLeft := ll, draws := dr, pending := pe } =
      .next { u with draws := dr, pending := pe } := by
  have ok : ∀ (v : State) (r : Word), v.status.ovr = s.status.ovr →
      { v with status := st, latched := la, latencyLeft := ll, draws := dr, pending := pe }.succeed r =
        { v.succeed r with draws := dr, pending := pe } := by
    intro v r hv
    simp only [State.succeed, Status.succeeded, ho, hv]
  have er : ∀ (v : State) (e : CommandError), v.status.ovr = s.status.ovr →
      { v with status := st, latched := la, latencyLeft := ll, draws := dr, pending := pe }.fail e =
        { v.fail e with draws := dr, pending := pe } := by
    intro v e hv
    simp only [State.fail, Status.failed, ho, hv]
  have bytes : ∀ (out : Except CommandError (List Byte)) (value : List Byte → Word),
      { s with status := st, latched := la, latencyLeft := ll, draws := dr, pending := pe }.finishBytes out value =
        { s.finishBytes out value with draws := dr, pending := pe } := by
    intro out value
    cases out with
    | ok b => exact ok (s.setObuf b) _ rfl
    | error e => exact er (s.setObuf []) e rfl
  have decoder : ∀ (L : Layout) (fd : List Byte),
      { s with status := st, latched := la, latencyLeft := ll, draws := dr, pending := pe }.runDecoder L fd =
        { s.runDecoder L fd with draws := dr, pending := pe } := by
    intro L fd
    unfold State.runDecoder
    rcases decodeLayout s.config L fd with e | ⟨r, tags⟩
    · exact er (s.setPrec Prec.empty) e rfl
    · exact ok (s.setPrec { record := some r, tags := tags, valid := true }) _ rfl
  have route : ∀ (t : Byte) (fd : List Byte),
      { s with status := st, latched := la, latencyLeft := ll, draws := dr, pending := pe }.dispatch t fd =
        { s.dispatch t fd with draws := dr, pending := pe } := by
    intro t fd
    unfold State.dispatch
    cases registered s.config t with
    | none => exact er (s.setPrec Prec.empty) _ rfl
    | some L => exact decoder L fd
  have construct : ∀ (vals : List FieldVal) (e : CommandError),
      { s with status := st, latched := la, latencyLeft := ll, draws := dr, pending := pe }.failConstruct vals e =
        { s.failConstruct vals e with draws := dr, pending := pe } := fun vals e =>
    er (s.setPrec { record := s.prec.record, tags := List.replicate vals.length none, valid := false }) e rfl
  cases i with
  | chksum => cases h; exact congrArg _ (ok s _ rfl)
  | escape => cases h; exact congrArg _ (ok (s.setObuf _) _ rfl)
  | unescape | validate _ | wrap _ => cases h; exact congrArg _ (bytes _ _)
  | build m =>
    simp only [exec, execBuild] at h ⊢
    split at h <;> cases h
    · exact congrArg _ (er (s.setPrec Prec.empty) _ rfl)
    · exact congrArg _ (route _ _)
  | decodev m v =>
    simp only [exec, execDecodev] at h ⊢
    split at h <;> rename_i hm <;> cases h
    · rw [if_pos hm]; exact congrArg _ (route _ _)
    · rw [if_neg hm]; exact congrArg _ (er (s.setPrec Prec.empty) _ rfl)
  | construct =>
    simp only [exec, execConstruct] at h ⊢
    cases hr : s.prec.record with
    | none =>
      rw [hr] at h
      cases h
      exact congrArg _ (construct _ _)
    | some r =>
      rw [hr] at h
      cases hc : constructCheck s.config r with
      | error e =>
        simp only [hc] at h ⊢
        cases h
        exact congrArg _ (construct _ _)
      | ok p =>
        simp only [hc] at h ⊢
        cases h
        exact congrArg _ (ok (s.setPrec { record := some r, tags := p.2, valid := true }) _ rfl)
  | encode m =>
    simp only [exec, execEncode] at h ⊢
    split at h
    · split at h
      · rename_i hm hv
        rw [if_pos hm, if_pos hv]
        have hs : precFrameData { s with status := st, latched := la, latencyLeft := ll, draws := dr, pending := pe } = precFrameData s := rfl
        rw [hs]
        cases hf : precFrameData s with
        | none => rw [hf] at h; cases h
        | some fd =>
          rw [hf] at h
          cases h
          exact congrArg _ (ok (s.setObuf _) _ rfl)
      · rename_i hm hv
        cases h
        rw [if_pos hm, if_neg hv]
        exact congrArg _ (er (s.setObuf []) _ rfl)
    · rename_i hm
      cases h
      rw [if_neg hm]
      exact congrArg _ (er (s.setObuf []) _ rfl)
  | lookup t c =>
    simp only [exec, execLookup] at h ⊢
    split at h <;> rename_i ht <;> cases h
    · rw [if_pos ht]; exact congrArg _ (ok s _ rfl)
    · rw [if_neg ht]; exact congrArg _ (er s _ rfl)
  | clear => cases h; rfl
  | frameAtCommand b | frameTransmitRequest b | frameRemoteAtCommandRequest b | frameTxSms b | frameAtCommandResponse b
  | frameModemStatus b | frameReceivePacket b | frameDeviceRequest b | frameFrameError b | frameGeneric b =>
    cases h; exact congrArg _ (decoder _ _)
  | reservedOp0 | reservedOpC | reservedOpD | reservedOpE | reservedOpF => cases h; exact congrArg _ (er s _ rfl)

end Sys2Proof.Machine
end

