-- ==== Sys2Proof/Tests/Slice0.lean ====
section
/-! SUPPORT. The model's own tests: ill-formed terms that WellFormed refuses, words written out from the spec's encodings, small runs taken
from spec/95_test_vectors.md, and for every statement with hypotheses a witness that meets them. -/

namespace Sys2Proof.Tests

open Sys2Proof.Machine

/-! ### Helpers -/

/-- The reset block with these bytes loaded (R42). -/
def loaded (b : List Byte) : State := State.reset.setIbuf b

/-- The reset block with this record written (R26). -/
def written (r : Record) : State := State.reset.putRecord r

/-- The state an instruction leaves, or the state it ran in. -/
def after (i : Instr) (s : State) : State :=
  match exec i s with
  | .next t => t
  | _ => s

/-- The instruction completes. -/
def completes (i : Instr) (s : State) : Bool :=
  match exec i s with
  | .next _ => true
  | _ => false

theorem exec_after (i : Instr) (s : State) (h : completes i s = true) : exec i s = .next (after i s) := by
  unfold completes at h
  unfold after
  split at h
  · rename_i t ht; rw [ht]
  · cases h

/-- STATUS as the host reads it. -/
def statusOf (s : State) : Word := statusWord s.status s.prec.valid

/-- A block in which a command is in flight, with one host step left before the engine's and these actions to come. -/
def inFlight (w : Word) (acts : List HostAction) : State :=
  { State.reset.latch w with latencyLeft := 1, pending := acts }

/-- An idle block with these host actions to come. -/
def idleWith (acts : List HostAction) : State := { State.reset with pending := acts }

/-- The Scenario A record (95 W7). -/
def scenarioA : Record :=
  { type := 0x1F#8
    vals := [.cid 5, .int 0, .text [0x2B#8, 0x31#8, 0x35#8, 0x35#8, 0x35#8, 0x31#8, 0x32#8, 0x33#8, 0x34#8, 0x35#8, 0x36#8, 0x37#8],
      .payload [0x68#8, 0x65#8, 0x6C#8, 0x6C#8, 0x6F#8]] }

/-- The modem-status record of 95 V-BLD-1. -/
def modemStatus : Record := { type := 0x8A#8, vals := [.code 6] }

/-! ### WellFormed refuses each kind of ill-formed term -/

theorem test_wf_frame_data_of_65535_bytes : (Instr.frameGeneric (List.replicate 65534 0#8)).wf = true := by
  simp only [Instr.wf, bodyFits]; rw [List.length_replicate]; decide

theorem test_wf_refuses_frame_data_of_65536_bytes : (Instr.frameGeneric (List.replicate 65535 0#8)).wf = false := by
  simp only [Instr.wf, bodyFits]; rw [List.length_replicate]; decide

/-- A layout of type 0x42 with these fields. -/
def layoutOf (fs : List FieldSpec) : Layout := { type := 0x42#8, fields := fs }

theorem test_layout_wf : layoutWf (layoutOf [.CID, .INT 8, .CODE 12#8, .BYTES 1, .TEXT 1 .NONE, .VAR, .VAR, .PAYLOAD]) = true := by decide
theorem test_layout_refuses_late_cid : layoutWf (layoutOf [.INT 1, .CID]) = false := by decide
theorem test_layout_refuses_second_cid : layoutWf (layoutOf [.CID, .CID]) = false := by decide
theorem test_layout_refuses_fixed_after_var : layoutWf (layoutOf [.VAR, .INT 1]) = false := by decide
theorem test_layout_refuses_var_after_payload : layoutWf (layoutOf [.PAYLOAD, .VAR]) = false := by decide
theorem test_layout_refuses_second_payload : layoutWf (layoutOf [.PAYLOAD, .PAYLOAD]) = false := by decide
theorem test_layout_refuses_256_fields : layoutWf (layoutOf (List.replicate 256 (.INT 1))) = false := by
  simp only [layoutWf, layoutOf, List.length_replicate]; simp only [Nat.reduceLeDiff, decide_false, Bool.and_false, Bool.false_and]
theorem test_layout_refuses_minlen_65540 : layoutWf (layoutOf [.BYTES 65535]) = false := by decide
theorem test_layout_refuses_reserved_table : layoutWf (layoutOf [.CODE 6#8]) = false := by decide
theorem test_layout_refuses_int_0 : layoutWf (layoutOf [.INT 0]) = false := by decide
theorem test_layout_refuses_int_9 : layoutWf (layoutOf [.INT 9]) = false := by decide
theorem test_layout_refuses_bytes_0 : layoutWf (layoutOf [.BYTES 0]) = false := by decide
theorem test_layout_refuses_text_0 : layoutWf (layoutOf [.TEXT 0 .NONE]) = false := by decide

theorem test_config_wf : defaultConfig.wf = true := by decide
theorem test_config_refuses_small_ibuf : Config.wf { defaultConfig with ibufCap := 131076 } = false := by decide
theorem test_config_refuses_small_obuf : Config.wf { defaultConfig with obufCap := 262153 } = false := by decide
theorem test_config_refuses_foreign_type : Config.wf { defaultConfig with registry := [(0x43#8, layoutOf [])] } = false := by decide
theorem test_config_refuses_ill_formed_layout :
    Config.wf { defaultConfig with registry := [(0x42#8, layoutOf [.INT 0])] } = false := by decide
theorem test_config_refuses_two_entries :
    Config.wf { defaultConfig with registry := [(0x42#8, layoutOf []), (0x42#8, layoutOf [])] } = false := by decide
theorem test_config_refuses_missing_member : Config.wf { defaultConfig with codetab := [] } = false := by decide
theorem test_config_refuses_repeated_member :
    Config.wf { defaultConfig with codetab := [(4#8, 6#8), (4#8, 6#8)] } = false := by decide
theorem test_config_refuses_two_places_at_an_address :
    Config.wf { defaultConfig with busMap := [(0, .ibuf), (0, .obuf)] } = false := by decide

/-! ### Decoding: a word per constructor, written out from R64 to R68 -/

theorem test_decode_reserved_op_0 : decode (.command 0x00000000#32) = .ok .reservedOp0 := by decide
theorem test_decode_chksum : decode (.command 0x00000001#32) = .ok .chksum := by decide
theorem test_decode_escape : decode (.command 0x00000002#32) = .ok .escape := by decide
theorem test_decode_unescape : decode (.command 0x00000003#32) = .ok .unescape := by decide
theorem test_decode_validate : decode (.command 0xFFFF0004#32) = .ok (.validate 0xFFFF#16) := by decide
theorem test_decode_wrap : decode (.command 0x00000025#32) = .ok (.wrap .API_ESC) := by decide
theorem test_decode_build : decode (.command 0x00000036#32) = .ok (.build .UNKNOWN) := by decide
theorem test_decode_decodev : decode (.command 0x0000FF07#32) = .ok (.decodev .AT 0xFF#8) := by decide
theorem test_decode_construct : decode (.command 0x00000008#32) = .ok .construct := by decide
theorem test_decode_encode : decode (.command 0x00000019#32) = .ok (.encode .API) := by decide
theorem test_decode_lookup : decode (.command 0x0006040A#32) = .ok (.lookup 0x04#8 0x06#8) := by decide
theorem test_decode_clear : decode (.command 0x0000001B#32) = .ok .clear := by decide
theorem test_decode_reserved_op_c : decode (.command 0x0000000C#32) = .ok .reservedOpC := by decide
theorem test_decode_reserved_op_d : decode (.command 0x0000000D#32) = .ok .reservedOpD := by decide
theorem test_decode_reserved_op_e : decode (.command 0x0000000E#32) = .ok .reservedOpE := by decide
theorem test_decode_reserved_op_f : decode (.command 0xFFFFFFFF#32) = .ok .reservedOpF := by decide
theorem test_decode_frame_at_command : decode (.frameData [0x08#8, 0x01#8, 0x02#8]) = .ok (.frameAtCommand [0x01#8, 0x02#8]) := by decide
theorem test_decode_frame_transmit_request : decode (.frameData [0x10#8, 0x01#8, 0x02#8]) = .ok (.frameTransmitRequest [0x01#8, 0x02#8]) := by decide
theorem test_decode_frame_remote_at_command_request : decode (.frameData [0x17#8, 0x01#8, 0x02#8]) = .ok (.frameRemoteAtCommandRequest [0x01#8, 0x02#8]) := by decide
theorem test_decode_frame_tx_sms : decode (.frameData [0x1F#8, 0x01#8, 0x02#8]) = .ok (.frameTxSms [0x01#8, 0x02#8]) := by decide
theorem test_decode_frame_at_command_response : decode (.frameData [0x88#8, 0x01#8, 0x02#8]) = .ok (.frameAtCommandResponse [0x01#8, 0x02#8]) := by decide
theorem test_decode_frame_modem_status : decode (.frameData [0x8A#8, 0x01#8, 0x02#8]) = .ok (.frameModemStatus [0x01#8, 0x02#8]) := by decide
theorem test_decode_frame_receive_packet : decode (.frameData [0x90#8, 0x01#8, 0x02#8]) = .ok (.frameReceivePacket [0x01#8, 0x02#8]) := by decide
theorem test_decode_frame_device_request : decode (.frameData [0xB9#8, 0x01#8, 0x02#8]) = .ok (.frameDeviceRequest [0x01#8, 0x02#8]) := by decide
theorem test_decode_frame_frame_error : decode (.frameData [0xFE#8, 0x01#8, 0x02#8]) = .ok (.frameFrameError [0x01#8, 0x02#8]) := by decide
theorem test_decode_frame_generic : decode (.frameData [0xFF#8, 0x01#8, 0x02#8]) = .ok (.frameGeneric [0x01#8, 0x02#8]) := by decide
theorem test_decode_refuses_unregistered : decode (.frameData [0x42#8]) = .error (.unregisteredDiscriminator 0x42#8) := by decide
theorem test_decode_refuses_empty : decode (.frameData []) = .error .emptyFrameData := by decide
theorem test_decode_refuses_long_frame_data (body : List Byte) (h : body.length = 65535) :
    decode (.frameData (0xFF#8 :: body)) = .error (.frameDataTooLong 65536) := by
  simp [decode, decodeFrameData, bodyFits, h]

/-! ### Words and discriminators of the opcode table, by its own numbering -/

theorem test_table_command_row : decodeTableWord 4 0xA = some (.lookup 0#8 0#8) := by decide
theorem test_table_frame_row : decodeTableWord 8 0xFE = some (.frameFrameError [0#8]) := by decide

/-! ### Small runs from spec/95_test_vectors.md -/

/-- V-CHK-7. -/
theorem test_chksum_wraps : (after .chksum (loaded [0x01#8, 0xFF#8])).result = 0x000000FF#32 := by decide

/-- V-CHK-2. -/
theorem test_chksum_modem_status : (after .chksum (loaded [0x8A#8, 0x06#8])).result = 0x0000006F#32 := by decide

/-- V-ESC-2. -/
theorem test_escape_every_reserved_byte : (after .escape (loaded [0x00#8, 0x02#8, 0x7E#8, 0x7D#8, 0x11#8, 0x13#8])).obuf = [0x00#8, 0x02#8, 0x7D#8, 0x5E#8, 0x7D#8, 0x5D#8, 0x7D#8, 0x31#8, 0x7D#8, 0x33#8] := by decide

/-- V-ESC-5. -/
theorem test_escape_olen : (after .escape (loaded [0x7E#8, 0x7E#8])).olen = 4#32 := by decide

/-- V-UNE-6. -/
theorem test_unescape_non_canonical_pair : (after .unescape (loaded [0x7D#8, 0x41#8])).obuf = [0x61#8] := by decide

/-- V-UNE-5. -/
theorem test_unescape_dangling : statusOf (after .unescape (loaded [0x7D#8, 0x7D#8, 0x7D#8])) = 0x00000926#32 := by decide

/-- V-VAL-3. -/
theorem test_validate_too_short : statusOf (after (.validate 7#16) (loaded [0x7E#8, 0x00#8, 0x02#8, 0x8A#8, 0x06#8, 0x6F#8])) = 0x00000126#32 := by decide

/-- V-VAL-2. -/
theorem test_validate_exact_length : (after (.validate 6#16) (loaded [0x7E#8, 0x00#8, 0x02#8, 0x8A#8, 0x06#8, 0x6F#8])).result = 0x00000002#32 := by decide

/-- V-WRP-6. -/
theorem test_wrap_escapes_checksum : (after (.wrap .API_ESC) (loaded [0x8A#8, 0xF7#8])).obuf = [0x7E#8, 0x00#8, 0x02#8, 0x8A#8, 0xF7#8, 0x7D#8, 0x5E#8] := by decide

/-- V-WRP-10. -/
theorem test_wrap_refuses_unknown_mode : statusOf (after (.wrap .UNKNOWN) (loaded [0x8A#8, 0x06#8])) = 0x00030016#32 := by decide

/-- V-BLD-14. -/
theorem test_build_bare_reserved_byte : (after (.build .API_ESC) (loaded [0x7E#8, 0x00#8, 0x02#8, 0x8A#8, 0x11#8, 0x64#8])).prec =
    { record := some { type := 0x8A#8, vals := [.code 0x11] }, tags := [some .UNKNOWN], valid := true } := by decide

/-- V-BLD-11. -/
theorem test_build_keeps_byte_zero : statusOf (after (.build .API_ESC) (loaded [0x7D#8, 0x5E#8, 0x00#8, 0x02#8, 0x8A#8, 0x06#8, 0x6F#8])) = 0x00000226#32 := by decide

/-- V-DEV-4. -/
theorem test_decodev_wrong_discriminator : statusOf (after (.decodev .API 0x8A#8) (loaded [0x8B#8, 0x06#8])) = 0x00000626#32 := by decide

/-- V-DEV-12. -/
theorem test_decodev_var_overflow : statusOf (after (.decodev .API 0xB9#8) (loaded [0xB9#8, 0x01#8, 0x00#8, 0x00#8, 0x05#8, 0x74#8, 0x67#8, 0x74#8])) = 0x00030726#32 := by decide

/-- V-CON-10. -/
theorem test_construct_shape_before_range : statusOf (after .construct (written { type := 0x08#8, vals := [.cid 256, .bytes [0x4E#8, 0x4A#8]] })) = 0x00020736#32 := by decide

/-- V-CON-2. -/
theorem test_construct_scenario_a : (after .construct (written scenarioA)).result = 0x0005011F#32 := by decide

/-- V-ENC-5. -/
theorem test_encode_scenario_a : (after (.encode .API) (after .construct (written scenarioA))).obuf =
    [0x7E#8, 0x00#8, 0x1C#8, 0x1F#8, 0x05#8, 0x00#8, 0x2B#8, 0x31#8, 0x35#8, 0x35#8, 0x35#8, 0x31#8, 0x32#8, 0x33#8, 0x34#8, 0x35#8, 0x36#8, 0x37#8, 0x00#8, 0x00#8, 0x00#8, 0x00#8, 0x00#8, 0x00#8, 0x00#8, 0x00#8, 0x68#8, 0x65#8, 0x6C#8, 0x6C#8, 0x6F#8, 0x60#8] := by decide

/-- V-ENC-4. -/
theorem test_encode_not_constructed : statusOf (after (.encode .API) (written scenarioA)) = 0x00000256#32 := by decide

/-- V-LKP-1. -/
theorem test_lookup_known : (after (.lookup 4#8 6#8) State.reset).result = 0x00060400#32 := by decide

/-- V-LKP-8. -/
theorem test_lookup_absent : (after (.lookup 12#8 0xFF#8) State.reset).result = 0x00FF0C02#32 := by decide

/-- V-CTL-9. -/
theorem test_clear_keeps_prec : statusOf (after .clear (after (.build .API) (loaded [0x7E#8, 0x00#8, 0x02#8, 0x8A#8, 0x06#8, 0x6F#8]))) = 0x01000002#32 := by decide

/-- V-CTL-7. -/
theorem test_clear_clears_ovr : statusOf (after .clear { State.reset with status := State.reset.status.overrun }) = 0x00000002#32 := by decide

/-- V-CTL-1 to V-CTL-5. -/
theorem test_illegal_reservedOp0 : statusOf (after .reservedOp0 State.reset) = 0x00000156#32 := by decide

/-- V-CTL-1 to V-CTL-5. -/
theorem test_illegal_reservedOpC : statusOf (after .reservedOpC State.reset) = 0x000C0156#32 := by decide

/-- V-CTL-1 to V-CTL-5. -/
theorem test_illegal_reservedOpD : statusOf (after .reservedOpD State.reset) = 0x000D0156#32 := by decide

/-- V-CTL-1 to V-CTL-5. -/
theorem test_illegal_reservedOpE : statusOf (after .reservedOpE State.reset) = 0x000E0156#32 := by decide

/-- V-CTL-1 to V-CTL-5. -/
theorem test_illegal_reservedOpF : statusOf (after .reservedOpF State.reset) = 0x000F0156#32 := by decide

/-- V-DEC-1. -/
theorem test_frame_at_command : (after (.frameAtCommand [0x01#8, 0x4E#8, 0x4A#8]) State.reset).result = 0x00010108#32 := by decide

/-- V-DEC-2. -/
theorem test_frame_transmit_request : (after (.frameTransmitRequest [0x01#8, 0x00#8, 0x13#8, 0xA2#8, 0x00#8, 0x40#8, 0x0A#8, 0x01#8, 0x27#8, 0xFF#8, 0xFE#8, 0x00#8, 0x00#8, 0x48#8, 0x69#8]) State.reset).result = 0x00010110#32 := by decide

/-- V-DEC-3. -/
theorem test_frame_remote_at_command_request : (after (.frameRemoteAtCommandRequest [0x01#8, 0x00#8, 0x13#8, 0xA2#8, 0x00#8, 0x40#8, 0x40#8, 0x11#8, 0x22#8, 0xFF#8, 0xFE#8, 0x02#8, 0x44#8, 0x31#8, 0x05#8]) State.reset).result = 0x00010117#32 := by decide

/-- V-DEC-16: the slot is full. -/
theorem test_frame_tx_sms : (after (.frameTxSms [0x05#8, 0x00#8, 0x39#8, 0x39#8, 0x39#8, 0x39#8, 0x39#8, 0x39#8, 0x39#8, 0x39#8, 0x39#8, 0x39#8, 0x39#8, 0x39#8, 0x39#8, 0x39#8, 0x39#8, 0x39#8, 0x39#8, 0x39#8, 0x39#8, 0x39#8]) State.reset).result = 0x0005011F#32 := by decide

/-- V-DEC-14: a 0x00 inside the content. -/
theorem test_frame_tx_sms_embedded_zero : statusOf (after (.frameTxSms [0x05#8, 0x00#8, 0x31#8, 0x00#8, 0x32#8, 0x00#8, 0x00#8, 0x00#8, 0x00#8, 0x00#8, 0x00#8, 0x00#8, 0x00#8, 0x00#8, 0x00#8, 0x00#8, 0x00#8, 0x00#8, 0x00#8, 0x00#8, 0x00#8, 0x00#8]) State.reset) = 0x00020A26#32 := by decide

/-- V-DEC-5. -/
theorem test_frame_at_command_response : (after (.frameAtCommandResponse [0x01#8, 0x42#8, 0x44#8, 0x00#8, 0x03#8]) State.reset).result = 0x00010188#32 := by decide

/-- V-DEC-6. -/
theorem test_frame_modem_status : (after (.frameModemStatus [0x06#8]) State.reset).result = 0x0000008A#32 := by decide

/-- V-DEC-20. -/
theorem test_frame_modem_status_trailing : statusOf (after (.frameModemStatus [0x06#8, 0x00#8]) State.reset) = 0x00000826#32 := by decide

/-- V-DEC-7. -/
theorem test_frame_receive_packet : (after (.frameReceivePacket [0x00#8, 0x13#8, 0xA2#8, 0x00#8, 0x40#8, 0x52#8, 0x2B#8, 0xAA#8, 0x7D#8, 0x84#8, 0x01#8, 0x52#8, 0x78#8, 0x44#8, 0x61#8, 0x74#8, 0x61#8]) State.reset).result = 0x00000090#32 := by decide

/-- V-DEC-8. -/
theorem test_frame_device_request : (after (.frameDeviceRequest [0x01#8, 0x00#8, 0x00#8, 0x03#8, 0x74#8, 0x67#8, 0x74#8, 0x6F#8, 0x6B#8]) State.reset).prec.record =
    some { type := 0xB9#8, vals := [.int 1, .int 0, .int 0, .var [0x74#8, 0x67#8, 0x74#8], .payload [0x6F#8, 0x6B#8]] } := by decide

/-- V-DEC-9. -/
theorem test_frame_frame_error : (after (.frameFrameError [0x02#8]) State.reset).prec.tags = [some .ABSENT] := by decide

/-- V-DEC-11. -/
theorem test_frame_generic : (after (.frameGeneric []) State.reset).prec.record = some { type := 0xFF#8, vals := [.payload []] } := by decide

/-! ### Witnesses: concrete states and operands that meet the hypotheses of the statements, one per clause, at the ends of their ranges -/

theorem witness_DecodeOfEncodeIsTheInstruction :
    (Instr.frameGeneric (List.replicate 65534 0xFF#8)).wf = true ∧ (Instr.decodev .UNKNOWN 0xFF#8).wf = true := by
  simp only [Instr.wf, bodyFits]
  rw [List.length_replicate]
  decide

theorem witness_EncodeOfDecodedFrameDataIsTheFrameData : decode (.frameData [0xFF#8]) = .ok (.frameGeneric []) := by decide

theorem witness_CommandWordFieldsByOpcode :
    (∀ k : Fin 16, (BitVec.ofNat 32 (0xFFFFFFC0 + k.val)).toNat % 16 = k.val)
      ∧ ∀ m : Fin 4, (BitVec.ofNat 32 (0xFFFFFFC5 + 16 * m.val)).toNat / 16 % 4 = m.val := by decide

theorem witness_IgnoredCommandBitsSelectTheSameCommand :
    (0xFFFFFFF1#32 &&& readMask 1#32 = 1#32 &&& readMask 1#32)
      ∧ (0x0006FFF4#32 &&& readMask 0x00060004#32 = 0x00060004#32 &&& readMask 0x00060004#32)
      ∧ (0xFFFFFFD5#32 &&& readMask 0x15#32 = 0x15#32 &&& readMask 0x15#32)
      ∧ (0xFFFF8AD7#32 &&& readMask 0x8A17#32 = 0x8A17#32 &&& readMask 0x8A17#32)
      ∧ (0xFF0604FA#32 &&& readMask 0x0006040A#32 = 0x0006040A#32 &&& readMask 0x0006040A#32) := by decide

theorem witness_EngineStepRunsTheLatchedCommand :
    (State.reset.latch 1#32).config.wf = true ∧ (State.reset.latch 1#32).status.busy = true
      ∧ (State.reset.latch 1#32).latched = some 1#32 ∧ engineTurn (State.reset.latch 1#32) = true
      ∧ decode (.command 1#32) = .ok .chksum := by decide

theorem witness_EngineStepRunsTheDispatchedFrame_build :
    let s := (loaded [0x7E#8, 0x00#8, 0x02#8, 0x8A#8, 0x06#8, 0x6F#8]).latch 0x16#32
    s.config.wf = true ∧ s.status.busy = true ∧ s.latched = some 0x16#32 ∧ engineTurn s = true
      ∧ decode (.frameData [0x8A#8, 0x06#8]) = .ok (.frameModemStatus [0x06#8])
      ∧ registered s.config 0x8A#8 = frameLayout 0x8A#8
      ∧ decode (.command 0x16#32) = .ok (.build .API) ∧ inboundFrameData .API s.ibuf = .ok [0x8A#8, 0x06#8] :=
  ⟨by decide, rfl, rfl, rfl, by decide, by decide, by decide, by decide⟩

theorem witness_EngineStepRunsTheDispatchedFrame_decodev :
    let s := (loaded [0x8A#8, 0x06#8]).latch 0x00008A27#32
    s.config.wf = true ∧ s.status.busy = true ∧ s.latched = some 0x00008A27#32 ∧ engineTurn s = true
      ∧ registered s.config 0x8A#8 = frameLayout 0x8A#8
      ∧ decode (.command 0x00008A27#32) = .ok (.decodev .API_ESC 0x8A#8) ∧ s.ibuf = [0x8A#8, 0x06#8] :=
  ⟨by decide, rfl, rfl, rfl, by decide, by decide, rfl⟩

/-- The premises that the statements about the host's ports share, idle and busy. -/
theorem witness_host_premises (acts : List HostAction) :
    (idleWith acts).config.wf = true ∧ (idleWith acts).pending = acts ∧ (idleWith acts).status.busy = false
      ∧ (inFlight 1#32 acts).config.wf = true ∧ (inFlight 1#32 acts).pending = acts ∧ (inFlight 1#32 acts).status.busy = true
      ∧ 0 < (inFlight 1#32 acts).latencyLeft :=
  ⟨test_config_wf, rfl, rfl, test_config_wf, rfl, rfl, Nat.zero_lt_one⟩

theorem witness_CommandWriteIsAcceptedOrDropped :
    (idleWith [.writeReg 0 1#32]).pending = .writeReg 0 1#32 :: [] ∧ (inFlight 2#32 [.writeReg 0 1#32]).pending = .writeReg 0 1#32 :: [] :=
  ⟨rfl, rfl⟩

theorem witness_LoadReplacesIbufOrIsDroppedOrRefused :
    (List.replicate 131077 0#8).length ≤ (idleWith []).config.ibufCap ∧ (idleWith []).config.ibufCap < (List.replicate 131078 0#8).length := by
  rw [List.length_replicate, List.length_replicate]; decide

theorem witness_RecordWriteClearsValidOrIsDropped :
    (idleWith [.put scenarioA]).pending = .put scenarioA :: [] ∧ (inFlight 1#32 [.put scenarioA]).pending = .put scenarioA :: [] :=
  ⟨rfl, rfl⟩

/-- Every register index is read in a clause, busy or idle; indices 1 to 15 are written in one. -/
theorem witness_RegisterReadsAndIgnoredWrites :
    (∀ idx : Fin 16, idx.val = 0 ∨ idx.val = 1 ∨ idx.val = 2 ∨ idx.val = 3 ∨ idx.val = 4 ∨ 5 ≤ idx.val)
      ∧ (∃ idx : Fin 16, idx.val ≠ 2 ∧ idx.val ≠ 3 ∧ idx.val = 4) ∧ (0 < (1 : Fin 16).val ∧ 0 < (15 : Fin 16).val)
      ∧ (idleWith [.writeReg 15 1#32]).pending = .writeReg 15 1#32 :: [] ∧ (inFlight 1#32 [.readReg 4]).pending = .readReg 4 :: [] :=
  ⟨by decide, by decide, by decide, rfl, rfl⟩

/-- A platform that places CMD, STATUS and the three ports on its bus. -/
def onBus (acts : List HostAction) : State :=
  { idleWith acts with config :=
      { defaultConfig with busMap := [(0, .register 0), (4, .register 1), (32, .ibuf), (33, .obuf), (34, .prec)] } }

/-- A CMD write at the address of register 0 starts a command (R16, R52); a word written to the address of IBUF reaches nothing. -/
theorem test_bus_write_of_cmd : (match step (onBus [.bus 0 (.writeWord 1#32)]) with
    | .next t => t.status.busy && t.latched == some 1#32
    | _ => false) = true := by decide
theorem test_bus_refuses_a_word_for_ibuf : hostAct (.bus 32 (.writeWord 1#32)) (onBus []) = .refused .noBusPlace := rfl

/-- The first and the last address that holds something, and an address below, between and above that holds nothing. -/
theorem witness_BusAccessIsTheAccessOfItsPlace :
    (onBus []).config.wf = true ∧ (onBus []).status.busy = false
      ∧ ((0, .register 0) ∈ (onBus []).config.busMap ∧ (4, .register 1) ∈ (onBus []).config.busMap ∧ (32, .ibuf) ∈ (onBus []).config.busMap
        ∧ (33, .obuf) ∈ (onBus []).config.busMap ∧ (34, .prec) ∈ (onBus []).config.busMap)
      ∧ (∀ p, (35, p) ∉ (onBus []).config.busMap) ∧ (∀ p, (1, p) ∉ (onBus []).config.busMap)
      ∧ (onBus [.bus 34 .readRecord]).pending = .bus 34 .readRecord :: [] :=
  ⟨by decide, rfl, by decide, by simp [onBus], by simp [onBus], rfl⟩

/-- A chip whose program runs CHKSUM, DECODE_FRAME, FRAME and SEND: each premise holds, and SEND's record passes or fails CONSTRUCT. -/
theorem witness_PseudoInstructionsRunTheirCommands :
    encode .chksum = .command 1#32 ∧ (idleWith (runActions .chksum ++ [.readReg 2])).pending = runActions .chksum ++ [.readReg 2]
      ∧ completes .chksum (idleWith (runActions .chksum ++ [.readReg 2])) = true
      ∧ completes (.build .API) (loaded [0x7E#8, 0x00#8, 0x02#8, 0x8A#8, 0x06#8, 0x6F#8]) = true
      ∧ completes (.wrap .API_ESC) (loaded [0x8A#8, 0x11#8]) = true
      ∧ (completes .construct (written modemStatus) = true ∧ (after .construct (written modemStatus)).status.err = false
        ∧ completes (.encode .API) (after .construct (written modemStatus)) = true)
      ∧ (after .construct (written { modemStatus with vals := [] })).status.err = true := by decide

/-- The last byte of OBUF and the first index past it. -/
theorem witness_BufferReadsIdleAndBusy :
    (after .escape (loaded [0x7E#8])).obuf[1]? = some 0x5E#8 ∧ (after .escape (loaded [0x7E#8])).obuf.length ≤ 2
      ∧ (inFlight 1#32 [.readReg 3]).pending = .readReg 3 :: [] := by decide

/-- No action to come, a WAIT, and SEND's condition with and without an error. -/
theorem witness_IdleBlockKeepsItsState :
    State.reset.config.wf = true ∧ State.reset.status.busy = false ∧ State.reset.pending = []
      ∧ (idleWith [.wait]).pending = .wait :: [] ∧ (idleWith [.skipOnError 2, .wait]).pending = .skipOnError 2 :: [.wait]
      ∧ State.reset.status.err = false ∧ (after (.build .API) State.reset).status.err = true
      ∧ 0 < (inFlight 1#32 [.skipOnError 2]).latencyLeft := by decide

theorem witness_ResetAbandonsTheCommandAndIsIdempotent :
    (inFlight 1#32 [.resetInput]).pending = .resetInput :: [] ∧ ∃ t, exec .chksum State.reset = .next t := ⟨rfl, _, rfl⟩

theorem witness_OnlyALegalConfigurationIsLoaded :
    defaultConfig.wf = true ∧ Config.wf { defaultConfig with codetab := [] } = false
      ∧ ({ State.reset with config := { defaultConfig with codetab := [] } } : State).config.wf = false
      ∧ (∃ t, step (idleWith [.wait]) = .next t) := ⟨by decide, by decide, by decide, _, rfl⟩

/-- Both sides of the equivalence are met by some layout and refused by some other. -/
theorem witness_LayoutWellFormednessIndexByIndex : layoutWf layoutTxSms = true ∧ layoutWf (layoutOf [.INT 1, .CID]) = false := by decide

theorem witness_AcceptedCommandCompletes :
    Inv (inFlight 1#32 [.readReg 1]) ∧ (inFlight 1#32 [.readReg 1]).status.busy = true
      ∧ ∀ a ∈ (inFlight 1#32 [.readReg 1]).pending, hostActionFits (inFlight 1#32 [.readReg 1]).config a :=
  ⟨⟨by decide, by decide, by decide, by decide⟩, rfl, by simp [inFlight, hostActionFits]⟩

theorem witness_EscapeIsInvertibleAndHidesReservedBytes : (escape [0x7E#8])[0]? = some 0x7D#8 := by decide

/-- The smallest envelope at MINLEN 4, and the longest frame data. -/
theorem witness_ValidateAcceptsEveryEnvelope :
    (([] : List Byte).length ≤ 65535 ∧ (4#16).toNat ≤ ([] : List Byte).length + 4 ∧ (loaded (plainFrame [])).ibuf = plainFrame [])
      ∧ ((List.replicate 65535 0#8).length ≤ 65535 ∧ (0xFFFF#16).toNat ≤ (List.replicate 65535 0#8).length + 4) := by
  refine ⟨⟨by decide, by decide, rfl⟩, ?_⟩
  rw [List.length_replicate]
  decide

theorem witness_ValidateReportsTheFirstFailingCheck :
    (loaded [0x7E#8, 0x00#8, 0x00#8]).ibuf.length < 4
      ∧ (loaded [0x7E#8, 0x00#8, 0x00#8, 0xFF#8]).ibuf.length < (5#16).toNat
      ∧ (4#16).toNat ≤ (loaded [0x7F#8, 0x00#8, 0x00#8, 0xFF#8]).ibuf.length ∧ (0x7F#8 : Byte) ≠ 0x7E#8
      ∧ 256 * (0x00#8 : Byte).toNat + (0x01#8 : Byte).toNat ≠ [0xFF#8].length - 1
      ∧ 256 * (0x00#8 : Byte).toNat + (0x00#8 : Byte).toNat = ([] : List Byte).length
      ∧ (([] : List Byte).map BitVec.toNat).sum % 256 + (0xFE#8 : Byte).toNat ≠ 0xFF
      ∧ (([] : List Byte).map BitVec.toNat).sum % 256 + (0xFF#8 : Byte).toNat = 0xFF := by decide

theorem witness_CorruptedLengthFieldFails :
    envelope [0x7E#8, 0x00#8, 0x02#8, 0x8A#8, 0x06#8, 0x6F#8] 5 = .ok [0x8A#8, 0x06#8] ∧ (0 : Nat) ≠ 2 ∧ (65535 : Nat) ≠ 2 :=
  ⟨by decide, by decide, by decide⟩

/-- The first frame-data byte and the checksum byte. -/
theorem witness_CorruptedChecksumOrDataByteFails :
    envelope [0x7E#8, 0x00#8, 0x02#8, 0x8A#8, 0x06#8, 0x6F#8] 5 = .ok [0x8A#8, 0x06#8]
      ∧ [0x7E#8, 0x00#8, 0x02#8, 0x8A#8, 0x06#8, 0x6F#8][3]? ≠ some 0x8B#8
      ∧ [0x7E#8, 0x00#8, 0x02#8, 0x8A#8, 0x06#8, 0x6F#8][5]? ≠ some 0x75#8 := ⟨by decide, by decide, by decide⟩

theorem witness_WrapCommandBuildsTheFrame :
    (loaded (List.replicate 65535 0#8)).ibuf.length ≤ 65535 ∧ 65535 < (loaded (List.replicate 65536 0#8)).ibuf.length := by
  rw [loaded, loaded, State.setIbuf_ibuf, State.setIbuf_ibuf, List.length_replicate, List.length_replicate]; decide

theorem witness_UnsupportedModeIsRejectedFirst :
    ((Mode.ofBits 0#2 = .AT ∧ (0#8 : Byte) = 0#8) ∨ (Mode.ofBits 0#2 = .UNKNOWN ∧ (0#8 : Byte) = 3#8))
      ∧ ((Mode.ofBits 3#2 = .AT ∧ (3#8 : Byte) = 0#8) ∨ (Mode.ofBits 3#2 = .UNKNOWN ∧ (3#8 : Byte) = 3#8)) := by decide

theorem witness_BuildDecodesTheWireFrame :
    (loaded [0x7E#8, 0x00#8, 0x02#8, 0x8A#8, 0x7D#8, 0x31#8, 0x64#8]).ibuf = wireFrame [0x8A#8, 0x11#8] .API_ESC
      ∧ (loaded [0x7E#8, 0x00#8, 0x02#8, 0x8A#8, 0x11#8, 0x64#8]).ibuf = wireFrame [0x8A#8, 0x11#8] .API
      ∧ registered defaultConfig 0x8A#8 = some layoutModemStatus
      ∧ decodeLayout defaultConfig layoutModemStatus [0x8A#8, 0x11#8] =
          .ok ({ type := 0x8A#8, vals := [.code 0x11] }, [some .UNKNOWN]) := ⟨by decide, by decide, by decide, by decide⟩

theorem witness_BuildReportsTheFirstFailingStage :
    inboundUnescape .API_ESC [0x7E#8, 0x7D#8] = .error .danglingEscape
      ∧ inboundUnescape .API [0x7E#8, 0x00#8, 0x00#8, 0xFF#8] = .ok [0x7E#8, 0x00#8, 0x00#8, 0xFF#8]
      ∧ envelope [0x7E#8, 0x00#8, 0x00#8, 0xFF#8] 5 = .error .tooShort
      ∧ envelope [0x7E#8, 0x00#8, 0x01#8, 0x42#8, 0xBD#8] 5 = .ok [0x42#8] ∧ registered defaultConfig 0x42#8 = none
      ∧ envelope [0x7E#8, 0x00#8, 0x01#8, 0x8A#8, 0x75#8] 5 = .ok [0x8A#8]
      ∧ decodeLayout defaultConfig layoutModemStatus [0x8A#8] = .error .variantTooShort ∧ layoutModemStatus.type = 0x8A#8 :=
  ⟨by decide, by decide, by decide, by decide, by decide, by decide, by decide, by decide⟩

theorem witness_BuildReportsTheFirstFailingStage_byte_zero :
    (loaded [0x7D#8, 0x5E#8, 0x00#8, 0x00#8, 0xFF#8]).ibuf = 0x7D#8 :: [0x5E#8, 0x00#8, 0x00#8, 0xFF#8]
      ∧ unescape [0x5E#8, 0x00#8, 0x00#8, 0xFF#8] = .ok [0x5E#8, 0x00#8, 0x00#8, 0xFF#8]
      ∧ 4 ≤ [0x5E#8, 0x00#8, 0x00#8, 0xFF#8].length := ⟨rfl, rfl, by decide⟩

/-- One byte below MINLEN, exactly MINLEN with another discriminator, one field error of each kind, and frame data that decodes. -/
theorem witness_DecodevDecodesOrReportsTheFirstFailingCheck :
    registered defaultConfig 0x42#8 = none ∧ registered defaultConfig 0x8A#8 = some layoutModemStatus
      ∧ (loaded [0x8A#8]).ibuf.length + 4 < minlen layoutModemStatus ∧ (loaded [0x8A#8]).ibuf.length + 5 = minlen layoutModemStatus
      ∧ minlen layoutModemStatus ≤ (loaded [0x8B#8, 0x06#8]).ibuf.length + 4 ∧ (0x8B#8 : Byte) ≠ layoutModemStatus.type
      ∧ decodeLayout defaultConfig layoutModemStatus [0x8A#8, 0x06#8, 0x00#8] = .error .trailingBytes
      ∧ decodeLayout defaultConfig layoutDeviceRequest [0xB9#8, 0x00#8, 0x00#8, 0x00#8, 0x01#8] = .error (.varFieldOverflow 3)
      ∧ decodeLayout defaultConfig layoutTxSms (0x1F#8 :: 0x00#8 :: 0x00#8 :: List.replicate 20 0x00#8) = .error (.fieldInvalid 2)
      ∧ decodeLayout defaultConfig layoutModemStatus [0x8A#8, 0x06#8] = .ok (modemStatus, [some .KNOWN]) :=
  ⟨by decide, by decide, by decide, by decide, by decide, by decide, by decide, by decide, by decide, by decide⟩

theorem witness_BuildEqualsEnvelopeThenDecodev :
    inboundUnescape .API_ESC [0x7E#8, 0x00#8, 0x02#8, 0x8A#8, 0x7D#8, 0x31#8, 0x64#8] =
        .ok [0x7E#8, 0x00#8, 0x02#8, 0x8A#8, 0x11#8, 0x64#8]
      ∧ inboundUnescape .API [0x7E#8, 0x00#8, 0x02#8, 0x8A#8, 0x11#8, 0x64#8] = .ok [0x7E#8, 0x00#8, 0x02#8, 0x8A#8, 0x11#8, 0x64#8]
      ∧ envelope [0x7E#8, 0x00#8, 0x02#8, 0x8A#8, 0x11#8, 0x64#8] 5 = .ok [0x8A#8, 0x11#8] := ⟨by decide, by decide, by decide⟩

theorem witness_AddressedFramesDecode : (List.replicate 8 0xFF#8).length = 8 ∧ (List.replicate 2 0xFF#8).length = 2 := by decide

/-- A full slot, and the shortest phone number with a `+`. -/
theorem witness_TxSmsFrameDecodes :
    (PhoneText (List.replicate 20 0x39#8) ∧ (List.replicate 20 0x39#8).length ≤ 20)
      ∧ (PhoneText [0x2B#8, 0x30#8] ∧ [0x2B#8, 0x30#8].length ≤ 20) :=
  ⟨⟨⟨[], List.replicate 20 0x39#8, rfl, .inl rfl, by decide, by decide⟩, by decide⟩,
    ⟨⟨[0x2B#8], [0x30#8], rfl, .inr rfl, by decide, by decide⟩, by decide⟩⟩

theorem witness_DeviceRequestAndGenericFramesDecode : (List.replicate 255 0x41#8).length ≤ 255 := by
  rw [List.length_replicate]

/-- What ends in no trailing zero and is no phone number, of at most 20 bytes. -/
def badPhones : List (List Byte) :=
  [[], [0x2B#8], [0x2F#8], [0x3A#8], [0x31#8, 0x41#8], [0x2B#8, 0x2B#8, 0x31#8], [0x31#8, 0x00#8, 0x32#8], List.replicate 20 0x41#8]

theorem witness_FrameDecodersReportErrors_phone :
    ∀ b ∈ badPhones, b.length + (20 - b.length) = 20 ∧ b.getLast? ≠ some 0x00#8 ∧ ¬ PhoneText b := by
  have h : ∀ b ∈ badPhones, b.length + (20 - b.length) = 20 ∧ b.getLast? ≠ some 0x00#8 ∧ matchesPattern .PHONE b = false := by decide
  intro b hb
  refine ⟨(h b hb).1, (h b hb).2.1, fun hp => ?_⟩
  simpa [(matches_phone_iff b).2 hp] using (h b hb).2.2

/-- For each variant the longest body that is still too short, and a target length one past the end. -/
theorem witness_FrameDecodersReportErrors :
    (List.replicate 2 0#8).length + 5 < 8 ∧ (List.replicate 12 0#8).length + 5 < 18 ∧ (List.replicate 13 0#8).length + 5 < 19
      ∧ (List.replicate 21 0#8).length + 5 < 27 ∧ (List.replicate 3 0#8).length + 5 < 9 ∧ ([] : List Byte).length + 5 < 6
      ∧ (List.replicate 10 0#8).length + 5 < 16 ∧ ([] : List Byte).length < (1#8 : Byte).toNat := by decide

theorem witness_BuildAcceptsExactlyFromMinimumLength :
    State.reset.config.wf = true ∧ registered State.reset.config layoutDeviceRequest.type = some layoutDeviceRequest
      ∧ List.Forall₂ fieldConforms layoutDeviceRequest.fields [.int 0, .int 0, .int 0, .var [], .payload []]
      ∧ (∀ b, FieldVal.var b ∈ [.int 0, .int 0, .int 0, .var [], .payload []]
            ∨ FieldVal.payload b ∈ [.int 0, .int 0, .int 0, .var [], .payload []] → b = [])
      ∧ encodeLayout layoutDeviceRequest { type := 0xB9#8, vals := [.int 0, .int 0, .int 0, .var [], .payload []] } =
          some [0xB9#8, 0x00#8, 0x00#8, 0x00#8, 0x00#8]
      ∧ [0xB9#8, 0x00#8, 0x00#8, 0x00#8].length + 5 = minlen layoutDeviceRequest
      ∧ (minlen layoutGeneric = 5 ∧ ([] : List Byte).length + 5 = minlen layoutGeneric
        ∧ registered State.reset.config layoutGeneric.type = some layoutGeneric) :=
  ⟨test_config_wf, by decide, by simp [layoutDeviceRequest, fieldConforms], by simp, by decide, by decide, by decide⟩

/-- The largest values of every kind of field. -/
theorem witness_FrameDataRoundTrip :
    layoutWf layoutTxSms = true ∧ scenarioA.type = layoutTxSms.type
      ∧ List.Forall₂ fieldConforms [.CID, .INT 8, .CODE 5#8, .BYTES 1, .TEXT 20 .PHONE, .VAR, .PAYLOAD]
          [.cid 255, .int (256 ^ 8 - 1), .code 255, .bytes [0#8], .text (List.replicate 20 0x39#8), .var [0#8], .payload []]
      ∧ decodeLayout defaultConfig layoutFrameError [0xFE#8, 0x02#8] = .ok ({ type := 0xFE#8, vals := [.code 2] }, [some .ABSENT]) := by
  refine ⟨by decide, rfl, ?_, by decide⟩
  simp [fieldConforms, matchesPattern, afterPlus, isDigit]

theorem witness_ConstructAcceptsConformingRecords :
    (written modemStatus).prec.record = some modemStatus ∧ registered (written modemStatus).config modemStatus.type = some layoutModemStatus
      ∧ List.Forall₂ fieldConforms layoutModemStatus.fields modemStatus.vals
      ∧ encodeLayout layoutModemStatus modemStatus = some [0x8A#8, 0x06#8] ∧ [0x8A#8, 0x06#8].length ≤ 65535 :=
  ⟨rfl, by decide, by simp [layoutModemStatus, modemStatus, fieldConforms], by decide, by decide⟩

/-- The reset block with a record of this type and these values written. -/
def recordOf (t : Byte) (vals : List FieldVal) : Record := { type := t, vals := vals }

def extraField : List FieldVal := [.code 6, .payload []]
def wrongKind : List FieldVal := [.int 6]

/-- No record; an unregistered type; a field too many, a field too few and a wrong kind. -/
theorem witness_ConstructChecksRecordTypeAndShapeFirst :
    State.reset.prec.record = none
      ∧ ((written (recordOf 0x42#8 [])).prec.record = some (recordOf 0x42#8 []) ∧ registered defaultConfig 0x42#8 = none)
      ∧ (Option.map specKind layoutModemStatus.fields[1]? ≠ Option.map FieldVal.kind extraField[1]?)
      ∧ (Option.map specKind layoutModemStatus.fields[0]? ≠ none)
      ∧ (Option.map specKind layoutModemStatus.fields[0]? ≠ Option.map FieldVal.kind wrongKind[0]?)
      ∧ ∀ j < 1, ∃ f v, layoutModemStatus.fields[j]? = some f ∧ extraField[j]? = some v ∧ FieldVal.kind v = specKind f := by
  refine ⟨by decide, by decide, by decide, by decide, by decide, ?_⟩
  intro j hj
  have hj0 : j = 0 := by omega
  subst hj0
  exact ⟨_, _, rfl, rfl, rfl⟩

/-- The premises about shape and prefix: the record has the layout's shape, and every value before index `i` conforms. -/
def BadAt (L : Layout) (vals : List FieldVal) (i : Nat) (f : FieldSpec) (v : FieldVal) : Prop :=
  vals.map FieldVal.kind = L.fields.map specKind
    ∧ (∀ j < i, ∃ g u, L.fields[j]? = some g ∧ vals[j]? = some u ∧ fieldConforms g u) ∧ L.fields[i]? = some f ∧ vals[i]? = some v

/-- The values before index `i` pass the field check. -/
def prefixPasses (L : Layout) (vals : List FieldVal) (j : Nat) : Bool :=
  match L.fields[j]?, vals[j]? with
  | some g, some u => (checkField 0 g u).isNone
  | _, _ => false

theorem badAt_of (L : Layout) (vals : List FieldVal) (i : Nat) (f : FieldSpec) (v : FieldVal)
    (hk : vals.map FieldVal.kind = L.fields.map specKind) (hp : ∀ j < i, prefixPasses L vals j = true) (hf : L.fields[i]? = some f)
    (hv : vals[i]? = some v) : BadAt L vals i f v := by
  refine ⟨hk, ?_, hf, hv⟩
  intro j hj
  have h := hp j hj
  unfold prefixPasses at h
  split at h
  · rename_i g u hg hu
    exact ⟨g, u, hg, hu, (checkField_none_iff 0 g u).1 (by simpa using h)⟩
  · cases h

/-- For each constraint the smallest value that breaks it, behind conforming values. -/
theorem witness_ConstructReportsTheFirstBadField :
    BadAt layoutAtCommand [.cid 256, .bytes [0x4E#8, 0x4A#8], .payload []] 0 .CID (.cid 256)
      ∧ (BadAt layoutTxSms [.cid 255, .int 256, .text [0x39#8], .payload []] 1 (.INT 1) (.int 256) ∧ 256 ^ 1 ≤ 256)
      ∧ BadAt layoutModemStatus [.code 256] 0 (.CODE 4#8) (.code 256)
      ∧ BadAt layoutAtCommand [.cid 255, .bytes [0x4E#8], .payload []] 1 (.BYTES 2) (.bytes [0x4E#8])
      ∧ BadAt layoutTxSms [.cid 255, .int 255, .text (List.replicate 21 0x31#8), .payload []] 2 (.TEXT 20 .PHONE)
          (.text (List.replicate 21 0x31#8))
      ∧ (BadAt layoutTxSms [.cid 255, .int 255, .text (List.replicate 20 0x41#8), .payload []] 2 (.TEXT 20 .PHONE)
          (.text (List.replicate 20 0x41#8)) ∧ matchesPattern .PHONE (List.replicate 20 0x41#8) = false)
      ∧ BadAt layoutDeviceRequest [.int 255, .int 255, .int 255, .var (List.replicate 256 0x41#8), .payload []] 3 .VAR
          (.var (List.replicate 256 0x41#8)) :=
  ⟨badAt_of _ _ _ _ _ (by decide) (by decide) rfl rfl, ⟨badAt_of _ _ _ _ _ (by decide) (by decide) rfl rfl, by decide⟩,
    badAt_of _ _ _ _ _ (by decide) (by decide) rfl rfl, badAt_of _ _ _ _ _ (by decide) (by decide) rfl rfl,
    badAt_of _ _ _ _ _ (by decide) (by decide) rfl rfl,
    ⟨badAt_of _ _ _ _ _ (by decide) (by decide) rfl rfl, by decide⟩, badAt_of _ _ _ _ _ (by decide) (by decide) rfl rfl⟩

/-- The lengths in those values, and frame data of 65536 bytes. -/
theorem witness_too_long_values :
    20 < (List.replicate 21 0x31#8).length ∧ 255 < (List.replicate 256 0x41#8).length
      ∧ 65535 < (0xFF#8 :: List.replicate 65535 0#8).length := by
  rw [List.length_cons, List.length_replicate, List.length_replicate, List.length_replicate]; decide

/-- A valid 0xFF record whose frame data is one byte too long for the length field, as DECODEV can leave it. -/
def overlong : State :=
  State.reset.setPrec { record := some { type := 0xFF#8, vals := [.payload (List.replicate 65535 0x7E#8)] }, tags := [none], valid := true }

theorem witness_EncodeWritesTheWireFrame_overlong :
    overlong.prec.valid = true ∧ registered overlong.config 0xFF#8 = some layoutGeneric
      ∧ encodeLayout layoutGeneric { type := 0xFF#8, vals := [.payload (List.replicate 65535 0x7E#8)] } =
          some (0xFF#8 :: List.replicate 65535 0x7E#8 ++ [])
      ∧ 65535 < (0xFF#8 :: List.replicate 65535 0x7E#8 ++ ([] : List Byte)).length := by
  refine ⟨rfl, by decide, rfl, ?_⟩
  rw [List.length_append, List.length_cons, List.length_replicate]
  decide

theorem witness_EncodeWritesTheWireFrame :
    let s := after .construct (written modemStatus)
    s.prec.valid = true ∧ s.prec.record = some modemStatus ∧ registered s.config modemStatus.type = some layoutModemStatus
      ∧ encodeLayout layoutModemStatus modemStatus = some [0x8A#8, 0x06#8]
      ∧ State.reset.prec.valid = false ∧ State.reset.status.busy = false := ⟨by decide, by decide, by decide, by decide, rfl, rfl⟩

/-- A completed ENCODE of each of the three classes. -/
theorem witness_EncodeNeverReportsAFieldConstraint :
    (∃ t, exec (.encode .API) State.reset = .next t ∧ t.status.eclass = 5#4)
      ∧ (∃ t, exec (.encode .AT) State.reset = .next t ∧ t.status.eclass = 1#4)
      ∧ ∃ t, exec (.encode .API_ESC) (after .construct (written modemStatus)) = .next t ∧ t.status.eclass = 0#4 :=
  ⟨⟨_, exec_after _ _ (by decide), by decide⟩, ⟨_, exec_after _ _ (by decide), by decide⟩, ⟨_, exec_after _ _ (by decide), by decide⟩⟩

theorem witness_RecordRoundTripThroughTheWire :
    (written scenarioA).config.wf = true ∧ (written scenarioA).prec.record = some scenarioA
      ∧ exec .construct (written scenarioA) = .next (after .construct (written scenarioA))
      ∧ (after .construct (written scenarioA)).status.err = false := ⟨by decide, rfl, exec_after _ _ (by decide), by decide⟩

theorem witness_FrameRoundTripThroughTheRecord :
    (loaded [0x7E#8, 0x00#8, 0x02#8, 0x8A#8, 0x7D#8, 0x31#8, 0x64#8]).config.wf = true
      ∧ Canonical .API_ESC (loaded [0x7E#8, 0x00#8, 0x02#8, 0x8A#8, 0x7D#8, 0x31#8, 0x64#8]).ibuf
      ∧ (∃ t, exec (.build .API_ESC) (loaded [0x7E#8, 0x00#8, 0x02#8, 0x8A#8, 0x7D#8, 0x31#8, 0x64#8]) = .next t ∧ t.status.err = false)
      ∧ Canonical .API [0x7E#8, 0x00#8, 0x02#8, 0x8A#8, 0x06#8, 0x6F#8] :=
  ⟨by decide, fun _ => ⟨[0x00#8, 0x02#8, 0x8A#8, 0x11#8, 0x64#8], by decide⟩, ⟨_, exec_after _ _ (by decide), by decide⟩, fun h => by cases h⟩

/-- The first and last ids of every range of tables. -/
theorem witness_LookupReportsTheTag :
    ((0#8 : Byte).toNat ≤ 5 ∧ (5#8 : Byte).toNat ≤ 5 ∧ 8 ≤ (8#8 : Byte).toNat ∧ (12#8 : Byte).toNat ≤ 12)
      ∧ ((6#8 : Byte).toNat = 6 ∧ (7#8 : Byte).toNat = 7 ∧ 13 ≤ (13#8 : Byte).toNat ∧ 13 ≤ (255#8 : Byte).toNat)
      ∧ (4#8, 6#8) ∈ State.reset.config.codetab := by decide

theorem inv_reset : Inv State.reset := ⟨by decide, by decide, by decide, by decide⟩

/-- Idle with a host action to come, in flight, and after an error: the invariant holds and a step answers a next state. -/
theorem witness_EveryStepKeepsTheInvariant :
    (Inv (idleWith [.put scenarioA]) ∧ ∃ t, step (idleWith [.put scenarioA]) = .next t)
      ∧ (Inv (State.reset.latch 0x19#32) ∧ ∃ t, step (State.reset.latch 0x19#32) = .next t ∧ t.status.err = true) :=
  ⟨⟨⟨by decide, by decide, by decide, by decide⟩, _, rfl⟩, ⟨⟨by decide, by decide, by decide, by decide⟩, _, rfl, rfl⟩⟩

theorem witness_NothingHangsUnderTheInvariant : Inv (after .construct (written scenarioA)) :=
  ⟨by decide, by decide, by decide, by decide⟩

/-- Instructions of every shape, each completing: a register only, OBUF, PREC, CLEAR. -/
theorem witness_InstructionsChangeOnlyTheirOutputs :
    (∃ t, exec .chksum State.reset = .next t) ∧ (∃ t, exec .escape State.reset = .next t)
      ∧ (∃ t, exec (.frameModemStatus [0x06#8]) State.reset = .next t) ∧ (∃ t, exec .clear State.reset = .next t)
      ∧ writesObuf .chksum = false ∧ writesPrec .escape = false ∧ Instr.chksum ≠ .clear :=
  ⟨⟨_, rfl⟩, ⟨_, rfl⟩, ⟨_, exec_after _ _ (by decide)⟩, ⟨_, rfl⟩, rfl, rfl, by decide⟩

/-- Failing instructions of every shape. -/
theorem witness_FailingInstructionsLeaveNoPartialOutput :
    (∃ t, exec (.validate 5#16) State.reset = .next t ∧ t.status.err = true ∧ writesObuf (.validate 5#16) = true)
      ∧ (∃ t, exec (.build .API) State.reset = .next t ∧ t.status.err = true ∧ writesPrec (.build .API) = true)
      ∧ (∃ t, exec .construct State.reset = .next t ∧ t.status.err = true)
      ∧ ∃ t, exec .reservedOpC State.reset = .next t ∧ t.status.err = true :=
  ⟨⟨_, exec_after _ _ (by decide), by decide, rfl⟩, ⟨_, exec_after _ _ (by decide), by decide, rfl⟩,
    ⟨_, exec_after _ _ (by decide), by decide⟩, ⟨_, rfl, rfl⟩⟩

/-- Two states that agree on the operands and differ elsewhere. -/
theorem witness_OutcomeDependsOnOperandsOnly :
    State.reset.ibuf = (after .clear State.reset).ibuf ∧ State.reset.prec = (after .clear State.reset).prec
      ∧ State.reset.config = (after .clear State.reset).config ∧ State.reset.status ≠ (after .clear State.reset).status
      ∧ (∃ t, exec .escape State.reset = .next t) ∧ ∃ t, exec .escape (after .clear State.reset) = .next t :=
  ⟨rfl, rfl, rfl, by decide, ⟨_, rfl⟩, ⟨_, rfl⟩⟩

/-- The modes that the MODE clauses name. -/
theorem witness_modes : modeAccepted .API = true ∧ modeAccepted .API_ESC = true ∧ modeAccepted .AT = false ∧ modeAccepted .UNKNOWN = false := by
  decide

end Sys2Proof.Tests
end

section
/-! PROOF. What a legal configuration is (R6, R111, R122, R171, R209), and that the configuration is frozen (R27). -/

namespace Sys2Proof.Machine

/-! ### Legality spelled out -/

theorem keysRise_iff_pairwise (es : List (Byte × Layout)) :
    keysRise es = true ↔ es.Pairwise (fun e e' => e.1.toNat < e'.1.toNat) := by
  induction es with
  | nil => simp [keysRise]
  | cons e es ih => simp [keysRise, ih]

theorem membersRise_iff_pairwise (es : List (Byte × Byte)) :
    membersRise es = true ↔ es.Pairwise (fun e e' => 256 * e.1.toNat + e.2.toNat < 256 * e'.1.toNat + e'.2.toNat) := by
  induction es with
  | nil => simp [membersRise]
  | cons e es ih => simp [membersRise, ih]

theorem addressesRise_iff_pairwise (es : List (Nat × BusPlace)) :
    addressesRise es = true ↔ es.Pairwise (fun e e' => e.1 < e'.1) := by
  induction es with
  | nil => simp [addressesRise]
  | cons e es ih => simp [addressesRise, ih]

theorem isMember_iff_mem (cfg : Config) (t n : Byte) : isMember cfg t n = true ↔ (t, n) ∈ cfg.codetab :=
  List.contains_iff_mem

/-- The conditions of a legal configuration, one by one (R209). -/
theorem config_wf_iff (cfg : Config) : cfg.wf = true ↔
    131077 ≤ cfg.ibufCap ∧ 2 * cfg.ibufCap ≤ cfg.obufCap
    ∧ (∀ e ∈ cfg.registry, e.2.type = e.1 ∧ layoutWf e.2 = true)
    ∧ cfg.registry.Pairwise (fun e e' => e.1.toNat < e'.1.toNat)
    ∧ (4#8, 0x06#8) ∈ cfg.codetab
    ∧ cfg.codetab.Pairwise (fun e e' => 256 * e.1.toNat + e.2.toNat < 256 * e'.1.toNat + e'.2.toNat)
    ∧ cfg.busMap.Pairwise (fun e e' => e.1 < e'.1) := by
  simp only [Config.wf, Bool.and_eq_true, decide_eq_true_eq, List.all_eq_true, beq_iff_eq, keysRise_iff_pairwise,
    membersRise_iff_pairwise, addressesRise_iff_pairwise, isMember_iff_mem, and_assoc]

/-! ### Only a legal configuration is loaded and run -/

theorem powerOn_legal (cfg : Config) (h : cfg.wf = true) : powerOn cfg = .next (State.resetWith cfg) := if_pos h

theorem powerOn_illegal (cfg : Config) (h : cfg.wf = false) : powerOn cfg = .refused .illFormedConfiguration :=
  if_neg (Bool.eq_false_iff.1 h)

theorem step_illegal (s : State) (h : s.config.wf = false) : step s = .refused .illFormedConfiguration :=
  if_neg (Bool.eq_false_iff.1 h)

/-! ### No step changes the configuration -/

/-- No completion of an instruction writes the configuration. -/
theorem exec_config (i : Instr) (s t : State) (h : exec i s = .next t) : t.config = s.config := by
  cases exec_completion i s t h <;> rfl

theorem engineStep_config (s t : State) (h : engineStep s = .next t) : t.config = s.config := by
  unfold engineStep at h
  split at h
  · cases h
  · exact exec_config _ s t h

theorem hostStep_config (s t : State) (h : hostStep s = .next t) : t.config = s.config := by
  unfold hostStep at h
  split at h
  · cases h; rfl
  · have kept := hostAct_config _ _ t h
    exact kept

/-- The configuration is frozen while the block runs (R27): on the engine's turn and on the host's. -/
theorem step_config (s t : State) (h : step s = .next t) : t.config = s.config := by
  unfold step at h
  split at h
  · split at h
    · exact engineStep_config s t h
    · exact hostStep_config s t h
  · cases h

/-- Settles O19: legality is `config_wf_iff`, loading and refusal are the two branches of `powerOn` and `step`, and every step keeps the
configuration by `step_config`. -/
theorem onlyALegalConfigurationIsLoaded : Obligations.OnlyALegalConfigurationIsLoaded :=
  ⟨powerOn_legal, powerOn_illegal, step_illegal, step_config, config_wf_iff⟩

end Sys2Proof.Machine
end

section
/-! PROOF. The invariant (R19, R21, R28, R150, R209): reset has it, and every step of the engine and of the host keeps it. -/

namespace Sys2Proof.Machine

/-! ### STATUS and the latched command -/

theorem succeed_statusWf (s : State) (r : Word) : statusWf (s.succeed r) = true := rfl

theorem fail_statusWf (s : State) (e : CommandError) : statusWf (s.fail e) = true := by
  simp [statusWf, legalError_of_error, eclass_ne_zero]

theorem accept_statusWf (s : State) (w : Word) : statusWf (s.accept w) = true := rfl

theorem drop_statusWf (s : State) : statusWf s.drop = statusWf s := rfl

/-- A command is latched while BUSY = 1 (R28). -/
theorem exists_latched_of_busy (s : State) (h : statusWf s = true) (hb : s.status.busy = true) : ∃ w, s.latched = some w := by
  simp only [statusWf, Bool.and_eq_true] at h
  obtain ⟨⟨-, hl⟩, -⟩ := h
  rw [hb, beq_iff_eq] at hl
  exact Option.isSome_iff_exists.1 hl.symm

/-- Every completion writes STATUS whole. -/
theorem exec_statusWf (i : Instr) (s t : State) (h : exec i s = .next t) : statusWf t = true := by
  cases exec_completion i s t h with
  | plain | clear | bytes | record => exact succeed_statusWf _ _
  | plainError | bytesError | recordError | constructError => exact fail_statusWf _ _

/-! ### PREC -/

theorem precWf_empty (cfg : Config) : precWf cfg Prec.empty = true := rfl

/-- A record that is not valid is well formed with every tag none (R26, R196). -/
theorem precWf_untagged (cfg : Config) (r : Record) :
    precWf cfg { record := some r, tags := List.replicate r.vals.length none, valid := false } = true := by
  simp [precWf]

/-- A valid record whose values conform is well formed with the tags of its layout (R24, R150). -/
theorem precWf_conforming (cfg : Config) (L : Layout) (r : Record) (hr : registered cfg r.type = some L)
    (hc : List.Forall₂ fieldConforms L.fields r.vals) :
    precWf cfg { record := some r, tags := recordTags cfg L r, valid := true } = true := by
  obtain ⟨hs, hf⟩ := (checks_none_iff 0 L.fields r.vals).2 hc
  simp [precWf, recordOk, tagsOk, hr, hs, hf, recordTags, hc.length_eq]

/-- What the decoder of a registered variant gives is a valid record of that variant (R124, R150). -/
theorem decodeLayout_precWf (cfg : Config) (t : Byte) (L : Layout) (fd : List Byte) (r : Record) (tags : List (Option Tag))
    (hc : cfg.wf = true) (hr : registered cfg t = some L) (h : decodeLayout cfg L fd = .ok (r, tags)) :
    precWf cfg { record := some r, tags := tags, valid := true } = true := by
  obtain ⟨hLt, hL⟩ := registered_wf cfg t L hc hr
  obtain ⟨-, hrt, -⟩ := decodeLayout_ok cfg L fd r tags h
  obtain ⟨hconf, rfl, -⟩ := decodeLayout_conforms cfg L fd r tags hL h
  exact precWf_conforming cfg L r (by rw [hrt, hLt, hr]) hconf

theorem dispatch_precWf (s : State) (t : Byte) (fd : List Byte) (hc : s.config.wf = true) : precWf s.config (s.dispatch t fd).prec = true := by
  rcases dispatch_cases s t fd with ⟨L, r, tags, hr, hd, h⟩ | ⟨e, h⟩ <;> rw [h]
  · exact decodeLayout_precWf s.config t L fd r tags hc hr hd
  · exact precWf_empty s.config

theorem execConstruct_precWf (s t : State) (h : execConstruct s = .next t) : precWf s.config t.prec = true := by
  unfold execConstruct at h
  split at h
  · rename_i hr
    cases h
    simp [State.failConstruct, hr, precWf]
  · rename_i r hr
    split at h <;> cases h
    · simpa [State.failConstruct, hr] using precWf_untagged s.config r
    · rename_i L tags hk
      obtain ⟨hreg, hconf, rfl, -⟩ := constructCheck_ok s.config r L tags hk
      exact precWf_conforming s.config L r hreg hconf

/-- An instruction that does not write PREC leaves it (R23). -/
theorem exec_prec_eq (i : Instr) (s t : State) (h : exec i s = .next t) (hw : writesPrec i = false) : t.prec = s.prec := by
  cases exec_completion i s t h with
  | record r tags w hp | recordError e hp => rw [hw] at hp; cases hp
  | constructError vals e hi => subst hi; cases hw
  | bytes | bytesError | plain | plainError | clear => rfl

/-- The commands among the instructions that write PREC; the others are frame data (R23, R66). -/
theorem decodeCommand_writesPrec (w : Word) (h : writesPrec (decodeCommand w) = true) :
    (∃ m, decodeCommand w = .build m) ∨ (∃ m v, decodeCommand w = .decodev m v) ∨ decodeCommand w = .construct := by
  unfold decodeCommand at h ⊢
  split at h <;> cases h
  · exact .inl ⟨_, rfl⟩
  · exact .inr (.inl ⟨_, _, rfl⟩)
  · exact .inr (.inr rfl)

/-- Every command keeps PREC well formed, in a legal configuration. -/
theorem exec_decodeCommand_precWf (w : Word) (s t : State) (h : exec (decodeCommand w) s = .next t) (hc : s.config.wf = true)
    (hp : precWf s.config s.prec = true) : precWf s.config t.prec = true := by
  cases hw : writesPrec (decodeCommand w) with
  | false => rwa [exec_prec_eq _ s t h hw]
  | true =>
    rcases decodeCommand_writesPrec w hw with ⟨m, hi⟩ | ⟨m, v, hi⟩ | hi <;> rw [hi] at h
    · simp only [exec, execBuild] at h
      split at h <;> cases h
      · exact precWf_empty s.config
      · exact dispatch_precWf s _ _ hc
    · simp only [exec, execDecodev] at h
      split at h <;> cases h
      · exact dispatch_precWf s _ _ hc
      · exact precWf_empty s.config
    · exact execConstruct_precWf s t h

/-- A host action keeps PREC well formed: a record write leaves it not valid (R26), a reset empties it (R206). -/
theorem hostAct_precWf (a : HostAction) (s t : State) (h : hostAct a s = .next t) (hp : precWf s.config s.prec = true) :
    precWf s.config t.prec = true := by
  cases hostAct_effect a s t h with
  | put r => exact precWf_untagged s.config r
  | reset => exact precWf_empty s.config
  | _ => exact hp

theorem hostAct_statusWf (a : HostAction) (s t : State) (h : hostAct a s = .next t) (hs : statusWf s = true) : statusWf t = true := by
  cases hostAct_effect a s t h with
  | accept w => exact accept_statusWf s w
  | drop => rwa [drop_statusWf]
  | reset => rfl
  | _ => exact hs

/-! ### Every step keeps the invariant -/

theorem resetWith_inv (cfg : Config) (hc : cfg.wf = true) : Inv (State.resetWith cfg) :=
  ⟨hc, resetWith_memory_wf cfg, rfl, precWf_empty cfg⟩

theorem exec_decodeCommand_inv (w : Word) (s t : State) (hi : Inv s) (h : exec (decodeCommand w) s = .next t) : Inv t := by
  obtain ⟨hc, hm, -, hp⟩ := hi
  have hcfg := exec_config _ s t h
  refine ⟨by rw [hcfg, hc], exec_memory_wf _ s t h hc hm, exec_statusWf _ s t h, ?_⟩
  rw [hcfg]
  exact exec_decodeCommand_precWf w s t h hc hp

theorem hostAct_inv (a : HostAction) (s t : State) (hi : Inv s) (h : hostAct a s = .next t) : Inv t := by
  obtain ⟨hc, hm, hs, hp⟩ := hi
  have hcfg := hostAct_config a s t h
  refine ⟨by rw [hcfg, hc], hostAct_memory_wf a s t h hm, hostAct_statusWf a s t h hs, ?_⟩
  rw [hcfg]
  exact hostAct_precWf a s t h hp

/-- What a step that answers has done: run the latched command, left the idle block alone, or taken the host's next action. -/
theorem step_next_cases (s t : State) (h : step s = .next t) :
    (∃ w, s.status.busy = true ∧ s.latched = some w ∧ exec (decodeCommand w) s = .next t)
      ∨ (s.pending = [] ∧ t = s)
      ∨ ∃ a rest, s.pending = a :: rest ∧ hostAct a { s with pending := rest, latencyLeft := s.latencyLeft - 1 } = .next t := by
  unfold step at h
  split at h
  · split at h
    · rename_i hb
      rw [Bool.and_eq_true] at hb
      cases hl : s.latched with
      | none => simp [engineStep, fetch, hl] at h
      | some w => exact .inl ⟨w, hb.1, rfl, by rw [← engineStep_latched s w hl, h]⟩
    · unfold hostStep at h
      split at h
      · rename_i hp; cases h; exact .inr (.inl ⟨hp, rfl⟩)
      · rename_i a rest hp; exact .inr (.inr ⟨a, rest, hp, h⟩)
  · cases h

/-- Settles O55: a step is a command of the engine or an action of the host (`step_next_cases`), and each keeps the invariant. -/
theorem everyStepKeepsTheInvariant : Obligations.EveryStepKeepsTheInvariant := by
  intro s t hi h
  rcases step_next_cases s t h with ⟨w, -, -, he⟩ | ⟨-, rfl⟩ | ⟨a, rest, -, ha⟩
  · exact exec_decodeCommand_inv w s t hi he
  · exact hi
  · exact hostAct_inv a { s with pending := rest, latencyLeft := s.latencyLeft - 1 } t hi ha

/-- Settles O56: the default configuration is legal, and reset has the invariant with any legal one. -/
theorem resetHasTheInvariant : Obligations.ResetHasTheInvariant := resetWith_inv defaultConfig (by decide)

end Sys2Proof.Machine
end

section
/-! PROOF. A command in flight completes (R28, R211): the engine's turn comes, and the engine's step answers an idle state. -/

namespace Sys2Proof.Machine

/-! ### The engine's step answers -/

/-- A valid PREC has frame data (R150, R160), so ENCODE does not fault. -/
theorem precFrameData_ne_none_of_valid (s : State) (hp : precWf s.config s.prec = true) (hv : s.prec.valid = true) : precFrameData s ≠ none := by
  cases hr : s.prec.record with
  | none => simp [precWf, hr, hv] at hp
  | some r =>
    simp only [precWf, hr, hv, Bool.not_true, Bool.false_or, Bool.and_eq_true, recordOk] at hp
    obtain ⟨-, hok, -⟩ := hp
    cases hL : registered s.config r.type with
    | none => simp [hL] at hok
    | some L =>
      simp only [hL, Bool.and_eq_true, Option.isNone_iff_eq_none] at hok
      obtain ⟨b, hb⟩ := encodeFields_isSome _ _ (conforms_kinds _ _ ((checks_none_iff 0 _ _).1 hok))
      simp [precFrameData, hr, hL, encodeLayout, hb]

theorem exec_next_of_inv (i : Instr) (s : State) (hi : Inv s) : ∃ t, exec i s = .next t := by
  obtain ⟨-, -, -, hp⟩ := hi
  rcases exec_stops_only_in_encode i s with h | ⟨m, -, -, hv, hn, -⟩
  · exact h
  · exact absurd hn (precFrameData_ne_none_of_valid s hp hv)

/-- Every instruction that answers leaves BUSY = 0 (R28, R196). -/
theorem exec_busy (i : Instr) (s t : State) (h : exec i s = .next t) : t.status.busy = false := by
  cases exec_completion i s t h <;> rfl

theorem step_engine_completes (s : State) (hi : Inv s) (hb : s.status.busy = true) (ht : engineTurn s = true) :
    ∃ t, step s = .next t ∧ t.status.busy = false := by
  have ⟨hc, _, hs, _⟩ := hi
  obtain ⟨w, hw⟩ := exists_latched_of_busy s hs hb
  obtain ⟨t, h⟩ := exec_next_of_inv (decodeCommand w) s hi
  exact ⟨t, by rw [step_engine s hc hb ht, engineStep_latched s w hw, h], exec_busy _ s t h⟩

/-! ### The host's steps before it -/

/-- It is not the engine's turn only while the latency has not passed and the host has an action that is no WAIT (log entry 1). -/
theorem engineTurn_false (s : State) (h : engineTurn s = false) :
    ∃ a rest, s.pending = a :: rest ∧ a ≠ .wait ∧ 0 < s.latencyLeft := by
  have hl : 0 < s.latencyLeft := Nat.pos_of_ne_zero fun h0 => by simp [engineTurn_of_latency s h0] at h
  unfold engineTurn at h
  split at h
  · cases h
  · cases h
  · rename_i hne hw
    obtain ⟨a, rest, hp⟩ := List.exists_cons_of_ne_nil hne
    exact ⟨a, rest, hp, fun ha => hw rest (by rw [hp, ha]), hl⟩

/-- A host step with a command in flight: the reset input abandons it, any other action uses up one step of its latency. -/
theorem step_busy_counts_down (s : State) (a : HostAction) (rest : List HostAction) (hc : s.config.wf = true) (hb : s.status.busy = true)
    (hp : s.pending = a :: rest) (ha : a ≠ .wait) (hl : 0 < s.latencyLeft) (hf : ∀ x ∈ s.pending, hostActionFits s.config x) :
    ∃ t, step s = .next t ∧ (t.status.busy = false
      ∨ (t.status.busy = true ∧ t.latencyLeft = s.latencyLeft - 1 ∧ ∀ x ∈ t.pending, hostActionFits t.config x)) := by
  rw [hp] at hf
  obtain ⟨t, h⟩ := hostAct_next a { s with pending := rest, latencyLeft := s.latencyLeft - 1 } (hf a List.mem_cons_self)
  refine ⟨t, by rw [step_busy s a rest hc hp ha hl, h], ?_⟩
  by_cases hr : a = .resetInput
  · subst hr; cases h; exact .inl rfl
  · obtain ⟨hbt, -, hlt, -⟩ := hostAct_busy a _ t hr (by exact hb) h
    refine .inr ⟨hbt, hlt, fun x hx => ?_⟩
    rw [hostAct_config a _ t h]
    rcases hostAct_pending a _ t h with hpt | ⟨n, -, -, hpt⟩ <;> rw [hpt] at hx
    · exact hf x (List.mem_cons_of_mem a hx)
    · exact hf x (List.mem_cons_of_mem a (List.mem_of_mem_drop hx))

theorem run_one (s t : State) (h : step s = .next t) : Sys2Proof.core.run 1 s = .next t := run_succ 0 s t h

/-- Settles O21, by induction on the host steps left: on the engine's turn the command completes, and every host step before it counts the
latency down or resets the block. -/
theorem acceptedCommandCompletes : Obligations.AcceptedCommandCompletes := by
  intro s
  induction hk : s.latencyLeft generalizing s with
  | zero =>
    intro hi hb _
    obtain ⟨t, h, ht⟩ := step_engine_completes s hi hb (engineTurn_of_latency s hk)
    exact ⟨1, t, Nat.le_refl 1, run_one s t h, ht⟩
  | succ k ih =>
    intro hi hb hf
    cases hturn : engineTurn s with
    | true =>
      obtain ⟨t, h, ht⟩ := step_engine_completes s hi hb hturn
      exact ⟨1, t, by omega, run_one s t h, ht⟩
    | false =>
      obtain ⟨a, rest, hp, ha, hl⟩ := engineTurn_false s hturn
      obtain ⟨u, h, hu | ⟨hbu, hlu, hfu⟩⟩ := step_busy_counts_down s a rest hi.1 hb hp ha hl hf
      · exact ⟨1, u, by omega, run_one s u h, hu⟩
      · obtain ⟨n, t, hn, hrun, ht⟩ := ih u (by omega) (everyStepKeepsTheInvariant s u hi h) hbu hfu
        exact ⟨n + 1, t, by omega, by rw [run_succ n s u h, hrun], ht⟩

end Sys2Proof.Machine
end

section
/-! PROOF. The outcome of an instruction depends on IBUF, PREC and the configuration only (R10, R29). -/

namespace Sys2Proof.Machine

/-- The same outcome of instruction `i`: RESULT, PREC, the error, and the output of an instruction that writes OBUF. -/
def SameOutcome (i : Instr) (t t' : State) : Prop :=
  t.result = t'.result ∧ t.prec = t'.prec
  ∧ t.status.err = t'.status.err ∧ t.status.eclass = t'.status.eclass
  ∧ t.status.edetail = t'.status.edetail ∧ t.status.earg = t'.status.earg
  ∧ (writesObuf i = true → t.obuf = t'.obuf ∧ t.olen = t'.olen)

/-! ### The completions of a command that writes no buffer -/

section
variable (i : Instr) (s s' : State)

theorem succeed_sameOutcome (r : Word) (hi : writesObuf i = false) (hp : s.prec = s'.prec) : SameOutcome i (s.succeed r) (s'.succeed r) :=
  ⟨rfl, hp, rfl, rfl, rfl, rfl, fun h => by rw [hi] at h; cases h⟩

theorem fail_sameOutcome (e : CommandError) (hi : writesObuf i = false) (hp : s.prec = s'.prec) : SameOutcome i (s.fail e) (s'.fail e) :=
  ⟨rfl, hp, rfl, rfl, rfl, rfl, fun h => by rw [hi] at h; cases h⟩

/-! ### The completions that write OBUF or PREC whole -/

theorem setObuf_succeed_sameOutcome (b : List Byte) (r : Word) (hp : s.prec = s'.prec) :
    SameOutcome i ((s.setObuf b).succeed r) ((s'.setObuf b).succeed r) := ⟨rfl, hp, rfl, rfl, rfl, rfl, fun _ => ⟨rfl, rfl⟩⟩

theorem setObuf_fail_sameOutcome (b : List Byte) (e : CommandError) (hp : s.prec = s'.prec) :
    SameOutcome i ((s.setObuf b).fail e) ((s'.setObuf b).fail e) := ⟨rfl, hp, rfl, rfl, rfl, rfl, fun _ => ⟨rfl, rfl⟩⟩

theorem finishBytes_sameOutcome (out : Except CommandError (List Byte)) (value : List Byte → Word) (hp : s.prec = s'.prec) :
    SameOutcome i (s.finishBytes out value) (s'.finishBytes out value) := by
  cases out with
  | ok b => exact setObuf_succeed_sameOutcome i s s' b _ hp
  | error e => exact setObuf_fail_sameOutcome i s s' [] e hp

theorem setPrec_succeed_sameOutcome (p : Prec) (r : Word) (hi : writesObuf i = false) :
    SameOutcome i ((s.setPrec p).succeed r) ((s'.setPrec p).succeed r) := succeed_sameOutcome i _ _ r hi rfl

theorem setPrec_fail_sameOutcome (p : Prec) (e : CommandError) (hi : writesObuf i = false) :
    SameOutcome i ((s.setPrec p).fail e) ((s'.setPrec p).fail e) := fail_sameOutcome i _ _ e hi rfl

theorem finishRecord_sameOutcome (L : Layout) (out : Except CommandError (Record × List (Option Tag))) (hi : writesObuf i = false) :
    SameOutcome i (s.finishRecord L out) (s'.finishRecord L out) := by
  cases out with
  | ok p => exact setPrec_succeed_sameOutcome i s s' _ _ hi
  | error e => exact setPrec_fail_sameOutcome i s s' _ e hi

theorem runDecoder_sameOutcome (L : Layout) (fd : List Byte) (hi : writesObuf i = false) (hc : s.config = s'.config) :
    SameOutcome i (s.runDecoder L fd) (s'.runDecoder L fd) := by
  unfold State.runDecoder
  rw [hc]
  exact finishRecord_sameOutcome i s s' L _ hi

theorem dispatch_sameOutcome (t : Byte) (fd : List Byte) (hi : writesObuf i = false) (hc : s.config = s'.config) :
    SameOutcome i (s.dispatch t fd) (s'.dispatch t fd) := by
  cases hr : registered s.config t with
  | none =>
    rw [dispatch_none s t fd hr, dispatch_none s' t fd (by rw [← hc, hr])]
    exact setPrec_fail_sameOutcome i s s' _ _ hi
  | some L =>
    rw [dispatch_some s t fd L hr, dispatch_some s' t fd L (by rw [← hc, hr])]
    exact runDecoder_sameOutcome i s s' L fd hi hc

end

/-! ### The commands with branches -/

section
variable (s s' t t' : State)

theorem execBuild_sameOutcome (m : Mode) (hb : s.ibuf = s'.ibuf) (hc : s.config = s'.config) (h : execBuild m s = .next t)
    (h' : execBuild m s' = .next t') : SameOutcome (.build m) t t' := by
  unfold execBuild at h h'
  rw [← hb] at h'
  cases hf : inboundFrameData m s.ibuf with
  | error e =>
    rw [hf] at h h'; cases h; cases h'
    exact setPrec_fail_sameOutcome _ s s' _ e rfl
  | ok fd =>
    rw [hf] at h h'; cases h; cases h'
    exact dispatch_sameOutcome _ s s' _ fd rfl hc

theorem execDecodev_sameOutcome (m : Mode) (v : Byte) (hb : s.ibuf = s'.ibuf) (hc : s.config = s'.config) (h : execDecodev m v s = .next t)
    (h' : execDecodev m v s' = .next t') : SameOutcome (.decodev m v) t t' := by
  unfold execDecodev at h h'
  rw [← hb] at h'
  cases hm : modeAccepted m with
  | true =>
    rw [if_pos hm] at h h'; cases h; cases h'
    exact dispatch_sameOutcome _ s s' v _ rfl hc
  | false =>
    rw [hm] at h h'; cases h; cases h'
    exact setPrec_fail_sameOutcome _ s s' _ _ rfl

theorem execConstruct_sameOutcome (hp : s.prec = s'.prec) (hc : s.config = s'.config) (h : execConstruct s = .next t)
    (h' : execConstruct s' = .next t') : SameOutcome .construct t t' := by
  have failed : ∀ vals e, SameOutcome .construct (s.failConstruct vals e) (s'.failConstruct vals e) := by
    intro vals e
    unfold State.failConstruct
    rw [hp]
    exact setPrec_fail_sameOutcome _ s s' _ e rfl
  unfold execConstruct at h h'
  rw [← hp, ← hc] at h'
  cases hr : s.prec.record with
  | none => rw [hr] at h h'; cases h; cases h'; exact failed _ _
  | some r =>
    rw [hr] at h h'
    cases hk : constructCheck s.config r with
    | error e => simp only [hk] at h h'; cases h; cases h'; exact failed _ _
    | ok p => simp only [hk] at h h'; cases h; cases h'; exact setPrec_succeed_sameOutcome _ s s' _ _ rfl

theorem execEncode_sameOutcome (m : Mode) (hp : s.prec = s'.prec) (hc : s.config = s'.config) (h : execEncode m s = .next t)
    (h' : execEncode m s' = .next t') : SameOutcome (.encode m) t t' := by
  have hfd : precFrameData s' = precFrameData s := by simp only [precFrameData, hp, hc]
  unfold execEncode at h h'
  rw [hfd, ← hp, ← hc] at h'
  cases hm : modeAccepted m with
  | false => rw [hm] at h h'; cases h; cases h'; exact setObuf_fail_sameOutcome _ s s' _ _ hp
  | true =>
    rw [if_pos hm] at h h'
    cases hv : s.prec.valid with
    | false => rw [hv] at h h'; cases h; cases h'; exact setObuf_fail_sameOutcome _ s s' _ _ hp
    | true =>
      rw [if_pos hv] at h h'
      cases hf : precFrameData s with
      | none => rw [hf] at h; cases h
      | some fd => rw [hf] at h h'; cases h; cases h'; exact setObuf_succeed_sameOutcome _ s s' _ _ hp

theorem execLookup_sameOutcome (table code : Byte) (hp : s.prec = s'.prec) (hc : s.config = s'.config)
    (h : execLookup table code s = .next t) (h' : execLookup table code s' = .next t') : SameOutcome (.lookup table code) t t' := by
  unfold execLookup at h h'
  rw [← hc] at h'
  split at h <;> rename_i ht <;> cases h
  · rw [if_pos ht] at h'; cases h'; exact succeed_sameOutcome _ s s' _ rfl hp
  · rw [if_neg ht] at h'; cases h'; exact fail_sameOutcome _ s s' _ rfl hp

end

/-- Settles O60, instruction by instruction: each reads IBUF, PREC and the configuration alone, and completes in the same way. -/
theorem outcomeDependsOnOperandsOnly : Obligations.OutcomeDependsOnOperandsOnly := by
  intro s s' t t' i hb hp hc h h'
  change SameOutcome i t t'
  cases i with
  | chksum => cases h; cases h'; rw [hb]; exact succeed_sameOutcome _ s s' _ rfl hp
  | escape => cases h; cases h'; rw [hb]; exact setObuf_succeed_sameOutcome _ s s' _ _ hp
  | unescape | validate _ | wrap _ => cases h; cases h'; rw [hb]; exact finishBytes_sameOutcome _ s s' _ _ hp
  | build m => exact execBuild_sameOutcome s s' t t' m hb hc h h'
  | decodev m v => exact execDecodev_sameOutcome s s' t t' m v hb hc h h'
  | construct => exact execConstruct_sameOutcome s s' t t' hp hc h h'
  | encode m => exact execEncode_sameOutcome s s' t t' m hp hc h h'
  | lookup table code => exact execLookup_sameOutcome s s' t t' table code hp hc h h'
  | clear => cases h; cases h'; exact succeed_sameOutcome _ _ _ _ rfl hp
  | frameAtCommand _ | frameTransmitRequest _ | frameRemoteAtCommandRequest _ | frameTxSms _ | frameAtCommandResponse _
  | frameModemStatus _ | frameReceivePacket _ | frameDeviceRequest _ | frameFrameError _ | frameGeneric _ =>
    cases h; cases h'; exact runDecoder_sameOutcome _ s s' _ _ rfl hc
  | reservedOp0 | reservedOpC | reservedOpD | reservedOpE | reservedOpF => cases h; cases h'; exact fail_sameOutcome _ s s' _ rfl hp

end Sys2Proof.Machine
end

section
/-! PROOF. The registers and the host's ports (R14, R16 to R18, R26, R51), the engine's turn (R28), and the reset values (R30). -/

namespace Sys2Proof.Machine

/-! ### STATUS -/

/-- Settles O12: the concatenation read as a number, field by field. -/
theorem statusWordHoldsEachFieldAtItsBits : Obligations.StatusWordHoldsEachFieldAtItsBits := by
  intro st valid
  simp only [statusWord, toNat_append_digits, BitVec.toNat_ofBool, BitVec.toNat_ofNat]
  omega

/-! ### The engine's turn -/

/-- Settles O6: decoding a CMD word never fails, and routing keeps the command's effect (`engineStep_latched`). -/
theorem engineStepRunsTheLatchedCommand : Obligations.EngineStepRunsTheLatchedCommand := by
  intro s w i hc hb hl ht hd
  cases hd
  rw [step_engine s hc hb ht, engineStep_latched s w hl]

/-! ### The host's writes -/

theorem hostPut_idle (r : Record) (s : State) (h : s.status.busy = false) : hostPut r s = s.putRecord r := by simp [hostPut, h]

theorem hostPut_busy (r : Record) (s : State) (h : s.status.busy = true) : hostPut r s = s.drop := if_pos h

theorem hostWriteReg_cmd_idle (w : Word) (s : State) (h : s.status.busy = false) : hostWriteReg 0 w s = s.accept w := by
  simp [hostWriteReg, hostWriteCmd, h]

theorem hostWriteReg_cmd_busy (w : Word) (s : State) (h : s.status.busy = true) : hostWriteReg 0 w s = s.drop := by
  simp [hostWriteReg, hostWriteCmd, h]

/-- Every register but CMD ignores a write (R14, R51). -/
theorem hostWriteReg_ignored (idx : Fin 16) (w : Word) (s : State) (h : 0 < idx.val) : hostWriteReg idx w s = s := if_neg (by omega)

/-- Settles O8: the idle block accepts the word, the busy one drops it. -/
theorem commandWriteIsAcceptedOrDropped : Obligations.CommandWriteIsAcceptedOrDropped := by
  intro s w rest hc hp
  constructor
  · intro hb
    rw [step_idle s _ rest hc hp hb, hostAct, hostWriteReg_cmd_idle w _ (by exact hb)]
    rfl
  · intro hb hl
    rw [step_busy s _ rest hc hp (by simp) hl, hostAct, hostWriteReg_cmd_busy w _ (by exact hb)]
    rfl

/-- Settles O10: the idle block stores the record with no tags, the busy one drops it. -/
theorem recordWriteClearsValidOrIsDropped : Obligations.RecordWriteClearsValidOrIsDropped := by
  intro s r rest hc hp
  constructor
  · intro hb
    rw [step_idle s _ rest hc hp hb, hostAct, hostPut_idle r _ (by exact hb), List.map_const']
    rfl
  · intro hb hl
    rw [step_busy s _ rest hc hp (by simp) hl, hostAct, hostPut_busy r _ (by exact hb)]
    rfl

/-! ### Register reads -/

/-- A host action other than a WAIT goes first while the block is idle or the latency has not passed. -/
theorem step_hostAct (s : State) (a : HostAction) (rest : List HostAction) (hc : s.config.wf = true) (hp : s.pending = a :: rest)
    (ha : a ≠ .wait) (h : s.status.busy = false ∨ 0 < s.latencyLeft) :
    step s = hostAct a { s with pending := rest, latencyLeft := s.latencyLeft - 1 } := by
  rcases h with hb | hl
  · exact step_idle s a rest hc hp hb
  · exact step_busy s a rest hc hp ha hl

/-- A register read is exact while BUSY = 0, and of every register but RESULT and OLEN while BUSY = 1 (R14, R18). -/
theorem hostReadReg_exact (idx : Fin 16) (s : State) (h : s.status.busy = false ∨ (idx.val ≠ 2 ∧ idx.val ≠ 3)) :
    hostReadReg idx s = s.receive (.word (readRegister s idx)) := by
  unfold hostReadReg
  rw [if_neg]
  rcases h with hb | ⟨h2, h3⟩
  · simp [hb]
  · simp [unspecifiedWhileBusy, h2, h3]

/-- The values of the registers by index (R14); CMD and the reserved indices read 0. -/
theorem readRegister_values (s : State) (idx : Fin 16) :
    (idx.val = 0 → readRegister s idx = 0#32) ∧ (idx.val = 1 → readRegister s idx = statusWord s.status s.prec.valid)
      ∧ (idx.val = 2 → readRegister s idx = s.result) ∧ (idx.val = 3 → readRegister s idx = s.olen)
      ∧ (idx.val = 4 → readRegister s idx = s.ilen) ∧ (5 ≤ idx.val → readRegister s idx = 0#32) := by
  unfold readRegister
  split
  case h_5 h1 h2 h3 h4 => exact ⟨fun _ => rfl, (absurd · h1), (absurd · h2), (absurd · h3), (absurd · h4), fun _ => rfl⟩
  all_goals rename_i h; simp [h]

/-- Settles O11: an exact read gives the register's value (`readRegister_values`), and a write elsewhere than CMD is ignored. -/
theorem registerReadsAndIgnoredWrites : Obligations.RegisterReadsAndIgnoredWrites := by
  intro s idx w rest hc
  constructor
  · intro hp h
    have hturn : s.status.busy = false ∨ 0 < s.latencyLeft := h.imp_right And.left
    refine ⟨readRegister s idx, ?_, readRegister_values s idx⟩
    rw [step_hostAct s _ rest hc hp (by simp) hturn, hostAct, hostReadReg_exact idx _ (by exact h.imp_right And.right)]
    rfl
  · intro hp hidx h
    rw [step_hostAct s _ rest hc hp (by simp) h, hostAct, hostWriteReg_ignored idx w _ hidx]

/-! ### Reset -/

/-- Settles O17: STATUS is the zero word, and every other piece is its reset value by definition. -/
theorem resetLeavesTheResetValues : Obligations.ResetLeavesTheResetValues :=
  ⟨by decide, rfl, rfl, rfl, rfl, rfl, rfl, rfl, rfl⟩

end Sys2Proof.Machine
end

section
/-! PROOF. The buffers' host ports (R18, R42 to R45) and the accesses at bus addresses (R52). -/

namespace Sys2Proof.Machine

/-! ### Bus accesses -/

/-- On the host's turn, a bus access steps as the action that its place makes of it. -/
theorem step_bus_of_mem (s : State) (addr : Nat) (access : BusAccess) (place : BusPlace) (a : HostAction) (rest : List HostAction)
    (hc : s.config.wf = true) (ht : s.status.busy = false ∨ 0 < s.latencyLeft) (hm : (addr, place) ∈ s.config.busMap) (ha : a ≠ .wait)
    (hplace : ∀ u, hostPlace place access u = hostAct a u) (hp : s.pending = .bus addr access :: rest) :
    step s = step { s with pending := a :: rest } := by
  have hbus : busPlace s.config addr = some place := (busPlace_iff_mem s.config addr place hc).2 hm
  rw [step_hostAct s _ rest hc hp (by simp) ht, hostAct_bus addr access _ place (by exact hbus), hplace]
  exact (step_hostAct { s with pending := a :: rest } a rest hc rfl ha ht).symm

/-- An address that BUS_MAP does not list has no place. -/
theorem busPlace_eq_none (cfg : Config) (addr : Nat) (hc : cfg.wf = true) (h : ∀ p, (addr, p) ∉ cfg.busMap) : busPlace cfg addr = none :=
  Option.eq_none_iff_forall_ne_some.2 fun p hp => h p ((busPlace_iff_mem cfg addr p hc).1 hp)

theorem hostAct_bus_none (addr : Nat) (access : BusAccess) (s : State) (h : busPlace s.config addr = none) :
    hostAct (.bus addr access) s = .refused .noBusPlace := by simp only [hostAct, hostBus, h]

/-- Settles O16: each access of each place is the action of the same effect (`step_bus_of_mem`), and an unlisted address has no place. -/
theorem busAccessIsTheAccessOfItsPlace : Obligations.BusAccessIsTheAccessOfItsPlace := by
  intro s addr rest hc ht
  have served {access place} (a : HostAction) (ha : a ≠ .wait) (hplace : ∀ u, hostPlace place access u = hostAct a u)
      (hm : (addr, place) ∈ s.config.busMap) := step_bus_of_mem s addr access place a rest hc ht hm ha hplace
  refine ⟨fun idx hm => ⟨fun w => ?writeWord, ?readWord⟩, fun b hm => ?writeBytes, fun hm => ⟨?readBytes, fun i => ?readByte⟩,
    fun hm => ⟨fun r => ?writeRecord, ?readRecord⟩, fun access hm hp => ?unplaced⟩
  case writeWord => exact served (.writeReg idx w) (by simp) (fun _ => rfl) hm
  case readWord => exact served (.readReg idx) (by simp) (fun _ => rfl) hm
  case writeBytes => exact served (.load b) (by simp) (fun _ => rfl) hm
  case readBytes => exact served .readObuf (by simp) (fun _ => rfl) hm
  case readByte => exact served (.readObufByte i) (by simp) (fun _ => rfl) hm
  case writeRecord => exact served (.put r) (by simp) (fun _ => rfl) hm
  case readRecord => exact served .readPrec (by simp) (fun _ => rfl) hm
  case unplaced =>
    rw [step_hostAct s _ rest hc hp (by simp) ht]
    exact hostAct_bus_none addr access _ (busPlace_eq_none s.config addr hc hm)

/-! ### IBUF loads -/

theorem hostLoad_tooLong (b : List Byte) (s : State) (h : s.config.ibufCap < b.length) : hostLoad b s = .refused .loadTooLong := if_pos h

theorem hostLoad_idle (b : List Byte) (s : State) (hb : s.status.busy = false) (hl : b.length ≤ s.config.ibufCap) :
    hostLoad b s = .next (s.setIbuf b) := by simp [hostLoad, hb, Nat.not_lt.2 hl]

theorem hostLoad_busy (b : List Byte) (s : State) (hb : s.status.busy = true) (hl : b.length ≤ s.config.ibufCap) :
    hostLoad b s = .next s.drop := by simp [hostLoad, hb, Nat.not_lt.2 hl]

/-- Settles O9: a load that fits goes by BUSY, a longer one is refused in either case. -/
theorem loadReplacesIbufOrIsDroppedOrRefused : Obligations.LoadReplacesIbufOrIsDroppedOrRefused := by
  intro s b rest hc hp
  refine ⟨fun hb hl => ?idle, fun hb ht hl => ?busy, fun ht hl => ?tooLong⟩
  case idle =>
    rw [step_idle s _ rest hc hp hb]
    exact hostLoad_idle b _ hb hl
  case busy =>
    rw [step_busy s _ rest hc hp (by simp) ht]
    exact hostLoad_busy b _ hb hl
  case tooLong =>
    rw [step_hostAct s _ rest hc hp (by simp) ht]
    exact hostLoad_tooLong b _ hl

/-! ### OBUF and PREC reads -/

section
variable (s : State)

theorem obufByte_of_getElem? (i : Nat) (x : Byte) (h : s.obuf[i]? = some x) : obufByte s i = x := by simp [obufByte, h]

theorem obufByte_of_length_le (i : Nat) (h : s.obuf.length ≤ i) : obufByte s i = 0x00#8 := by simp [obufByte, h]

theorem hostReadObuf_idle (h : s.status.busy = false) : hostReadObuf s = s.receive (.bytes s.obuf) := by simp [hostReadObuf, h]

theorem hostReadObufByte_idle (i : Nat) (h : s.status.busy = false) : hostReadObufByte i s = s.receive (.byte (obufByte s i)) := by
  simp [hostReadObufByte, h]

theorem hostReadPrec_idle (h : s.status.busy = false) : hostReadPrec s = s.receive (.prec s.prec) := by simp [hostReadPrec, h]

/-- While BUSY = 1 a read of RESULT or OLEN returns a free draw (R18). -/
theorem hostReadReg_free (idx : Fin 16) (h : s.status.busy = true) (hidx : unspecifiedWhileBusy idx = true) :
    hostReadReg idx s = s.receiveFree (fun n => .word (Config.freeWord n)) := by simp [hostReadReg, h, hidx]

theorem hostReadObuf_busy (h : s.status.busy = true) : hostReadObuf s = s.receiveFree (fun n => .bytes (Config.freeBytes n)) := if_pos h

theorem hostReadObufByte_busy (i : Nat) (h : s.status.busy = true) :
    hostReadObufByte i s = s.receiveFree (fun n => .byte (Config.freeByte n)) := if_pos h

theorem hostReadPrec_busy (h : s.status.busy = true) : hostReadPrec s = s.receiveFree (fun n => .prec (Config.freePrec n)) := if_pos h

end

/-- Settles O13, read by read: on the host's turn the step is the port's read, exact when idle and a free draw when busy. -/
theorem bufferReadsIdleAndBusy : Obligations.BufferReadsIdleAndBusy := by
  intro s a rest v hc hp
  constructor
  · intro hb hread
    rw [step_idle s a rest hc hp hb]
    rcases hread with ⟨rfl, rfl⟩ | ⟨i, x, rfl, hx, rfl⟩ | ⟨i, rfl, hi, rfl⟩ | ⟨rfl, rfl⟩
    · exact congrArg Host.Outcome.next (hostReadObuf_idle _ hb)
    · rw [← obufByte_of_getElem? s i x hx]
      exact congrArg Host.Outcome.next (hostReadObufByte_idle _ i hb)
    · rw [← obufByte_of_length_le s i hi]
      exact congrArg Host.Outcome.next (hostReadObufByte_idle _ i hb)
    · exact congrArg Host.Outcome.next (hostReadPrec_idle _ hb)
  · intro hb hl hread
    have ha : a ≠ .wait := by
      rintro rfl
      simp at hread
    rw [step_busy s a rest hc hp ha hl]
    rcases hread with ⟨rfl, rfl⟩ | ⟨rfl, rfl⟩ | ⟨rfl, rfl⟩ | ⟨⟨i, rfl⟩, rfl⟩ | ⟨rfl, rfl⟩
    · exact congrArg Host.Outcome.next (hostReadReg_free _ 2 hb rfl)
    · exact congrArg Host.Outcome.next (hostReadReg_free _ 3 hb rfl)
    · exact congrArg Host.Outcome.next (hostReadObuf_busy _ hb)
    · exact congrArg Host.Outcome.next (hostReadObufByte_busy _ i hb)
    · exact congrArg Host.Outcome.next (hostReadPrec_busy _ hb)

end Sys2Proof.Machine
end

section
/-! PROOF. The two encoding layers (R62, R64 to R68): decoding inverts encoding, a CMD word's fields are its digits, the bits a format does
not read select nothing. -/

namespace Sys2Proof.Machine

/-! ### Decoding what the encoder writes -/

/-- A command is written in a word that selects it: its opcode picks the arm, and every operand is read back from its field. -/
theorem decodeCommand_of_encode (i : Instr) (w : Word) (h : encode i = .command w) : decodeCommand w = i := by
  cases i with
  | chksum | escape | unescape | construct | clear | reservedOp0 | reservedOpC | reservedOpD | reservedOpE | reservedOpF =>
    cases h
    simp [decodeCommand, opField_commandWord]
  | wrap m | build m | encode m =>
    cases h
    simp [decodeCommand, opField_commandWord, modeField_commandWord, modeOfBits_bits]
  | decodev m v =>
    cases h
    simp [decodeCommand, opField_commandWord, modeField_commandWord, modeOfBits_bits, selField_commandWord]
  | lookup t c =>
    cases h
    simp [decodeCommand, opField_commandWord, selField_commandWord, codeField_commandWord]
  | validate m =>
    cases h
    simp [decodeCommand, opField_minlenWord, minlenField_minlenWord]
  | _ => cases h

/-- Every other instruction is written as frame data, under the discriminator that selects it. -/
theorem frameOf_of_encode (i : Instr) (fd : List Byte) (h : encode i = .frameData fd) : ∃ t body, fd = t :: body ∧ frameOf t body = some i := by
  cases i <;> cases h <;> exact ⟨_, _, rfl, rfl⟩

theorem decodeFrameData_frameOf (t : Byte) (body : List Byte) (i : Instr) (hf : frameOf t body = some i) (hw : i.wf = true) :
    decodeFrameData (t :: body) = .ok i := by
  rw [wf_frameOf t body i hf] at hw
  simp [decodeFrameData, hw, hf]

/-- Settles O1, by the layer the instruction is written in. -/
theorem decodeOfEncodeIsTheInstruction : Obligations.DecodeOfEncodeIsTheInstruction := by
  intro i hw
  cases he : encode i with
  | command w => exact congrArg Except.ok (decodeCommand_of_encode i w he)
  | frameData fd =>
    obtain ⟨t, body, rfl, hf⟩ := frameOf_of_encode i fd he
    exact decodeFrameData_frameOf t body i hf hw

/-- Settles O2: what decodes is a discriminator's instruction with a body that fits (`decodeFrameData_ok`). -/
theorem encodeOfDecodedFrameDataIsTheFrameData : Obligations.EncodeOfDecodedFrameDataIsTheFrameData := by
  intro fd i h
  obtain ⟨t, body, rfl, hb, hf⟩ := decodeFrameData_ok fd i h
  exact ⟨encode_frameOf t body i hf, (wf_frameOf t body i hf).trans hb⟩

/-! ### The fields as digits -/

theorem selField_eq_ofNat (w : Word) : selField w = BitVec.ofNat 8 (w.toNat / 256) :=
  BitVec.eq_of_toNat_eq (selField_toNat w)

theorem codeField_eq_ofNat (w : Word) : codeField w = BitVec.ofNat 8 (w.toNat / 65536) :=
  BitVec.eq_of_toNat_eq (codeField_toNat w)

theorem minlenField_eq_ofNat (w : Word) : minlenField w = BitVec.ofNat 16 (w.toNat / 65536) :=
  BitVec.eq_of_toNat_eq (minlenField_toNat w)

/-- Settles O3: the opcode digit picks the decoder's arm, and each field is its digit. -/
theorem commandWordFieldsByOpcode : Obligations.CommandWordFieldsByOpcode := by
  intro w
  have arm {k : Nat} (h : w.toNat % 16 = k) : (opField w).toNat = k := (opField_toNat w).trans h
  refine ⟨fun h => ?_, fun h => ?_, fun h => ?_, fun h => ?_, fun h => ?validate, fun m hm => ?mode, fun h => ?_, fun h => ?lookup,
    fun h => ?_, fun h => ?_, fun h => ?_, fun h => ?_, fun h => ?_⟩
  case validate => simp only [decode, decodeCommand, arm h, minlenField_eq_ofNat]
  case lookup => simp only [decode, decodeCommand, arm h, selField_eq_ofNat, codeField_eq_ofNat]
  case mode =>
    have hmode : Mode.ofBits (modeField w) = m := by
      rw [modeOfBits_toNat, modeField_toNat, hm]
      cases m <;> rfl
    refine ⟨fun h => ?_, fun h => ?_, fun h => ?_, fun h => ?_⟩ <;>
      simp only [decode, decodeCommand, arm h, hmode, selField_eq_ofNat]
  all_goals simp only [decode, decodeCommand, arm h]

/-! ### The bits a format ignores -/

/-- Two words that agree under a mask agree in every field the mask covers. -/
theorem extractLsb'_eq_of_masked {v w m : Word} (start len : Nat) (h : v &&& m = w &&& m)
    (hm : m.extractLsb' start len = BitVec.allOnes len) : v.extractLsb' start len = w.extractLsb' start len := by
  have hf := congrArg (BitVec.extractLsb' start len) h
  rwa [BitVec.extractLsb'_and, BitVec.extractLsb'_and, hm, BitVec.and_allOnes, BitVec.and_allOnes] at hf

/-- Every format reads the opcode. -/
theorem readMask_op (w : Word) : opField (readMask w) = BitVec.allOnes 4 := by
  unfold readMask
  split <;> rfl

theorem readMask_mode (w : Word) (h : w.toNat % 16 ∈ [5, 6, 7, 9]) : modeField (readMask w) = BitVec.allOnes 2 := by
  simp only [List.mem_cons, List.not_mem_nil, or_false] at h
  rcases h with h | h | h | h <;> simp only [readMask, h] <;> rfl

theorem readMask_sel (w : Word) (h : w.toNat % 16 ∈ [7, 10]) : selField (readMask w) = BitVec.allOnes 8 := by
  simp only [List.mem_cons, List.not_mem_nil, or_false] at h
  rcases h with h | h <;> simp only [readMask, h] <;> rfl

theorem readMask_code (w : Word) (h : w.toNat % 16 = 10) : codeField (readMask w) = BitVec.allOnes 8 := by
  simp only [readMask, h]
  rfl

theorem readMask_minlen (w : Word) (h : w.toNat % 16 = 4) : minlenField (readMask w) = BitVec.allOnes 16 := by
  simp only [readMask, h]
  rfl

/-- Settles O4: the words have one opcode, and each arm reads only fields that the opcode's mask covers. -/
theorem ignoredCommandBitsSelectTheSameCommand : Obligations.IgnoredCommandBitsSelectTheSameCommand := by
  intro v w h
  have hop : opField v = opField w := extractLsb'_eq_of_masked 0 4 h (readMask_op w)
  have digit {k : Nat} (hk : (opField w).toNat = k) : w.toNat % 16 = k := (opField_toNat w).symm.trans hk
  have hmode (hk : w.toNat % 16 ∈ [5, 6, 7, 9]) : modeField v = modeField w := extractLsb'_eq_of_masked 4 2 h (readMask_mode w hk)
  have hsel (hk : w.toNat % 16 ∈ [7, 10]) : selField v = selField w := extractLsb'_eq_of_masked 8 8 h (readMask_sel w hk)
  refine congrArg Except.ok ?_
  unfold decodeCommand
  rw [hop]
  split
  case h_5 hk => rw [show minlenField v = minlenField w from extractLsb'_eq_of_masked 16 16 h (readMask_minlen w (digit hk))]
  case h_6 hk | h_7 hk | h_10 hk => rw [hmode (by simp [digit hk])]
  case h_8 hk => rw [hmode (by simp [digit hk]), hsel (by simp [digit hk])]
  case h_11 hk =>
    rw [hsel (by simp [digit hk]), show codeField v = codeField w from extractLsb'_eq_of_masked 16 8 h (readMask_code w (digit hk))]
  all_goals rfl

/-! ### The spec's example words -/

/-- Settles O5, word by word: the decoder computes. -/
theorem specExampleWordsDecode : Obligations.SpecExampleWordsDecode := by
  unfold Obligations.SpecExampleWordsDecode
  decide

end Sys2Proof.Machine
end

section
/-! PROOF. The pseudo-instructions (R77, R78): each is the commands it stands for, run from an idle block. -/

namespace Sys2Proof.Machine

/-! ### The steps around a command -/

theorem exec_latencyLeft (i : Instr) (s t : State) (h : exec i s = .next t) : t.latencyLeft = 0 := by
  cases exec_completion i s t h <;> rfl

theorem exec_config_wf (i : Instr) (s t : State) (hc : s.config.wf = true) (h : exec i s = .next t) : t.config.wf = true := by
  rw [exec_config i s t h, hc]

/-- A host action of an idle block that has no latency left to count down, as a completed command leaves it. -/
theorem step_completed (s : State) (a : HostAction) (rest : List HostAction) (hc : s.config.wf = true) (hb : s.status.busy = false)
    (hl : s.latencyLeft = 0) (hp : s.pending = a :: rest) : step s = hostAct a { s with pending := rest } := by
  rw [step_idle s a rest hc hp hb]
  simp only [hl, Nat.zero_sub]

/-- A WAIT gives the command in flight its turn at once (log entry 1), and the command does what it does in `s`: neither what is in flight nor
the host's program is read by it (`exec_in_flight`). -/
theorem step_wait_busy (s u : State) (w : Word) (ll dr : Nat) (rest : List HostAction) (hc : s.config.wf = true)
    (h : exec (decodeCommand w) s = .next u) :
    step { s with status := s.status.accepted, latched := some w, latencyLeft := ll, draws := dr, pending := .wait :: rest } =
      .next { u with draws := dr, pending := .wait :: rest } := by
  rw [step_engine _ (by exact hc) rfl rfl, engineStep_latched _ w rfl]
  exact exec_in_flight _ s u s.status.accepted (some w) ll dr (.wait :: rest) rfl h

/-- RUN on an idle block, whatever the model's own fields hold: the CMD write draws a latency, the command runs, the WAIT is over. -/
theorem run_runActions (i : Instr) (w : Word) (s u : State) (ll dr n : Nat) (rest : List HostAction) (hc : s.config.wf = true)
    (hb : s.status.busy = false) (he : encode i = .command w) (h : exec i s = .next u) :
    core.run (n + 3) { s with latencyLeft := ll, draws := dr, pending := runActions i ++ rest } =
      core.run n { u with draws := dr + 1, pending := rest } := by
  have hp : runActions i ++ rest = .writeReg 0 w :: .wait :: rest := by simp [runActions, cmdAction, he]
  have hd : exec (decodeCommand w) s = .next u := by rw [decodeCommand_of_encode i w he, h]
  have huc : u.config.wf = true := exec_config_wf i s u hc h
  have accepted := (commandWriteIsAcceptedOrDropped { s with latencyLeft := ll, draws := dr, pending := runActions i ++ rest } w _ hc hp).1 hb
  have completed := step_wait_busy s u w (Config.latency dr) (dr + 1) rest hc hd
  have waited := step_completed { u with draws := dr + 1, pending := .wait :: rest } .wait rest huc (exec_busy i s u h)
    (exec_latencyLeft i s u h) rfl
  calc
    core.run (n + 3) _ = core.run (n + 2) _ := run_succ _ _ _ accepted
    _ = core.run (n + 1) _ := run_succ _ _ _ completed
    _ = core.run n _ := run_succ _ _ _ waited

/-- A pseudo-instruction that loads IBUF first (DECODE_FRAME, FRAME): the load, then RUN. -/
theorem run_load_runActions (i : Instr) (w : Word) (s u : State) (b : List Byte) (rest : List HostAction) (hc : s.config.wf = true)
    (hb : s.status.busy = false) (hl : b.length ≤ s.config.ibufCap) (hp : s.pending = .load b :: runActions i ++ rest)
    (he : encode i = .command w) (h : exec i { s with ibuf := b, ilen := BitVec.ofNat 32 b.length } = .next u) :
    core.run 4 s = .next { u with draws := s.draws + 1, pending := rest } :=
  (run_succ 3 _ _ ((loadReplacesIbufOrIsDroppedOrRefused s b _ hc hp).1 hb hl)).trans
    (run_runActions i w (s.setIbuf b) u (s.latencyLeft - 1) s.draws 0 rest hc hb he h)

/-- SEND up to its condition: the record write, CONSTRUCT, and the condition on the ERR that CONSTRUCT leaves. -/
theorem run_sendActions_construct (s u : State) (r : Record) (m : Mode) (n : Nat) (rest : List HostAction) (hc : s.config.wf = true)
    (hb : s.status.busy = false) (hp : s.pending = sendActions r m ++ rest)
    (h : exec .construct { s with prec := { record := some r, tags := r.vals.map (fun _ => none), valid := false } } = .next u) :
    core.run (n + 5) s =
      core.run n { u with
        draws := s.draws + 1
        pending := if u.status.err then rest else runActions (.encode m) ++ rest } := by
  have huc : u.config.wf = true := exec_config_wf _ _ u (by exact hc) h
  have put := (recordWriteClearsValidOrIsDropped s r _ hc hp).1 hb
  have construct := run_runActions .construct _ { s with prec := { record := some r, tags := r.vals.map (fun _ => none), valid := false } } u
    (s.latencyLeft - 1) s.draws (n + 1) (.skipOnError 2 :: runActions (.encode m) ++ rest) hc hb rfl h
  have condition := step_completed { u with draws := s.draws + 1, pending := .skipOnError 2 :: runActions (.encode m) ++ rest }
    (.skipOnError 2) (runActions (.encode m) ++ rest) huc (exec_busy _ _ u h) (exec_latencyLeft _ _ u h) rfl
  refine (run_succ _ _ _ put).trans (construct.trans ?_)
  cases herr : u.status.err with
  | true | false =>
    simp only [hostAct, herr] at condition
    exact run_succ n _ _ condition

/-- Settles O15: RUN after the load, after the record write, and again after SEND's condition when CONSTRUCT leaves ERR = 0. -/
theorem pseudoInstructionsRunTheirCommands : Obligations.PseudoInstructionsRunTheirCommands := by
  intro s u rest hc hb
  refine ⟨fun i w he hp h => ?run, fun raw m hl hp h => ?decodeFrame, fun fd m hl hp h => ?frame,
    fun r m hp h => ⟨fun herr => ?refused, fun herr v hv => ?sent⟩⟩
  case run =>
    have hrun := run_runActions i w s u s.latencyLeft s.draws 0 rest hc hb he h
    rw [← hp] at hrun
    exact hrun
  case decodeFrame => exact run_load_runActions _ _ s u raw rest hc hb hl hp rfl h
  case frame => exact run_load_runActions _ _ s u fd rest hc hb hl hp rfl h
  case refused =>
    refine (run_sendActions_construct s u r m 0 rest hc hb hp h).trans ?_
    rw [herr]
    rfl
  case sent =>
    have huc : u.config.wf = true := exec_config_wf _ _ u (by exact hc) h
    refine (run_sendActions_construct s u r m 3 rest hc hb hp h).trans ?_
    rw [herr]
    exact run_runActions (.encode m) _ u v _ _ 0 rest huc (exec_busy _ _ u h) rfl hv

end Sys2Proof.Machine
end

section
/-! PROOF. CHKSUM, ESCAPE and UNESCAPE (R80 to R88): the checksum law, the properties of escape, and the units that unescape collapses. -/

namespace Sys2Proof.Machine

/-! ### The completions of a command whose output is OBUF -/

theorem finishBytes_ok_eq_afterOk (s : State) (b : List Byte) (value : List Byte → Word) :
    s.finishBytes (.ok b) value = { afterOk s (value b) with obuf := b, olen := BitVec.ofNat 32 b.length } := rfl

theorem finishBytes_error_eq_afterBytesError (s : State) (e : CommandError) (value : List Byte → Word) :
    s.finishBytes (.error e) value = afterBytesError s e.eclass e.edetail e.earg := rfl

/-! ### Checksum -/

theorem byteSum_add_checksum (b : List Byte) : byteSum b % 256 + (checksum b).toNat = 255 :=
  (checksum_eq_iff b (checksum b)).1 rfl

theorem checksum_setWidth (b : List Byte) : (checksum b).setWidth 32 = BitVec.ofNat 32 (255 - byteSum b % 256) := by
  rw [← BitVec.ofNat_toNat, checksum_toNat]

/-- Settles O22: the completion writes the checksum, whose number is `checksum_toNat`. -/
theorem checksumCommandWritesResult : Obligations.ChecksumCommandWritesResult := by
  intro s
  exact congrArg (fun r => Host.Outcome.next (afterOk s r)) (checksum_setWidth s.ibuf)

/-- Settles O23, from the same sum with its first term reduced (`byteSum_add_checksum`). -/
theorem sumAndChecksumMakeFF : Obligations.SumAndChecksumMakeFF := by
  intro b
  have h := byteSum_add_checksum b
  unfold byteSum at h
  omega

/-! ### Escape -/

/-- Settles O24: the model's escape is the byte-by-byte one (`escape_eq_flatMap`). -/
theorem escapeCommandWritesObuf : Obligations.EscapeCommandWritesObuf := by
  intro s
  rw [← escape_eq_flatMap]
  rfl

theorem isReserved_eq (x : Byte) : isReserved x = (x == 0x7E#8 || x == 0x7D#8 || x == 0x11#8 || x == 0x13#8) := by
  rw [Bool.eq_iff_iff, isReserved_iff]
  simp [or_assoc]

theorem escape_length (b : List Byte) : (escape b).length = b.length + b.countP isReserved := by
  induction b with
  | nil => rfl
  | cons x b ih =>
    cases h : isReserved x with
    | false => rw [escape_cons_plain x b h, List.countP_cons_of_neg (by simp [h])]; simp only [List.length_cons]; omega
    | true => rw [escape_cons_reserved x b h, List.countP_cons_of_pos h]; simp only [List.length_cons]; omega

/-- The second byte of a reserved byte's pair (R60). -/
theorem masked_of_isReserved (x : Byte) (h : isReserved x = true) :
    x ^^^ 0x20#8 = 0x5E#8 ∨ x ^^^ 0x20#8 = 0x5D#8 ∨ x ^^^ 0x20#8 = 0x31#8 ∨ x ^^^ 0x20#8 = 0x33#8 := by
  rcases (isReserved_iff x).1 h with rfl | rfl | rfl | rfl <;> decide

theorem isReserved_masked (x : Byte) (h : isReserved x = true) : isReserved (x ^^^ 0x20#8) = false := by
  rcases masked_of_isReserved x h with hx | hx | hx | hx <;> rw [hx] <;> decide

/-- 0x7D aside, no reserved byte is left in an escaped sequence. -/
theorem not_mem_escape (z : Byte) (hz : isReserved z = true) (hne : z ≠ 0x7D#8) (b : List Byte) : z ∉ escape b := by
  have ne_of_plain (x : Byte) (hx : isReserved x = false) : z ≠ x := by
    rintro rfl
    rw [hz] at hx
    cases hx
  induction b with
  | nil => exact List.not_mem_nil
  | cons x b ih =>
    cases h : isReserved x with
    | false =>
      rw [escape_cons_plain x b h]
      exact List.not_mem_cons_of_ne_of_not_mem (ne_of_plain x h) ih
    | true =>
      rw [escape_cons_reserved x b h]
      exact List.not_mem_cons_of_ne_of_not_mem hne
        (List.not_mem_cons_of_ne_of_not_mem (ne_of_plain _ (isReserved_masked x h)) ih)

/-- Every 0x7D of an escaped sequence begins a reserved byte's pair. -/
theorem escape_esc_followed (b : List Byte) (i : Nat) (hi : (escape b)[i]? = some 0x7D#8) :
    ∃ x, isReserved x = true ∧ (escape b)[i + 1]? = some (x ^^^ 0x20#8) := by
  induction b generalizing i with
  | nil => cases hi
  | cons x b ih =>
    cases h : isReserved x with
    | false =>
      rw [escape_cons_plain x b h] at hi ⊢
      cases i with
      | zero => exact absurd (Option.some.inj hi) (isReserved_false_ne_esc x h)
      | succ i => exact ih i hi
    | true =>
      rw [escape_cons_reserved x b h] at hi ⊢
      match i, hi with
      | 0, _ => exact ⟨x, h, rfl⟩
      | 1, hi => exact absurd (Option.some.inj hi) (isReserved_false_ne_esc _ (isReserved_masked x h))
      | i + 2, hi => exact ih i hi

theorem unescape_escape (b : List Byte) : unescape (escape b) = .ok b := by
  induction b with
  | nil => rfl
  | cons x b ih =>
    cases h : isReserved x with
    | false => rw [escape_cons_plain x b h, unescape_plain x _ (isReserved_false_ne_esc x h), ih]
    | true =>
      rw [escape_cons_reserved x b h, unescape_pair, ih]
      simp only [BitVec.xor_assoc, BitVec.xor_self, BitVec.xor_zero]

/-- Settles O25, property by property. -/
theorem escapeIsInvertibleAndHidesReservedBytes : Obligations.EscapeIsInvertibleAndHidesReservedBytes := by
  refine ⟨fun b => ?lengths, fun b => ?hidden, unescape_escape, fun _ _ => rfl, fun b => ⟨escape b, rfl⟩⟩
  case lengths =>
    simp only [← isReserved_eq]
    exact ⟨escape_length b, by rw [escape_length]; exact Nat.le_add_right _ _, escape_length_le b⟩
  case hidden =>
    refine ⟨not_mem_escape _ rfl (by decide) b, not_mem_escape _ rfl (by decide) b, not_mem_escape _ rfl (by decide) b, fun i hi => ?_⟩
    obtain ⟨x, hx, hnext⟩ := escape_esc_followed b i hi
    exact ⟨_, hnext, masked_of_isReserved x hx⟩

/-! ### Unescape -/

/-- The wire bytes of a unit: the pair 0x7D, y for `(true, y)`, the byte itself for `(false, x)`. -/
def unitWire (u : Bool × Byte) : List Byte := if u.1 then [0x7D#8, u.2] else [u.2]

/-- The byte that a unit stands for (R85). -/
def unitByte (u : Bool × Byte) : Byte := if u.1 then u.2 ^^^ 0x20#8 else u.2

/-- A byte unit is no 0x7D, which would begin a pair. -/
def UnitOk (u : Bool × Byte) : Prop := u.1 = false → u.2 ≠ 0x7D#8

theorem unescape_unit (u : Bool × Byte) (rest : List Byte) (h : UnitOk u) :
    unescape (unitWire u ++ rest) = (unescape rest).map (unitByte u :: ·) := by
  obtain ⟨pair, x⟩ := u
  cases pair with
  | true => exact (unescape_pair x rest).trans (by cases unescape rest <;> rfl)
  | false => exact (unescape_plain x rest (h rfl)).trans (by cases unescape rest <;> rfl)

theorem unescape_units (units : List (Bool × Byte)) (rest : List Byte) (h : ∀ u ∈ units, UnitOk u) :
    unescape (units.flatMap unitWire ++ rest) = (unescape rest).map (units.map unitByte ++ ·) := by
  induction units with
  | nil => cases hr : unescape rest <;> simp [hr, Except.map]
  | cons u units ih =>
    obtain ⟨hu, hus⟩ := List.forall_mem_cons.1 h
    rw [List.flatMap_cons, List.append_assoc, unescape_unit u _ hu, ih hus]
    cases unescape rest <;> rfl

/-- Bytes are units to their end, or up to one last 0x7D. -/
def IsUnits (units : List (Bool × Byte)) (b : List Byte) : Prop :=
  (∀ u ∈ units, UnitOk u) ∧ (b = units.flatMap unitWire ∨ b = units.flatMap unitWire ++ [0x7D#8])

theorem isUnits_cons (u : Bool × Byte) (units : List (Bool × Byte)) (b : List Byte) (hu : UnitOk u) (h : IsUnits units b) :
    IsUnits (u :: units) (unitWire u ++ b) := by
  obtain ⟨hus, hb⟩ := h
  refine ⟨List.forall_mem_cons.2 ⟨hu, hus⟩, ?_⟩
  rw [List.flatMap_cons, List.append_assoc]
  exact hb.imp (congrArg _) (congrArg _)

/-- Every byte sequence is cut into units from its first byte on. -/
theorem exists_isUnits : ∀ b : List Byte, ∃ units, IsUnits units b
  | [] => ⟨[], by simp [IsUnits]⟩
  | x :: rest => by
    by_cases hx : x = 0x7D#8
    · subst hx
      match rest with
      | [] => exact ⟨[], by simp [IsUnits]⟩
      | y :: rest =>
        obtain ⟨units, h⟩ := exists_isUnits rest
        exact ⟨(true, y) :: units, isUnits_cons (true, y) units rest nofun h⟩
    · obtain ⟨units, h⟩ := exists_isUnits rest
      exact ⟨(false, x) :: units, isUnits_cons (false, x) units rest (fun _ => hx) h⟩

theorem exec_unescape (s : State) (out : Except CommandError (List Byte)) (h : unescape s.ibuf = out) :
    exec .unescape s = .next (s.finishBytes out (fun _ => 0#32)) :=
  congrArg (fun out => Host.Outcome.next (s.finishBytes out (fun _ => 0#32))) h

/-- Settles O26: IBUF is cut into units (`exists_isUnits`), and unescape maps them (`unescape_units`) up to what is left, nothing or 0x7D. -/
theorem unescapeCommandCollapsesPairs : Obligations.UnescapeCommandCollapsesPairs := by
  intro s
  obtain ⟨units, hus, hb⟩ := exists_isUnits s.ibuf
  refine ⟨units, hus, ?_⟩
  rcases hb with hb | hb
  · refine .inl ⟨hb, ?_⟩
    have hu : unescape s.ibuf = .ok (units.map unitByte) := by
      rw [hb, ← List.append_nil (units.flatMap unitWire), unescape_units units [] hus]
      simp [unescape, Except.map]
    rw [exec_unescape s _ hu, finishBytes_ok_eq_afterOk, List.length_map]
    rfl
  · refine .inr ⟨hb, ?_⟩
    have hu : unescape s.ibuf = .error .danglingEscape := by
      rw [hb, unescape_units units [0x7D#8] hus, unescape_dangling]
      rfl
    rw [exec_unescape s _ hu, finishBytes_error_eq_afterBytesError]
    rfl

end Sys2Proof.Machine
end

section
/-! PROOF. VALIDATE, WRAP and corrupted frames (R89 to R95): the envelope of a frame cut at the places R58 names. -/

namespace Sys2Proof.Machine

/-! ### The length field and the checksum byte -/

theorem lengthField_value (n : Nat) (h : n ≤ 65535) : (BitVec.ofNat 8 (n / 256)).toNat * 256 + (BitVec.ofNat 8 n).toNat = n := by
  rw [BitVec.toNat_ofNat, BitVec.toNat_ofNat]
  omega

/-- A frame whose length field and checksum byte are right is the plain frame (R58). -/
theorem eq_plainFrame (hi lo c : Byte) (fd : List Byte) (hl : hi.toNat * 256 + lo.toNat = fd.length)
    (hc : byteSum fd % 256 + c.toNat = 255) : 0x7E#8 :: hi :: lo :: (fd ++ [c]) = plainFrame fd := by
  have hlo := lo.isLt
  have hhi : hi = BitVec.ofNat 8 (fd.length / 256) := by
    rw [← hl, show (hi.toNat * 256 + lo.toNat) / 256 = hi.toNat by omega, BitVec.ofNat_toNat, BitVec.setWidth_eq]
  have hlow : lo = BitVec.ofNat 8 fd.length := by
    apply BitVec.eq_of_toNat_eq
    rw [BitVec.toNat_ofNat]
    omega
  rw [hhi, hlow, ← (checksum_eq_iff fd c).2 hc]
  rfl

/-! ### The envelope's answers on a frame -/

theorem envelope_tooShort (raw : List Byte) (m : Nat) (h : raw.length < m ∨ raw.length < 4) : envelope raw m = .error .tooShort :=
  if_pos (lt_max_iff.2 h)

section
variable (d h l : Byte) (fd : List Byte) (c : Byte) (m : Nat)

theorem envelope_badDelimiter (hm : m ≤ fd.length + 4) (hd : d ≠ 0x7E#8) :
    envelope (d :: h :: l :: (fd ++ [c])) m = .error .badDelimiter := by
  rw [envelope_frame, if_neg (Nat.not_lt.2 hm), if_pos hd]

theorem envelope_lengthMismatch (hm : m ≤ fd.length + 4) (hl : h.toNat * 256 + l.toNat ≠ fd.length) :
    envelope (0x7E#8 :: h :: l :: (fd ++ [c])) m = .error .lengthMismatch := by
  rw [envelope_frame, if_neg (Nat.not_lt.2 hm), if_neg (not_not.2 rfl), if_pos hl]

theorem envelope_checksumMismatch (hm : m ≤ fd.length + 4) (hl : h.toNat * 256 + l.toNat = fd.length)
    (hc : byteSum fd % 256 + c.toNat ≠ 255) : envelope (0x7E#8 :: h :: l :: (fd ++ [c])) m = .error .checksumMismatch := by
  rw [envelope_frame, if_neg (Nat.not_lt.2 hm), if_neg (not_not.2 rfl), if_neg (not_not.2 hl), if_pos hc]

theorem envelope_accepts (hm : m ≤ fd.length + 4) (hl : h.toNat * 256 + l.toNat = fd.length)
    (hc : byteSum fd % 256 + c.toNat = 255) : envelope (0x7E#8 :: h :: l :: (fd ++ [c])) m = .ok fd := by
  rw [envelope_frame, if_neg (Nat.not_lt.2 hm), if_neg (not_not.2 rfl), if_neg (not_not.2 hl), if_neg (not_not.2 hc)]

end

theorem envelope_plainFrame (fd : List Byte) (m : Nat) (hfd : fd.length ≤ 65535) (hm : m ≤ fd.length + 4) :
    envelope (plainFrame fd) m = .ok fd :=
  envelope_accepts _ _ fd _ m hm (lengthField_value _ hfd) (byteSum_add_checksum fd)

/-! ### VALIDATE -/

theorem exec_validate (s : State) (minlen : BitVec 16) (out : Except CommandError (List Byte))
    (h : envelope s.ibuf minlen.toNat = out) :
    exec (.validate minlen) s = .next (s.finishBytes out (fun fd => BitVec.ofNat 32 fd.length)) :=
  congrArg (fun out => Host.Outcome.next (s.finishBytes out (fun fd => BitVec.ofNat 32 fd.length))) h

/-- Settles O27: the envelope accepts a plain frame (`envelope_plainFrame`). -/
theorem validateAcceptsEveryEnvelope : Obligations.ValidateAcceptsEveryEnvelope := by
  intro s minlen fd hfd hm hb
  exact exec_validate s minlen (.ok fd) (by rw [hb, envelope_plainFrame fd _ hfd hm])

/-- Settles O28, check by check: `rest` is frame data and the checksum byte, and the envelope reports the check that fails on them. -/
theorem validateReportsTheFirstFailingCheck : Obligations.ValidateReportsTheFirstFailingCheck := by
  intro s minlen
  refine ⟨fun hs => exec_validate s minlen _ (envelope_tooShort _ _ hs), fun d h l rest hb hm hrest => ?_⟩
  obtain ⟨fd, c, rfl⟩ : ∃ fd c, rest = fd ++ [c] :=
    (List.eq_nil_or_concat' rest).resolve_left (List.ne_nil_of_length_pos hrest)
  have hm' : minlen.toNat ≤ fd.length + 4 := by simpa [hb] using hm
  have report (out : Except CommandError (List Byte)) (he : envelope (d :: h :: l :: (fd ++ [c])) minlen.toNat = out) :
      exec (.validate minlen) s = .next (s.finishBytes out (fun fd => BitVec.ofNat 32 fd.length)) :=
    exec_validate s minlen out (by rw [hb, he])
  refine ⟨fun hd => ?delimiter, fun hd hl => ?length, fun fd' c' hr hd hl hc => ?checksum, fun fd' c' hr hd hl hc => ?accepted⟩
  case delimiter => exact report _ (envelope_badDelimiter d h l fd c _ hm' hd)
  case length =>
    subst hd
    refine report _ (envelope_lengthMismatch h l fd c _ hm' fun heq => hl ?_)
    rw [List.length_append, List.length_singleton]
    omega
  case checksum =>
    obtain ⟨rfl, rfl⟩ := List.append_singleton_inj.1 hr
    subst hd
    exact report _ (envelope_checksumMismatch h l fd c _ hm' (by omega) hc)
  case accepted =>
    obtain ⟨rfl, rfl⟩ := List.append_singleton_inj.1 hr
    rw [hb, hd]
    exact eq_plainFrame h l c fd (by omega) hc

/-! ### Corrupted frames -/

/-- Settles O29: the other checks read the same bytes, and the new length field reads as `len`. -/
theorem corruptedLengthFieldFails : Obligations.CorruptedLengthFieldFails := by
  intro f fd m len hf hlen hne
  obtain ⟨hi, lo, c, rfl, hm, -, -⟩ := envelope_ok f fd m hf
  exact envelope_lengthMismatch _ _ fd c m hm (by rwa [lengthField_value len hlen])

/-- One byte replaced changes the byte sum by the difference. -/
theorem byteSum_set (b : List Byte) (j : Nat) (y x : Byte) (hy : b[j]? = some y) :
    byteSum (b.set j x) + y.toNat = byteSum b + x.toNat := by
  induction b generalizing j with
  | nil => cases hy
  | cons z b ih =>
    cases j with
    | zero =>
      cases hy
      rw [List.set_cons_zero, byteSum_cons, byteSum_cons]
      omega
    | succ j =>
      have h := ih j hy
      rw [List.set_cons_succ, byteSum_cons, byteSum_cons]
      omega

/-- Two bytes that differ are not congruent modulo 256, so the sum of frame data with one byte replaced is another one modulo 256. -/
theorem byteSum_set_mod_ne (b : List Byte) (j : Nat) (y x : Byte) (hy : b[j]? = some y) (hne : y ≠ x) :
    byteSum (b.set j x) % 256 ≠ byteSum b % 256 := by
  have hsum := byteSum_set b j y x hy
  have hyx : y.toNat ≠ x.toNat := fun h => hne (BitVec.eq_of_toNat_eq h)
  have := y.isLt
  have := x.isLt
  omega

/-- Settles O30: byte `k` is a byte of the frame data, whose sum changes, or the checksum byte, which the sum determines. -/
theorem corruptedChecksumOrDataByteFails : Obligations.CorruptedChecksumOrDataByteFails := by
  intro f fd m k x hf hk hkl hne
  obtain ⟨hi, lo, c, rfl, hm, hl, hc⟩ := envelope_ok f fd m hf
  obtain ⟨j, rfl⟩ : ∃ j, k = j + 3 := ⟨k - 3, by omega⟩
  change envelope (0x7E#8 :: hi :: lo :: (fd ++ [c]).set j x) m = _
  change (fd ++ [c])[j]? ≠ some x at hne
  have hj : j ≤ fd.length := by simpa using hkl
  rcases Nat.lt_or_eq_of_le hj with hj | rfl
  · rw [List.getElem?_append_left hj, List.getElem?_eq_getElem hj] at hne
    rw [List.set_append_left _ _ hj]
    have hsum := byteSum_set_mod_ne fd j fd[j] x (List.getElem?_eq_getElem hj) (fun h => hne (congrArg some h))
    exact envelope_checksumMismatch hi lo _ c m (by rwa [List.length_set]) (by rwa [List.length_set]) (by omega)
  · have hcx : c ≠ x := by simpa using hne
    rw [List.set_append_right _ _ (Nat.le_refl _), Nat.sub_self, List.set_cons_zero]
    exact envelope_checksumMismatch hi lo fd x m hm hl fun hx => hcx (BitVec.eq_of_toNat_eq (by omega))

/-! ### WRAP -/

theorem exec_wrap (s : State) (m : Mode) (out : Except CommandError (List Byte)) (h : wrapOutput m s.ibuf = out) :
    exec (.wrap m) s = .next (s.finishBytes out (fun _ => 0#32)) :=
  congrArg (fun out => Host.Outcome.next (s.finishBytes out (fun _ => 0#32))) h

theorem wrapOutput_of_le (m : Mode) (fd : List Byte) (hm : modeAccepted m = true) (h : fd.length ≤ 65535) :
    wrapOutput m fd = .ok (wireFrame fd m) := by
  rw [wrapOutput, if_pos hm, if_pos h, wrapFrame_eq_wireFrame fd m h]

theorem wrapOutput_of_lt (m : Mode) (fd : List Byte) (hm : modeAccepted m = true) (h : 65535 < fd.length) :
    wrapOutput m fd = .error .operandTooLong := by
  rw [wrapOutput, if_pos hm, if_neg (Nat.not_le.2 h)]

/-- Settles O31: the two answers of the length check, once the mode is accepted. -/
theorem wrapCommandBuildsTheFrame : Obligations.WrapCommandBuildsTheFrame := by
  intro s m hm
  have hmode : modeAccepted m = true := by rcases hm with rfl | rfl <;> rfl
  exact ⟨fun h => exec_wrap s m _ (wrapOutput_of_le m s.ibuf hmode h), fun h => exec_wrap s m _ (wrapOutput_of_lt m s.ibuf hmode h)⟩

end Sys2Proof.Machine
end

section
/-! PROOF. The router (R113 to R121, R125, R193): what BUILD and DECODEV answer stage by stage, and the frame instruction that a step runs
for them. -/

namespace Sys2Proof.Machine

/-! ### The mode check -/

theorem modeAccepted_iff (m : Mode) : modeAccepted m = true ↔ m = .API ∨ m = .API_ESC := by
  cases m <;> decide

/-- Settles O32: each of the four commands looks at MODE before anything else. -/
theorem unsupportedModeIsRejectedFirst : Obligations.UnsupportedModeIsRejectedFirst := by
  intro s m v arg hm
  rcases hm with ⟨rfl, rfl⟩ | ⟨rfl, rfl⟩
  case inl => exact ⟨rfl, rfl, rfl, rfl⟩
  case inr => exact ⟨rfl, rfl, rfl, rfl⟩

/-! ### The completions of a command whose output is PREC -/

theorem failRecord_eq_afterRecordError (s : State) (e : CommandError) : s.failRecord e = afterRecordError s e.eclass e.edetail e.earg := rfl

/-- A variant needs a correlation id exactly when its first field is CID (R112). -/
theorem hasCid_iff (L : Layout) : hasCid L = true ↔ ∃ fs, L.fields = .CID :: fs := by
  unfold hasCid
  split
  case h_1 fs h => simp [h]
  case h_2 h => simpa using h

theorem recordResult_cid (L : Layout) (r : Record) (fs : List FieldSpec) (n : Nat) (vs : List FieldVal) (hL : L.fields = .CID :: fs)
    (hr : r.vals = .cid n :: vs) (hn : n ≤ 255) : recordResult L r = BitVec.ofNat 32 (r.type.toNat + (256 + 65536 * n)) := by
  apply BitVec.eq_of_toNat_eq
  have := r.type.isLt
  simp only [recordResult, (hasCid_iff L).2 ⟨fs, hL⟩, cidValue, hr, if_true, toNat_append_digits, BitVec.toNat_ofBool, BitVec.toNat_ofNat,
    Bool.toNat_true]
  omega

theorem recordResult_no_cid (L : Layout) (r : Record) (h : hasCid L = false) : recordResult L r = BitVec.ofNat 32 r.type.toNat := by
  apply BitVec.eq_of_toNat_eq
  have := r.type.isLt
  simp only [recordResult, h, Bool.false_eq_true, if_false, toNat_append_digits, BitVec.toNat_ofBool, BitVec.toNat_ofNat, Bool.toNat_false]
  omega

/-- RESULT's bit fields are the number that R69 names, where a correlation id is a byte. -/
theorem recordResult_eq_recordResultValue (L : Layout) (r : Record)
    (hcid : ∀ fs, L.fields = .CID :: fs → ∃ n vs, r.vals = .cid n :: vs ∧ n ≤ 255) : recordResult L r = recordResultValue L r := by
  cases h : hasCid L with
  | true =>
    obtain ⟨fs, hL⟩ := (hasCid_iff L).1 h
    obtain ⟨n, vs, hr, hn⟩ := hcid fs hL
    rw [recordResult_cid L r fs n vs hL hr hn, recordResultValue, hL, hr]
  | false =>
    rw [recordResult_no_cid L r h, recordResultValue]
    split
    case h_1 fs n vs hL hr => simp [hasCid, hL] at h
    case h_2 => rfl

/-- A decoded correlation id is one byte of the frame data (R124). -/
theorem decodeLayout_cid (cfg : Config) (L : Layout) (fd : List Byte) (r : Record) (tags : List (Option Tag)) (fs : List FieldSpec)
    (h : decodeLayout cfg L fd = .ok (r, tags)) (hL : L.fields = .CID :: fs) : ∃ n vs, r.vals = .cid n :: vs ∧ n ≤ 255 := by
  obtain ⟨-, -, rest, -, hds⟩ := decodeLayout_ok cfg L fd r tags h
  rw [hL] at hds
  obtain ⟨v, t, rest', vs, ts, hv, -, hvals, -⟩ := decodeFields_cons_ok cfg 0 .CID fs rest [] r.vals tags hds
  cases hv
  exact ⟨_, vs, hvals, Nat.le_of_lt_succ (rest.headD 0#8).isLt⟩

theorem dispatch_decoded (s : State) (t : Byte) (fd : List Byte) (L : Layout) (r : Record) (tags : List (Option Tag))
    (hr : registered s.config t = some L) (hd : decodeLayout s.config L fd = .ok (r, tags)) :
    s.dispatch t fd = { afterOk s (recordResultValue L r) with prec := { record := some r, tags := tags, valid := true } } := by
  rw [dispatch_some s t fd L hr, runDecoder_ok s L fd r tags hd,
    recordResult_eq_recordResultValue L r fun fs hL => decodeLayout_cid s.config L fd r tags fs hd hL]
  rfl

theorem decodeLayout_error_eclass (cfg : Config) (L : Layout) (fd : List Byte) (e : CommandError) (h : decodeLayout cfg L fd = .error e) :
    e.eclass = 2#4 := by
  rcases decodeLayout_error cfg L fd e h with ⟨-, rfl⟩ | ⟨-, rfl⟩ | ⟨j, -, ⟨-, rfl⟩ | ⟨-, rfl⟩⟩ | ⟨-, rfl⟩ <;> rfl

theorem dispatch_undecoded (s : State) (t : Byte) (fd : List Byte) (L : Layout) (e : CommandError)
    (hr : registered s.config t = some L) (hd : decodeLayout s.config L fd = .error e) :
    s.dispatch t fd = afterRecordError s 2#4 e.edetail e.earg := by
  rw [dispatch_some s t fd L hr, runDecoder_error s L fd e hd, failRecord_eq_afterRecordError, decodeLayout_error_eclass s.config L fd e hd]

theorem dispatch_unregistered (s : State) (t : Byte) (fd : List Byte) (h : registered s.config t = none) :
    s.dispatch t fd = afterRecordError s 4#4 0x00#8 t := dispatch_none s t fd h

/-- The decoder reads nothing of IBUF: its operand is the frame data (R119, R120). -/
theorem dispatch_ibuf (s : State) (b : List Byte) (t : Byte) (fd : List Byte) :
    { s with ibuf := b }.dispatch t fd = { s.dispatch t fd with ibuf := b } := by
  cases hr : registered s.config t with
  | none => rw [dispatch_none s t fd hr, dispatch_none { s with ibuf := b } t fd hr]; rfl
  | some L =>
    rw [dispatch_some s t fd L hr, dispatch_some { s with ibuf := b } t fd L hr]
    rcases hd : decodeLayout s.config L fd with e | ⟨r, tags⟩
    · rw [runDecoder_error s L fd e hd, runDecoder_error { s with ibuf := b } L fd e hd]; rfl
    · rw [runDecoder_ok s L fd r tags hd, runDecoder_ok { s with ibuf := b } L fd r tags hd]; rfl

/-! ### The stages of BUILD and DECODEV -/

theorem exec_build_ok (s : State) (m : Mode) (fd : List Byte) (h : inboundFrameData m s.ibuf = .ok fd) :
    exec (.build m) s = .next (s.dispatch (fd.headD 0#8) fd) := by
  simp only [exec, execBuild, h]

theorem exec_build_error (s : State) (m : Mode) (e : CommandError) (h : inboundFrameData m s.ibuf = .error e) :
    exec (.build m) s = .next (afterRecordError s e.eclass e.edetail e.earg) := by
  simp only [exec, execBuild, h, failRecord_eq_afterRecordError]

theorem exec_decodev_accepted (s : State) (m : Mode) (v : Byte) (hm : modeAccepted m = true) :
    exec (.decodev m v) s = .next (s.dispatch v s.ibuf) := by
  simp only [exec, execDecodev, hm, if_true]

theorem inboundFrameData_unescaped (m : Mode) (b raw : List Byte) (hm : modeAccepted m = true) (h : inboundUnescape m b = .ok raw) :
    inboundFrameData m b = envelope raw 5 := by
  simp only [inboundFrameData, hm, if_true, h, GEN_MIN]

theorem inboundFrameData_dangling (m : Mode) (b : List Byte) (e : CommandError) (hm : modeAccepted m = true)
    (h : inboundUnescape m b = .error e) : inboundFrameData m b = .error e := by
  simp only [inboundFrameData, hm, if_true, h]

theorem inboundUnescape_esc_ok (x : Byte) (xs out : List Byte) (h : unescape xs = .ok out) :
    inboundUnescape .API_ESC (x :: xs) = .ok (x :: out) := by
  simp only [inboundUnescape, h]

/-- The one error of the unescape stage (R115, R87). -/
theorem inboundUnescape_error (m : Mode) (b : List Byte) (e : CommandError) (h : inboundUnescape m b = .error e) : e = .danglingEscape := by
  unfold inboundUnescape at h
  split at h
  case h_1 x xs =>
    split at h
    · cases h
    · rename_i e' he
      cases h
      exact unescape_error xs e he
  case h_2 => cases h

/-- The unescape stage undoes the escape of the wire (R58, R60, R115). -/
theorem inboundUnescape_wireFrame (fd : List Byte) (m : Mode) (hm : m = .API ∨ m = .API_ESC) :
    inboundUnescape m (wireFrame fd m) = .ok (plainFrame fd) := by
  rcases hm with rfl | rfl
  case inl => rfl
  case inr =>
    simp only [wireFrame, plainFrame, ← escape_eq_flatMap]
    exact inboundUnescape_esc_ok _ _ _ (unescape_escape _)

theorem inboundFrameData_wireFrame (fd : List Byte) (m : Mode) (hm : m = .API ∨ m = .API_ESC) (hl : fd.length ≤ 65535) (hne : fd ≠ []) :
    inboundFrameData m (wireFrame fd m) = .ok fd := by
  rw [inboundFrameData_unescaped m _ _ ((modeAccepted_iff m).2 hm) (inboundUnescape_wireFrame fd m hm)]
  have := List.length_pos_iff.2 hne
  exact envelope_plainFrame fd 5 hl (by omega)

/-- Every error of the envelope is a decode error without an argument (R89, R73). -/
theorem envelope_error_codes (raw : List Byte) (n : Nat) (e : CommandError) (h : envelope raw n = .error e) :
    e.eclass = 2#4 ∧ e.earg = 0#8 ∧ 1 ≤ e.edetail.toNat ∧ e.edetail.toNat ≤ 4 := by
  rcases envelope_error raw n e h with rfl | rfl | rfl | rfl <;> decide

/-! ### BUILD -/

/-- Settles O33: the wire frame is unescaped and stripped to the frame data, which the registered layout decodes. -/
theorem buildDecodesTheWireFrame : Obligations.BuildDecodesTheWireFrame := by
  intro s m fd L r tags hm hl hb hr hd
  have hne : fd ≠ [] := by
    obtain ⟨-, -, rest, rfl, -⟩ := decodeLayout_ok s.config L fd r tags hd
    exact List.cons_ne_nil _ _
  have hfd : inboundFrameData m s.ibuf = .ok fd := by rw [hb, inboundFrameData_wireFrame fd m hm hl hne]
  rw [exec_build_ok s m fd hfd, dispatch_decoded s _ fd L r tags hr hd]

/-- Byte 0 is kept by the unescape, so one that is no delimiter fails the second check (R115, R89). -/
theorem inboundFrameData_byte_zero (x : Byte) (xs out : List Byte) (hx : x ≠ 0x7E#8) (hu : unescape xs = .ok out) (hl : 4 ≤ out.length) :
    inboundFrameData .API_ESC (x :: xs) = .error .badDelimiter := by
  rw [inboundFrameData_unescaped .API_ESC _ _ rfl (inboundUnescape_esc_ok x xs out hu)]
  obtain ⟨d, hi, lo, fd, c, hf⟩ := exists_frame_parts (x :: out) (Nat.le_succ_of_le hl)
  obtain ⟨rfl, rfl⟩ := List.cons.inj hf
  refine envelope_badDelimiter x hi lo fd c 5 ?_ hx
  simp only [List.length_cons, List.length_append, List.length_nil] at hl
  omega

/-- Settles O34, stage by stage: unescape, envelope, discriminator, decoder; and byte 0 on its own. -/
theorem buildReportsTheFirstFailingStage : Obligations.BuildReportsTheFirstFailingStage := by
  intro s m hm
  have hmode := (modeAccepted_iff m).2 hm
  refine ⟨fun e he => ?unescape, fun raw hraw => ?unescaped, fun xs out hb hu hl => ?byteZero⟩
  case unescape =>
    cases inboundUnescape_error m s.ibuf e he
    exact ⟨rfl, exec_build_error s m _ (inboundFrameData_dangling m s.ibuf _ hmode he)⟩
  case unescaped =>
    have hin := inboundFrameData_unescaped m s.ibuf raw hmode hraw
    refine ⟨fun e he => ?envelope, fun t body hfd => ?dispatched⟩
    case envelope =>
      obtain ⟨hclass, harg, hdetail⟩ := envelope_error_codes raw 5 e he
      exact ⟨by rw [exec_build_error s m e (hin.trans he), hclass, harg], hdetail⟩
    case dispatched =>
      have hex : exec (.build m) s = .next (s.dispatch t (t :: body)) := exec_build_ok s m (t :: body) (hin.trans hfd)
      refine ⟨fun hr => by rw [hex, dispatch_unregistered s t _ hr], fun L e hr hd => ⟨?answer, fun ht => ?detail⟩⟩
      case answer => rw [hex, dispatch_undecoded s t _ L e hr hd]
      case detail =>
        rcases decodeLayout_error s.config L (t :: body) e hd with ⟨-, rfl⟩ | ⟨hne, -⟩ | ⟨j, -, ⟨-, rfl⟩ | ⟨-, rfl⟩⟩ | ⟨-, rfl⟩
        · exact .inl rfl
        · exact absurd ht.symm hne
        · exact .inr (.inr (.inr rfl))
        · exact .inr (.inl rfl)
        · exact .inr (.inr (.inl rfl))
  case byteZero =>
    exact exec_build_error s .API_ESC _ (by rw [hb, inboundFrameData_byte_zero 0x7D#8 xs out (by decide) hu hl])

/-! ### DECODEV -/

/-- Settles O35, check by check, in the decoder's order (`decodeLayout_error`). -/
theorem decodevDecodesOrReportsTheFirstFailingCheck : Obligations.DecodevDecodesOrReportsTheFirstFailingCheck := by
  intro s m v hm
  have hex := exec_decodev_accepted s m v ((modeAccepted_iff m).2 hm)
  refine ⟨fun hr => by rw [hex, dispatch_unregistered s v _ hr], fun L hr => ?_⟩
  have report (e : CommandError) (hd : decodeLayout s.config L s.ibuf = .error e) :
      exec (.decodev m v) s = .next (afterRecordError s 2#4 e.edetail e.earg) := by
    rw [hex, dispatch_undecoded s v _ L e hr hd]
  refine ⟨fun hs => ?tooShort, fun x xs hb hl hx => ?wrongDiscriminator, fun e hd => ⟨report e hd, fun hl ht => ?fields⟩,
    fun r tags hd => ?decoded⟩
  case tooShort => exact report _ (decodeLayout_tooShort s.config L s.ibuf hs)
  case wrongDiscriminator =>
    rw [hb] at hl
    exact report _ (by rw [hb, decodeLayout_wrongDiscriminator s.config L x xs hl hx])
  case fields =>
    rcases decodeLayout_error s.config L s.ibuf e hd with ⟨hs, -⟩ | ⟨hne, -⟩ | ⟨j, hj, ⟨hf, rfl⟩ | ⟨hf, rfl⟩⟩ | ⟨hp, rfl⟩
    · exact absurd hl (Nat.not_le.2 hs)
    · exact absurd (by simp [List.headD_eq_head?_getD, ht]) hne
    · exact .inr (.inl ⟨j, hj, hf, rfl, rfl⟩)
    · exact .inl ⟨j, hj, hf, rfl, rfl⟩
    · exact .inr (.inr ⟨fun f hf heq => hp (heq ▸ hf), rfl, rfl⟩)
  case decoded => rw [hex, dispatch_decoded s v _ L r tags hr hd]

/-- Settles O36: both commands dispatch the same frame data to the same decoder, in states that differ in IBUF alone. -/
theorem buildEqualsEnvelopeThenDecodev : Obligations.BuildEqualsEnvelopeThenDecodev := by
  intro s m b raw fd hm hu he
  have hmode := (modeAccepted_iff m).2 hm
  have hfd : inboundFrameData m b = .ok fd := (inboundFrameData_unescaped m b raw hmode hu).trans he
  refine ⟨_, _, exec_build_ok { s with ibuf := b } m fd hfd, exec_decodev_accepted { s with ibuf := fd } m _ hmode, ?_⟩
  rw [dispatch_ibuf s b, dispatch_ibuf s fd]
  exact ⟨rfl, rfl, rfl⟩

/-! ### The frame instruction that a step runs -/

theorem frameLayout_of_frameOf (t : Byte) (body : List Byte) (i : Instr) (h : frameOf t body = some i) : ∃ L, frameLayout t = some L := by
  unfold frameOf at h
  split at h
  case h_11 => cases h
  all_goals
    rename_i ht
    rw [show t = BitVec.ofNat 8 t.toNat by simp, ht]
    exact ⟨_, rfl⟩

/-- A frame instruction of a variant that is registered with its default layout is the dispatch of its frame data (R117, R119). -/
theorem exec_dispatchedFrame (s : State) (fd : List Byte) (i : Instr) (hd : decodeFrameData fd = .ok i)
    (hr : registered s.config (fd.headD 0#8) = frameLayout (fd.headD 0#8)) : exec i s = .next (s.dispatch (fd.headD 0#8) fd) := by
  obtain ⟨t, body, rfl, -, hi⟩ := decodeFrameData_ok fd i hd
  obtain ⟨L, hL⟩ := frameLayout_of_frameOf t body i hi
  rw [exec_frameOf s t body i L hi hL, dispatch_some s _ _ L (hr.trans hL)]

/-- Settles O7: the step is the latched command (O6), which dispatches the frame data, as the frame instruction does. -/
theorem engineStepRunsTheDispatchedFrame : Obligations.EngineStepRunsTheDispatchedFrame := by
  intro s w m fd i hc hb hl ht hd hr
  have hex := exec_dispatchedFrame s fd i hd hr
  have hstep (j : Instr) := engineStepRunsTheLatchedCommand s w j hc hb hl ht
  refine ⟨fun hw hfd => ?build, fun hw hm hfd => ?decodev⟩
  case build => rw [hstep _ hw, exec_build_ok s m fd hfd, hex]
  case decodev => rw [hstep _ hw, exec_decodev_accepted s m _ ((modeAccepted_iff m).2 hm), hfd, hex]

end Sys2Proof.Machine
end

section
/-! PROOF. Well-formed layouts (R122, R123): their conditions index by index, the round trip of frame data (R141), and BUILD at the minimum
length (R140). -/

namespace Sys2Proof.Machine

/-! ### The conditions of R122, index by index -/

theorem isVar_iff (f : FieldSpec) : isVar f = true ↔ f = .VAR := by cases f <;> simp [isVar]

theorem isPayload_iff (f : FieldSpec) : isPayload f = true ↔ f = .PAYLOAD := by cases f <;> simp [isPayload]

theorem isFixed_eq_false_iff (f : FieldSpec) : isFixed f = false ↔ f = .VAR ∨ f = .PAYLOAD := by
  simp only [isFixed, Bool.and_eq_false_iff, Bool.not_eq_false', isVar_iff, isPayload_iff]

theorem tableDefined_iff (t : Byte) : tableDefined t = true ↔ t.toNat ≤ 5 ∨ (8 ≤ t.toNat ∧ t.toNat ≤ 12) := by
  unfold tableDefined policy
  split
  case isTrue h => simp [h]
  case isFalse h => split <;> simp [*]

theorem noneAfter_iff_pairwise (p q : FieldSpec → Bool) (fs : List FieldSpec) :
    noneAfter p q fs = true ↔ fs.Pairwise (fun f g => p f = true → q g = false) := by
  induction fs with
  | nil => simp [noneAfter]
  | cons f fs ih =>
    rw [noneAfter_cons, List.pairwise_cons, ih]
    simp only [List.all_eq_true, Bool.not_eq_true']
    exact and_congr_left fun _ => ⟨fun h g hg hp => h hp g hg, fun h hp g hg => h g hg hp⟩

theorem noneAfter_iff (p q : FieldSpec → Bool) (fs : List FieldSpec) :
    noneAfter p q fs = true ↔
      ∀ (i j : Nat) (f g : FieldSpec), i < j → fs[i]? = some f → fs[j]? = some g → p f = true → q g = false := by
  rw [noneAfter_iff_pairwise, List.pairwise_iff_getElem]
  constructor
  · intro h i j f g hij hf hg
    obtain ⟨hi, rfl⟩ := List.getElem?_eq_some_iff.1 hf
    obtain ⟨hj, rfl⟩ := List.getElem?_eq_some_iff.1 hg
    exact h i j hi hj hij
  · intro h i j hi hj hij
    exact h i j _ _ hij (List.getElem?_eq_getElem hi) (List.getElem?_eq_getElem hj)

section
variable (fs : List FieldSpec)

/-- R122 (1). -/
theorem cidFirst_iff : cidFirst fs = true ↔ ∀ i : Nat, fs[i]? = some .CID → i = 0 := by
  rw [cidFirst, List.all_eq_true]
  constructor
  · intro h i hi
    cases i with
    | zero => rfl
    | succ i => exact absurd (h .CID (List.mem_of_getElem? (List.getElem?_tail.trans hi))) (by decide)
  · intro h f hf
    obtain ⟨i, hi⟩ := List.mem_iff_getElem?.1 hf
    cases f with
    | CID => exact absurd (h (i + 1) (List.getElem?_tail.symm.trans hi)) (Nat.succ_ne_zero i)
    | INT | CODE | BYTES | TEXT | VAR | PAYLOAD => rfl

/-- R122 (2). -/
theorem noFixedAfterVar_iff : noneAfter isVar isFixed fs = true ↔
    ∀ (i j : Nat) (f : FieldSpec), i < j → fs[i]? = some .VAR → fs[j]? = some f → f = .VAR ∨ f = .PAYLOAD := by
  simp only [noneAfter_iff, isVar_iff, isFixed_eq_false_iff]
  exact ⟨fun h i j f hij hi hj => h i j .VAR f hij hi hj rfl, fun h i j f g hij hi hj hf => h i j g hij (hf ▸ hi) hj⟩

/-- R122 (3). -/
theorem noVarAfterPayload_iff : noneAfter isPayload isVar fs = true ↔
    ∀ i j : Nat, fs[i]? = some .VAR → fs[j]? = some .PAYLOAD → i < j := by
  rw [noneAfter_iff]
  constructor
  · intro h i j hi hj
    rcases Nat.lt_trichotomy i j with hij | rfl | hji
    · exact hij
    · rw [hi] at hj
      cases hj
    · exact absurd (h j i .PAYLOAD .VAR hji hj hi rfl) (by decide)
  · intro h i j f g hij hi hj hf
    rw [← Bool.not_eq_true, isVar_iff]
    rintro rfl
    rw [(isPayload_iff f).1 hf] at hi
    exact absurd (h j i hj hi) (Nat.lt_asymm hij)

/-- R122 (4). -/
theorem nothingAfterPayload_iff : noneAfter isPayload (fun _ => true) fs = true ↔
    ∀ i : Nat, fs[i]? = some .PAYLOAD → i + 1 = fs.length := by
  rw [noneAfter_iff]
  constructor
  · intro h i hi
    obtain ⟨hlt, -⟩ := List.getElem?_eq_some_iff.1 hi
    by_contra hne
    have hnext : i + 1 < fs.length := by omega
    exact absurd (h i (i + 1) .PAYLOAD _ (Nat.lt_succ_self i) hi (List.getElem?_eq_getElem hnext) rfl) (by decide)
  · intro h i j f g hij hi hj hf
    rw [(isPayload_iff f).1 hf] at hi
    obtain ⟨hlt, -⟩ := List.getElem?_eq_some_iff.1 hj
    have := h i hi
    omega

/-- R122 (7). -/
theorem codeTablesOk_iff : fs.all codeTableOk = true ↔
    ∀ t : Byte, FieldSpec.CODE t ∈ fs → t.toNat ≤ 5 ∨ (8 ≤ t.toNat ∧ t.toNat ≤ 12) := by
  rw [List.all_eq_true]
  constructor
  · exact fun h t ht => (tableDefined_iff t).1 (h (.CODE t) ht)
  · intro h f hf
    cases f with
    | CODE t => exact (tableDefined_iff t).2 (h t hf)
    | CID | INT | BYTES | TEXT | VAR | PAYLOAD => rfl

/-- The width limits of R122. -/
theorem widthsOk_iff : fs.all widthOk = true ↔
    (∀ w : Nat, FieldSpec.INT w ∈ fs → 1 ≤ w ∧ w ≤ 8) ∧ (∀ w : Nat, FieldSpec.BYTES w ∈ fs → 1 ≤ w)
      ∧ ∀ (c : Nat) (q : Pattern), FieldSpec.TEXT c q ∈ fs → 1 ≤ c := by
  rw [List.all_eq_true]
  constructor
  · intro h
    exact ⟨fun w hw => by simpa [widthOk] using h _ hw, fun w hw => by simpa [widthOk] using h _ hw,
      fun c q hc => by simpa [widthOk] using h _ hc⟩
  · rintro ⟨hint, hbytes, htext⟩ f hf
    cases f with
    | INT w => simpa [widthOk] using hint w hf
    | BYTES w => simpa [widthOk] using hbytes w hf
    | TEXT c q => simpa [widthOk] using htext c q hf
    | CID | CODE | VAR | PAYLOAD => rfl

end

/-- Settles O20, condition by condition. -/
theorem layoutWellFormednessIndexByIndex : Obligations.LayoutWellFormednessIndexByIndex := by
  intro L
  simp only [layoutWf, Bool.and_eq_true, decide_eq_true_eq, cidFirst_iff, noFixedAfterVar_iff, noVarAfterPayload_iff,
    nothingAfterPayload_iff, codeTablesOk_iff, widthsOk_iff]
  constructor
  · rintro ⟨⟨⟨⟨⟨⟨⟨hwidths, hcid⟩, hvar⟩, horder⟩, hlast⟩, hcount⟩, hmin⟩, hcode⟩
    exact ⟨hcid, hvar, horder, hlast, hcount, hmin, hcode, hwidths⟩
  · rintro ⟨hcid, hvar, horder, hlast, hcount, hmin, hcode, hwidths⟩
    exact ⟨⟨⟨⟨⟨⟨⟨hwidths, hcid⟩, hvar⟩, horder⟩, hlast⟩, hcount⟩, hmin⟩, hcode⟩

/-! ### The round trip -/

theorem encodeLayout_eq_some (L : Layout) (r : Record) (b : List Byte) (h : encodeFields L.fields r.vals = some b) :
    encodeLayout L r = some (r.type :: b) := by
  rw [encodeLayout, h]

/-- The frame data of conforming values decodes to them, with the tags that CONSTRUCT gives (R141 (1)): it is long enough, it begins with
the discriminator, and no byte is left over. -/
theorem decodeLayout_encodeFields (cfg : Config) (L : Layout) (r : Record) (b : List Byte) (hL : layoutWf L = true) (ht : r.type = L.type)
    (hc : List.Forall₂ fieldConforms L.fields r.vals) (hb : encodeFields L.fields r.vals = some b) :
    decodeLayout cfg L (r.type :: b) = .ok (r, recordTags cfg L r) := by
  obtain ⟨-, hpay, -, -⟩ := layoutWf_parts L hL
  obtain ⟨hwidth, -⟩ := encodeFields_length L.fields r.vals b hc hb
  have hlen : minlen L ≤ (r.type :: b).length + 4 := by
    rw [minlen, List.length_cons]
    omega
  rw [decodeLayout_fields cfg L r.type b hlen ht, decodeFields_encodeFields cfg 0 L.fields r.vals b hpay hc hb]
  rfl

/-- Settles O43: a conforming record is read back from its encoding (`decodeLayout_encodeFields`), and the bytes that a decode has read are the
encoding of its record (`decodeLayout_conforms`). -/
theorem frameDataRoundTrip : Obligations.FrameDataRoundTrip := by
  intro cfg L hL
  refine ⟨fun r ht hc => ?decodeOfEncode, fun fd r tags hd => ?encodeOfDecode⟩
  case decodeOfEncode =>
    obtain ⟨b, hb⟩ := encodeFields_isSome L.fields r.vals (conforms_kinds L.fields r.vals hc)
    exact ⟨r.type :: b, _, encodeLayout_eq_some L r b hb, decodeLayout_encodeFields cfg L r b hL ht hc hb⟩
  case encodeOfDecode =>
    obtain ⟨-, -, b, hb, rfl⟩ := decodeLayout_conforms cfg L fd r tags hL hd
    exact encodeLayout_eq_some L r b hb

/-! ### BUILD at the minimum length -/

theorem plainFrame_length (fd : List Byte) : (plainFrame fd).length = fd.length + 4 := by
  simp [plainFrame]

/-- BUILD in API mode has nothing to unescape, so it checks the envelope of IBUF itself. -/
theorem inboundFrameData_api (b : List Byte) : inboundFrameData .API b = envelope b 5 := inboundFrameData_unescaped .API b b rfl rfl

/-- Settles O42: with every variable part empty an encoding is as long as the fixed widths (`encodeFields_length`), and BUILD decodes it
(O33, O43); one byte less fails the envelope's minimum of 5 bytes when MINLEN is 5, and the variant's own minimum otherwise. -/
theorem buildAcceptsExactlyFromMinimumLength : Obligations.BuildAcceptsExactlyFromMinimumLength := by
  intro s L hcfg hr
  obtain ⟨-, hL⟩ := registered_wf s.config L.type L hcfg hr
  obtain ⟨-, -, -, hmax⟩ := layoutWf_parts L hL
  refine ⟨fun r fd ht hc hempty he hb => ?minimum, fun fd hlen hhead hb => ?oneLess⟩
  case minimum =>
    obtain ⟨b, hfields, rfl⟩ := encodeLayout_some L r fd he
    obtain ⟨-, hwidth⟩ := encodeFields_length L.fields r.vals b hc hfields
    have hlen : (r.type :: b).length + 4 = minlen L := by
      rw [minlen, List.length_cons, hwidth hempty]
      omega
    refine ⟨by rw [hb, plainFrame_length, hlen], _,
      buildDecodesTheWireFrame s .API (r.type :: b) L r _ (.inl rfl) (by omega) hb (by rw [List.headD_cons, ht, hr])
        (decodeLayout_encodeFields s.config L r b hL ht hc hfields), rfl, rfl, rfl⟩
  case oneLess =>
    have hin : inboundFrameData .API s.ibuf = envelope (plainFrame fd) 5 := by rw [hb, inboundFrameData_api]
    by_cases h5 : minlen L = 5
    · have hshort : (plainFrame fd).length < 5 := by
        rw [plainFrame_length]
        omega
      rw [exec_build_error s .API _ (hin.trans (envelope_tooShort _ 5 (.inl hshort))), if_pos h5]
      rfl
    · have hbound : 5 ≤ minlen L := by
        rw [minlen]
        omega
      have htype : fd.headD 0#8 = L.type := by simp [List.headD_eq_head?_getD, hhead (by omega)]
      rw [exec_build_ok s .API fd (hin.trans (envelope_plainFrame fd 5 (by omega) (by omega))),
        dispatch_undecoded s _ fd L _ (by rw [htype, hr]) (decodeLayout_tooShort s.config L fd (by omega)), if_neg h5]
      rfl

end Sys2Proof.Machine
end

section
/-! PROOF. The decoder bank (R119, R125 to R139): the frame data of the ten default layouts, written field by field, and what their decoders
answer on it. -/

namespace Sys2Proof.Machine

/-! ### Frame data, field by field -/

/-- `FieldsOnWire cfg fs vals tags b`: the bytes `b` are the fields `fs` with the values `vals`, each written as its kind is
(R126 to R129), and `tags` are the tags of a decode. -/
inductive FieldsOnWire (cfg : Config) : List FieldSpec → List FieldVal → List (Option Tag) → List Byte → Prop
  | nil : FieldsOnWire cfg [] [] [] []
  | cid {fs vs ts b} (x : Byte) (h : FieldsOnWire cfg fs vs ts b) :
      FieldsOnWire cfg (.CID :: fs) (.cid x.toNat :: vs) (none :: ts) (x :: b)
  | int {fs vs ts b} (x : Byte) (h : FieldsOnWire cfg fs vs ts b) :
      FieldsOnWire cfg (.INT 1 :: fs) (.int x.toNat :: vs) (none :: ts) (x :: b)
  | code {fs vs ts b} {t : Byte} (x : Byte) (h : FieldsOnWire cfg fs vs ts b) :
      FieldsOnWire cfg (.CODE t :: fs) (.code x.toNat :: vs) (some (lookupTag cfg t x) :: ts) (x :: b)
  | bytes {fs vs ts b} {w : Nat} (a : List Byte) (hw : a.length = w) (h : FieldsOnWire cfg fs vs ts b) :
      FieldsOnWire cfg (.BYTES w :: fs) (.bytes a :: vs) (none :: ts) (a ++ b)
  | text {fs vs ts b} {c : Nat} {q : Pattern} (a : List Byte) (hc : a.length ≤ c) (hq : matchesPattern q a = true)
      (h : FieldsOnWire cfg fs vs ts b) :
      FieldsOnWire cfg (.TEXT c q :: fs) (.text a :: vs) (none :: ts) (a ++ List.replicate (c - a.length) 0#8 ++ b)
  | var {fs vs ts b} (a : List Byte) (ha : a.length ≤ 255) (h : FieldsOnWire cfg fs vs ts b) :
      FieldsOnWire cfg (.VAR :: fs) (.var a :: vs) (none :: ts) (BitVec.ofNat 8 a.length :: (a ++ b))
  | payload (a : List Byte) : FieldsOnWire cfg [.PAYLOAD] [.payload a] [none] a

theorem FieldsOnWire.conforms {cfg fs vs ts b} (h : FieldsOnWire cfg fs vs ts b) : List.Forall₂ fieldConforms fs vs := by
  induction h with
  | nil => exact .nil
  | cid x _ ih | code x _ ih => exact .cons (Nat.le_of_lt_succ x.isLt) ih
  | int x _ ih => exact .cons x.isLt ih
  | bytes a hw _ ih => exact .cons hw ih
  | text a hc hq _ ih => exact .cons ⟨hc, hq⟩ ih
  | var a ha _ ih => exact .cons ha ih
  | payload a => exact .cons trivial .nil

/-- The bytes are the model's encoding of the values (R128). -/
theorem FieldsOnWire.encodes {cfg fs vs ts b} (h : FieldsOnWire cfg fs vs ts b) : encodeFields fs vs = some b := by
  induction h with
  | nil => rfl
  | cid x _ ih | code x _ ih => exact encodeFields_cons _ _ _ _ [x] _ (by simp [encodeField]) ih
  | int x _ ih => exact encodeFields_cons _ _ _ _ [x] _ (by simp [encodeField, beBytes]) ih
  | bytes a _ _ ih | text a _ _ _ ih => exact encodeFields_cons _ _ _ _ _ _ rfl ih
  | var a _ _ ih => exact encodeFields_cons _ _ _ _ (_ :: a) _ rfl ih
  | payload a => simp [encodeFields, encodeField]

/-- The tags are those of the values (R126, R151). -/
theorem FieldsOnWire.tags_eq {cfg fs vs ts b} (h : FieldsOnWire cfg fs vs ts b) : ts = List.zipWith (fieldTag cfg) fs vs := by
  induction h with
  | nil | payload => rfl
  | code x _ ih => rw [List.zipWith_cons_cons, ← ih, fieldTag, BitVec.ofNat_toNat, BitVec.setWidth_eq]
  | cid _ _ ih | int _ _ ih | bytes _ _ _ ih | text _ _ _ _ ih | var _ _ _ ih => exact congrArg (none :: ·) ih

/-! ### A decoder's two completions -/

/-- A decoder run on the fields of its own layout leaves their record valid in PREC (R124, R141). -/
theorem runDecoder_decoded (s : State) (L : Layout) (vals : List FieldVal) (tags : List (Option Tag)) (body : List Byte)
    (hL : layoutWf L = true) (h : FieldsOnWire s.config L.fields vals tags body) :
    s.runDecoder L (L.type :: body) =
      { afterOk s (recordResultValue L { type := L.type, vals := vals }) with
        prec := { record := some { type := L.type, vals := vals }, tags := tags, valid := true } } := by
  have hd := decodeLayout_encodeFields s.config L { type := L.type, vals := vals } body hL rfl h.conforms h.encodes
  rw [runDecoder_ok s L _ _ _ hd, recordResult_eq_recordResultValue L _ fun fs hfs => decodeLayout_cid s.config L _ _ _ fs hd hfs,
    h.tags_eq]
  rfl

theorem runDecoder_undecoded (s : State) (L : Layout) (fd : List Byte) (e : CommandError) (h : decodeLayout s.config L fd = .error e) :
    s.runDecoder L fd = afterRecordError s 2#4 e.edetail e.earg := by
  rw [runDecoder_error s L fd e h, failRecord_eq_afterRecordError, decodeLayout_error_eclass s.config L fd e h]

/-! ### The decoded records -/

theorem lookupTag_degrade (cfg : Config) (t n : Byte) (h : policy t = some .degrade) :
    lookupTag cfg t n = if (t, n) ∈ cfg.codetab then .KNOWN else .UNKNOWN := by
  simp only [lookupTag, isMember_iff_mem, h]

theorem lookupTag_absent (cfg : Config) (t n : Byte) (h : policy t = some .absent) :
    lookupTag cfg t n = if (t, n) ∈ cfg.codetab then .KNOWN else .ABSENT := by
  simp only [lookupTag, isMember_iff_mem, h]

/-- Settles O37, field by field; the tags of the two status codes are the lookups under their tables' policies. -/
theorem atCommandAndStatusFramesDecode : Obligations.AtCommandAndStatusFramesDecode := by
  intro s cid c1 c2 st c data
  rw [← lookupTag_degrade s.config 4#8 c rfl, ← lookupTag_absent s.config 9#8 c rfl]
  refine ⟨congrArg Host.Outcome.next ?command, congrArg Host.Outcome.next ?response, congrArg Host.Outcome.next ?modemStatus,
    congrArg Host.Outcome.next ?frameError⟩
  case command => exact runDecoder_decoded s layoutAtCommand _ _ _ rfl (.cid cid (.bytes [c1, c2] rfl (.payload data)))
  case response =>
    exact runDecoder_decoded s layoutAtCommandResponse _ _ _ rfl (.cid cid (.bytes [c1, c2] rfl (.code st (.payload data))))
  case modemStatus => exact runDecoder_decoded s layoutModemStatus _ _ _ rfl (.code c .nil)
  case frameError => exact runDecoder_decoded s layoutFrameError _ _ _ rfl (.code c .nil)

/-- Settles O38, field by field. -/
theorem addressedFramesDecode : Obligations.AddressedFramesDecode := by
  intro s cid x y c1 c2 a64 a16 data h64 h16
  simp only [List.append_assoc]
  refine ⟨congrArg Host.Outcome.next ?transmit, congrArg Host.Outcome.next ?remote, congrArg Host.Outcome.next ?receive⟩
  case transmit =>
    exact runDecoder_decoded s layoutTransmitRequest _ _ _ rfl
      (.cid cid (.bytes a64 h64 (.bytes a16 h16 (.int x (.int y (.payload data))))))
  case remote =>
    exact runDecoder_decoded s layoutRemoteAtCommandRequest _ _ _ rfl
      (.cid cid (.bytes a64 h64 (.bytes a16 h16 (.int x (.bytes [c1, c2] rfl (.payload data))))))
  case receive =>
    exact runDecoder_decoded s layoutReceivePacket _ _ _ rfl (.bytes a64 h64 (.bytes a16 h16 (.int x (.payload data))))

/-- Settles O39, field by field: the phone text matches the slot's pattern and is padded to its 20 bytes. -/
theorem txSmsFrameDecodes : Obligations.TxSmsFrameDecodes := by
  intro s cid opts phone data hphone hlen
  exact congrArg _ (runDecoder_decoded s layoutTxSms _ _ _ rfl
    (.cid cid (.int opts (.text phone hlen ((matches_phone_iff phone).2 hphone) (.payload data)))))

/-- Settles O40, field by field. -/
theorem deviceRequestAndGenericFramesDecode : Obligations.DeviceRequestAndGenericFramesDecode := by
  intro s a b c target data hlen
  refine ⟨congrArg Host.Outcome.next ?device, congrArg Host.Outcome.next ?generic⟩
  case device =>
    exact runDecoder_decoded s layoutDeviceRequest _ _ _ rfl (.int a (.int b (.int c (.var target hlen (.payload data)))))
  case generic => exact runDecoder_decoded s layoutGeneric _ _ _ rfl (.payload data)

/-! ### The decoders' errors -/

section
variable {cfg : Config} {i : Nat}

theorem decodeField_var_overflow (k : Byte) (rest : List Byte) (h : rest.length < k.toNat) :
    decodeField cfg i .VAR (k :: rest) = .error (.varFieldOverflow i) := if_neg (Nat.not_le.2 h)

theorem decodeField_text_invalid (c : Nat) (q : Pattern) (slot rest : List Byte) (hc : slot.length = c)
    (hq : matchesPattern q (strip0 slot) = false) : decodeField cfg i (.TEXT c q) (slot ++ rest) = .error (.fieldInvalid i) := by
  rw [decodeField, List.take_left' hc, hq]
  rfl

variable {f : FieldSpec} {fs : List FieldSpec} {b : List Byte} {e : CommandError}

theorem decodeFields_error_here (h : decodeField cfg i f b = .error e) : decodeFields cfg i (f :: fs) b = .error e := by
  rw [decodeFields, h]

theorem decodeFields_error_later {v : FieldVal} {t : Option Tag} {rest : List Byte} (h : decodeField cfg i f b = .ok (v, t, rest))
    (he : decodeFields cfg (i + 1) fs rest = .error e) : decodeFields cfg i (f :: fs) b = .error e := by
  rw [decodeFields, h]
  simp only [he]

end

section
variable (s : State) (L : Layout) (body : List Byte)

/-- VARIANT_TOO_SHORT (R123, R125). -/
theorem runDecoder_tooShort (t : Byte) (h : body.length + 5 < minlen L) :
    s.runDecoder L (t :: body) = afterRecordError s 2#4 0x05#8 0#8 :=
  runDecoder_undecoded s L (t :: body) _ (decodeLayout_tooShort s.config L (t :: body) h)

/-- A field's error is the decoder's, once the frame data is long enough (R125). -/
theorem runDecoder_fieldError (e : CommandError) (hl : minlen L ≤ body.length + 5)
    (h : decodeFields s.config 0 L.fields body = .error e) :
    s.runDecoder L (L.type :: body) = afterRecordError s 2#4 e.edetail e.earg := by
  refine runDecoder_undecoded s L _ e ?_
  rw [decodeLayout_fields s.config L L.type body hl rfl, h]

/-- TRAILING_BYTES (R125). -/
theorem runDecoder_trailing (vals : List FieldVal) (tags : List (Option Tag)) (x : Byte) (left : List Byte)
    (hl : minlen L ≤ body.length + 5) (h : decodeFields s.config 0 L.fields body = .ok (vals, tags, x :: left)) :
    s.runDecoder L (L.type :: body) = afterRecordError s 2#4 0x08#8 0#8 := by
  refine runDecoder_undecoded s L _ .trailingBytes ?_
  rw [decodeLayout_fields s.config L L.type body hl rfl, h]
  rfl

end

/-- Settles O41: the nine minimum lengths are those of the layouts' fixed widths; the later errors are those of the one field, or of the end
of the fields, that the decode reaches. -/
theorem frameDecodersReportErrors : Obligations.FrameDecodersReportErrors := by
  refine ⟨fun s i body h => ?tooShort, fun s a b c k rest =>
    ⟨congrArg Host.Outcome.next ?modemStatus, congrArg Host.Outcome.next ?frameError, fun hk => congrArg Host.Outcome.next ?overflow,
      fun content zeros hlen hlast hphone => congrArg Host.Outcome.next ?phone⟩⟩
  case tooShort =>
    rcases h with ⟨rfl, h⟩ | ⟨rfl, h⟩ | ⟨rfl, h⟩ | ⟨rfl, h⟩ | ⟨rfl, h⟩ | ⟨rfl, h⟩ | ⟨rfl, h⟩ | ⟨rfl, h⟩ | ⟨rfl, h⟩
    all_goals exact congrArg Host.Outcome.next (runDecoder_tooShort s _ body _ h)
  case modemStatus => exact runDecoder_trailing s layoutModemStatus (a :: b :: rest) _ _ b rest (Nat.le_add_left 6 _) rfl
  case frameError => exact runDecoder_trailing s layoutFrameError (a :: b :: rest) _ _ b rest (Nat.le_add_left 6 _) rfl
  case overflow =>
    refine runDecoder_fieldError s layoutDeviceRequest (a :: b :: c :: k :: rest) (.varFieldOverflow 3) (Nat.le_add_left 9 _) ?_
    exact decodeFields_error_later rfl <| decodeFields_error_later rfl <| decodeFields_error_later rfl <|
      decodeFields_error_here (decodeField_var_overflow k rest hk)
  case phone =>
    have hslot : (content ++ List.replicate zeros 0x00#8).length = 20 := by
      rw [List.length_append, List.length_replicate, hlen]
    have hinvalid : matchesPattern .PHONE (strip0 (content ++ List.replicate zeros 0x00#8)) = false := by
      rw [strip0_content content zeros hlast, ← Bool.not_eq_true, matches_phone_iff]
      exact hphone
    have hmin : minlen layoutTxSms ≤ (a :: b :: (content ++ List.replicate zeros 0x00#8 ++ rest)).length + 5 := by
      rw [List.length_cons, List.length_cons, List.length_append, hslot, show minlen layoutTxSms = 27 from rfl]
      omega
    refine runDecoder_fieldError s layoutTxSms (a :: b :: _) (.fieldInvalid 2) hmin ?_
    exact decodeFields_error_later rfl <| decodeFields_error_later rfl <|
      decodeFields_error_here (decodeField_text_invalid 20 .PHONE _ rest hslot hinvalid)

end Sys2Proof.Machine
end

section
/-! PROOF. CONSTRUCT (R151 to R155, R193): its checks in their order, the first failing one reported, and the record it makes valid. -/

namespace Sys2Proof.Machine

/-! ### The completions of CONSTRUCT -/

theorem failConstruct_eq_afterConstructError (s : State) (r : Record) (e : CommandError) (hr : s.prec.record = some r) :
    s.failConstruct r.vals e = afterConstructError s e.eclass e.edetail e.earg := by
  unfold afterConstructError
  rw [hr]
  unfold State.failConstruct
  rw [hr]
  rfl

theorem exec_construct_noRecord (s : State) (hr : s.prec.record = none) :
    exec .construct s = .next (afterConstructError s 5#4 0x05#8 0#8) := by
  simp only [exec, execConstruct, State.failConstruct, afterConstructError, hr]
  rfl

theorem exec_construct_error (s : State) (r : Record) (e : CommandError) (hr : s.prec.record = some r)
    (hk : constructCheck s.config r = .error e) :
    exec .construct s = .next (afterConstructError s e.eclass e.edetail e.earg) := by
  simp only [exec, execConstruct, hr, hk, failConstruct_eq_afterConstructError s r e hr]

/-- The correlation id of a conforming record is one byte (R152). -/
theorem conforms_cid (L : Layout) (r : Record) (hc : List.Forall₂ fieldConforms L.fields r.vals) (fs : List FieldSpec)
    (hL : L.fields = .CID :: fs) : ∃ n vs, r.vals = .cid n :: vs ∧ n ≤ 255 := by
  rw [hL, List.forall₂_cons_left_iff] at hc
  obtain ⟨v, vs, hv, -, hvals⟩ := hc
  cases v with
  | cid n => exact ⟨n, vs, hvals, hv⟩
  | int | code | bytes | text | var | payload => cases hv

theorem exec_construct_ok (s : State) (r : Record) (L : Layout) (fd : List Byte) (hr : s.prec.record = some r)
    (hL : registered s.config r.type = some L) (hc : List.Forall₂ fieldConforms L.fields r.vals) (he : encodeLayout L r = some fd)
    (hl : fd.length ≤ 65535) :
    exec .construct s = .next { afterOk s (recordResultValue L r) with
      prec := { record := some r, tags := recordTags s.config L r, valid := true } } := by
  have hk : constructCheck s.config r = .ok (L, recordTags s.config L r) := by
    rw [constructCheck_of_conforms s.config r L hL hc, he]
    exact if_pos hl
  simp only [exec, execConstruct, hr, hk, recordResult_eq_recordResultValue L r (conforms_cid L r hc)]
  rfl

/-- What a CONSTRUCT without error says of its record and leaves (R150, R151). -/
theorem exec_construct_accepted (s t : State) (r : Record) (hr : s.prec.record = some r) (h : exec .construct s = .next t)
    (herr : t.status.err = false) :
    ∃ L fd, registered s.config r.type = some L ∧ List.Forall₂ fieldConforms L.fields r.vals ∧ encodeLayout L r = some fd
      ∧ fd.length ≤ 65535 ∧ t.config = s.config ∧ t.prec.record = some r ∧ t.prec.valid = true := by
  cases hk : constructCheck s.config r with
  | error e =>
    rw [exec_construct_error s r e hr hk] at h
    cases h
    cases herr
  | ok p =>
    obtain ⟨hL, hc, -, fd, he, hl⟩ := constructCheck_ok s.config r p.1 p.2 hk
    rw [exec_construct_ok s r p.1 fd hr hL hc he hl] at h
    cases h
    exact ⟨p.1, fd, hL, hc, he, hl, rfl, rfl, rfl⟩

/-- Settles O45: every check passes, and the tags are the lookups of the code fields. -/
theorem constructAcceptsConformingRecords : Obligations.ConstructAcceptsConformingRecords :=
  fun s r L fd hr hL hc he hl => exec_construct_ok s r L fd hr hL hc he hl

/-! ### The first index that fails a check -/

/-- Before index `i` the fields and the values agree in `P`. -/
def AgreeBefore (P : FieldSpec → FieldVal → Prop) (i : Nat) (fs : List FieldSpec) (vs : List FieldVal) : Prop :=
  ∀ j < i, ∃ f v, fs[j]? = some f ∧ vs[j]? = some v ∧ P f v

/-- Agreement before a later index is agreement of the two heads and of the tails. -/
theorem agreeBefore_succ (P : FieldSpec → FieldVal → Prop) (i : Nat) (fs : List FieldSpec) (vs : List FieldVal)
    (h : AgreeBefore P (i + 1) fs vs) : ∃ f fs' v vs', fs = f :: fs' ∧ vs = v :: vs' ∧ P f v ∧ AgreeBefore P i fs' vs' := by
  obtain ⟨f, v, hf, hv, hP⟩ := h 0 (Nat.succ_pos i)
  match fs, vs, hf, hv with
  | f :: fs, v :: vs, rfl, rfl => exact ⟨f, fs, v, vs, rfl, rfl, hP, fun j hj => h (j + 1) (Nat.succ_lt_succ hj)⟩

/-- SHAPE's index (R151, R153): the kinds agree before it, and differ or are missing there. -/
theorem shapeMismatch_eq_some (k i : Nat) (fs : List FieldSpec) (vs : List FieldVal)
    (hbefore : AgreeBefore (fun f v => v.kind = specKind f) i fs vs) (hne : fs[i]?.map specKind ≠ vs[i]?.map FieldVal.kind) :
    shapeMismatch k fs vs = some (k + i) := by
  induction i generalizing k fs vs with
  | zero =>
    match fs, vs, hne with
    | [], [], hne => exact absurd rfl hne
    | [], _ :: _, _ | _ :: _, [], _ => rfl
    | f :: fs, v :: vs, hne => exact if_neg fun hk => hne (congrArg some hk.symm)
  | succ i ih =>
    obtain ⟨f, fs, v, vs, rfl, rfl, hk, hrest⟩ := agreeBefore_succ _ i fs vs hbefore
    rw [shapeMismatch, if_pos hk, ih (k + 1) fs vs hrest hne, Nat.add_assoc, Nat.add_comm 1 i]

/-- The reported value check (R151 step 2): conforming values pass theirs, and the one at `i` does not. -/
theorem checkFields_eq_some (k i : Nat) (fs : List FieldSpec) (vs : List FieldVal) (f : FieldSpec) (v : FieldVal) (e : CommandError)
    (hbefore : AgreeBefore fieldConforms i fs vs) (hf : fs[i]? = some f) (hv : vs[i]? = some v) (he : checkField (k + i) f v = some e) :
    checkFields k fs vs = some e := by
  induction i generalizing k fs vs with
  | zero =>
    match fs, vs, hf, hv with
    | f :: fs, v :: vs, rfl, rfl => rw [checkFields, show checkField k f v = some e from he]
  | succ i ih =>
    obtain ⟨g, fs, u, vs, rfl, rfl, hc, hrest⟩ := agreeBefore_succ _ i fs vs hbefore
    rw [checkFields, (checkField_none_iff k g u).2 hc]
    exact ih (k + 1) fs vs hrest hf hv (by rwa [Nat.add_assoc, Nat.add_comm 1 i])

/-- Values of the kinds of the fields, one for one, are the layout's shape (R151). -/
theorem shapeMismatch_eq_none_of_kinds (k : Nat) (fs : List FieldSpec) (vs : List FieldVal)
    (h : vs.map FieldVal.kind = fs.map specKind) : shapeMismatch k fs vs = none := by
  rw [← List.forall₂_eq_eq_eq, List.forall₂_map_left_iff, List.forall₂_map_right_iff] at h
  exact (shapeMismatch_none_iff k fs vs).2 h.flip

/-! ### CONSTRUCT's checks in their order -/

theorem constructCheck_notSupported (cfg : Config) (r : Record) (h : registered cfg r.type = none) :
    constructCheck cfg r = .error (.notSupported r.type) := by
  simp only [constructCheck, h]

theorem constructCheck_shape (cfg : Config) (r : Record) (L : Layout) (i : Nat) (hL : registered cfg r.type = some L)
    (hs : shapeMismatch 0 L.fields r.vals = some i) : constructCheck cfg r = .error (.shape i) := by
  simp only [constructCheck, hL, hs]

theorem constructCheck_field (cfg : Config) (r : Record) (L : Layout) (e : CommandError) (hL : registered cfg r.type = some L)
    (hs : shapeMismatch 0 L.fields r.vals = none) (hf : checkFields 0 L.fields r.vals = some e) : constructCheck cfg r = .error e := by
  simp only [constructCheck, hL, hs, hf]

theorem constructCheck_frameTooLong (cfg : Config) (r : Record) (L : Layout) (fd : List Byte) (hL : registered cfg r.type = some L)
    (hc : List.Forall₂ fieldConforms L.fields r.vals) (he : encodeLayout L r = some fd) (hl : 65535 < fd.length) :
    constructCheck cfg r = .error .frameTooLong := by
  rw [constructCheck_of_conforms cfg r L hL hc, he]
  exact if_neg (Nat.not_le.2 hl)

/-- Settles O46, check by check. -/
theorem constructChecksRecordTypeAndShapeFirst : Obligations.ConstructChecksRecordTypeAndShapeFirst := by
  intro s
  refine ⟨exec_construct_noRecord s, fun r hr hL => ?notSupported, fun r L i hr hL hbefore hne => ?shape⟩
  case notSupported => exact exec_construct_error s r _ hr (constructCheck_notSupported s.config r hL)
  case shape =>
    have hs := shapeMismatch_eq_some 0 i L.fields r.vals hbefore hne
    rw [Nat.zero_add] at hs
    exact exec_construct_error s r _ hr (constructCheck_shape s.config r L i hL hs)

/-- Settles O47: the field check at the first bad index answers the constraint's error (`checkFields_eq_some`); with no bad value the length
check is left. -/
theorem constructReportsTheFirstBadField : Obligations.ConstructReportsTheFirstBadField := by
  intro s r L hr hL
  refine ⟨fun i f v detail hkinds hbefore hf hv hbad => ?field, fun fd hc he hl => ?length⟩
  case field =>
    obtain ⟨e, he, hclass, rfl, harg⟩ :
        ∃ e, checkField i f v = some e ∧ e.eclass = 3#4 ∧ e.edetail = detail ∧ e.earg = BitVec.ofNat 8 i := by
      rcases hbad with ⟨n, rfl, rfl, h, rfl⟩ | ⟨w, n, rfl, rfl, h, rfl⟩ | ⟨t, n, rfl, rfl, h, rfl⟩ | ⟨w, b, rfl, rfl, h, rfl⟩
        | ⟨c, q, b, rfl, rfl, h, rfl⟩ | ⟨c, q, b, rfl, rfl, hc, hq, rfl⟩ | ⟨b, rfl, rfl, h, rfl⟩
      · exact ⟨.range i, if_neg (Nat.not_lt.2 h), rfl, rfl, rfl⟩
      · exact ⟨.range i, if_neg (Nat.not_lt.2 h), rfl, rfl, rfl⟩
      · exact ⟨.range i, if_neg (Nat.not_lt.2 h), rfl, rfl, rfl⟩
      · exact ⟨.size i, if_neg h, rfl, rfl, rfl⟩
      · exact ⟨.capacity i, if_pos h, rfl, rfl, rfl⟩
      · exact ⟨.pattern i, by rw [checkField, if_neg (Nat.not_lt.2 hc), hq]; rfl, rfl, rfl, rfl⟩
      · exact ⟨.varTooLong i, if_neg (Nat.not_le.2 h), rfl, rfl, rfl⟩
    have hfields := checkFields_eq_some 0 i L.fields r.vals f v e hbefore hf hv (by rwa [Nat.zero_add])
    rw [exec_construct_error s r e hr
      (constructCheck_field s.config r L e hL (shapeMismatch_eq_none_of_kinds 0 L.fields r.vals hkinds) hfields), hclass, harg]
  case length => exact exec_construct_error s r _ hr (constructCheck_frameTooLong s.config r L fd hL hc he hl)

end Sys2Proof.Machine
end

section
/-! PROOF. ENCODE (R91, R157, R160, R215) and the canonical frames (R156): what ENCODE writes, and the bytes of an escaped frame. -/

namespace Sys2Proof.Machine

/-! ### The completions of ENCODE -/

theorem precFrameData_eq_some (s : State) (r : Record) (L : Layout) (fd : List Byte) (hr : s.prec.record = some r)
    (hL : registered s.config r.type = some L) (he : encodeLayout L r = some fd) : precFrameData s = some fd := by
  simp only [precFrameData, hr, hL, he]

theorem exec_encode_ok (s : State) (m : Mode) (fd : List Byte) (hm : modeAccepted m = true) (hv : s.prec.valid = true)
    (hfd : precFrameData s = some fd) :
    exec (.encode m) s = .next { afterOk s 0#32 with
      obuf := encodeOutput s.config m fd
      olen := BitVec.ofNat 32 (encodeOutput s.config m fd).length } := by
  simp only [exec, execEncode, hm, if_true, hv, hfd]
  rfl

theorem exec_encode_notConstructed (s : State) (m : Mode) (hm : modeAccepted m = true) (hv : s.prec.valid = false) :
    exec (.encode m) s = .next (afterBytesError s 5#4 0x02#8 0#8) := by
  simp only [exec, execEncode, hm, if_true, hv, Bool.false_eq_true, if_false]
  rfl

theorem exec_encode_unsupported (s : State) (m : Mode) (hm : modeAccepted m = false) :
    exec (.encode m) s = .next (afterBytesError s 1#4 0x00#8 (m.bits.setWidth 8)) := by
  simp only [exec, execEncode, hm, Bool.false_eq_true, if_false]
  rfl

theorem exec_encode_fault (s : State) (m : Mode) (hm : modeAccepted m = true) (hv : s.prec.valid = true) (hfd : precFrameData s = none) :
    exec (.encode m) s = .fault .validWithoutRecord := by
  simp only [exec, execEncode, hm, if_true, hv, hfd]

/-- Settles O49: a completed ENCODE has written OBUF, or refused the mode, or found no constructed record. -/
theorem encodeNeverReportsAFieldConstraint : Obligations.EncodeNeverReportsAFieldConstraint := by
  intro s t m h
  cases hm : modeAccepted m with
  | false =>
    rw [exec_encode_unsupported s m hm] at h
    cases h
    exact .inr (.inl rfl)
  | true =>
    cases hv : s.prec.valid with
    | false =>
      rw [exec_encode_notConstructed s m hm hv] at h
      cases h
      exact .inr (.inr rfl)
    | true =>
      cases hfd : precFrameData s with
      | none =>
        rw [exec_encode_fault s m hm hv hfd] at h
        cases h
      | some fd =>
        rw [exec_encode_ok s m fd hm hv hfd] at h
        cases h
        exact .inl rfl

/-! ### The bytes that ENCODE writes -/

theorem encodeOutput_wireFrame (cfg : Config) (m : Mode) (fd : List Byte) (h : fd.length ≤ 65535) :
    encodeOutput cfg m fd = wireFrame fd m := by
  rw [encodeOutput_of_le cfg m fd h, wrapFrame_eq_wireFrame fd m h]

theorem exec_encode_wireFrame (s : State) (m : Mode) (r : Record) (L : Layout) (fd : List Byte) (hm : m = .API ∨ m = .API_ESC)
    (hv : s.prec.valid = true) (hr : s.prec.record = some r) (hL : registered s.config r.type = some L)
    (he : encodeLayout L r = some fd) (hl : fd.length ≤ 65535) :
    exec (.encode m) s = .next { afterOk s 0#32 with
      obuf := wireFrame fd m
      olen := BitVec.ofNat 32 (wireFrame fd m).length } := by
  rw [exec_encode_ok s m fd ((modeAccepted_iff m).2 hm) hv (precFrameData_eq_some s r L fd hr hL he),
    encodeOutput_wireFrame s.config m fd hl]

/-- With more than 65535 bytes of frame data the two length bytes are free, all others are R91's (log entry 4). -/
theorem wrapFrame_overlong (fd : List Byte) (m : Mode) (body : List Byte) (h : 65535 < fd.length)
    (hb : body = (Config.lengthBytes fd.length).1 :: (Config.lengthBytes fd.length).2
      :: (fd ++ [BitVec.ofNat 8 (255 - (fd.map BitVec.toNat).sum % 256)])) :
    wrapFrame fd m = 0x7E#8 :: (if m = .API_ESC then body.flatMap escapeByte else body) := by
  have hbe : be16 fd.length = [(Config.lengthBytes fd.length).1, (Config.lengthBytes fd.length).2] := if_neg (Nat.not_le.2 h)
  rw [← escape_eq_flatMap, hb, wrapFrame, hbe]
  rfl

/-- An output that would not fit OBUF is cut to fit it (R41, log entry 5). -/
theorem encodeOutput_length_le (cfg : Config) (m : Mode) (fd : List Byte) (h : 65535 < fd.length) :
    (encodeOutput cfg m fd).length ≤ cfg.obufCap := by
  unfold encodeOutput
  split
  case isTrue hfit => exact hfit.resolve_left (Nat.not_le.2 h)
  case isFalse => exact List.length_take_le _ _

theorem encodeOutput_of_fits (cfg : Config) (m : Mode) (fd : List Byte) (h : (wrapFrame fd m).length ≤ cfg.obufCap) :
    encodeOutput cfg m fd = wrapFrame fd m := if_pos (.inr h)

/-- Settles O48: the output of a valid record is its wire frame up to 65535 bytes of frame data, and fits OBUF above; a record just written is
not valid. -/
theorem encodeWritesTheWireFrame : Obligations.EncodeWritesTheWireFrame := by
  intro s m r hm
  have hmode := (modeAccepted_iff m).2 hm
  refine ⟨fun L fd hv hr hL he hl => ?frame, fun L fd hv hr hL he hl => ?overlong, fun hv => ?notConstructed, fun hb => ?written⟩
  case frame => exact exec_encode_wireFrame s m r L fd hm hv hr hL he hl
  case overlong =>
    refine ⟨(Config.lengthBytes fd.length).1, (Config.lengthBytes fd.length).2, _,
      exec_encode_ok s m fd hmode hv (precFrameData_eq_some s r L fd hr hL he), encodeOutput_length_le s.config m fd hl,
      fun body frame hbody hframe hfit => ?_⟩
    rw [hframe, ← wrapFrame_overlong fd m body hl hbody] at hfit ⊢
    exact encodeOutput_of_fits s.config m fd hfit
  case notConstructed => exact exec_encode_notConstructed s m hmode hv
  case written => exact exec_encode_notConstructed (hostPut r s) m hmode (by rw [hostPut, hb]; rfl)

/-! ### Canonical frames -/

/-- The bytes of an escaped sequence (R156): no reserved byte but 0x7D, and each 0x7D begins a reserved byte's pair. -/
def EscapedBytes (b : List Byte) : Prop :=
  0x7E#8 ∉ b ∧ 0x11#8 ∉ b ∧ 0x13#8 ∉ b
    ∧ ∀ i : Nat, b[i]? = some 0x7D#8 → ∃ y, b[i + 1]? = some y ∧ (y = 0x5E#8 ∨ y = 0x5D#8 ∨ y = 0x31#8 ∨ y = 0x33#8)

theorem escapedBytes_escape (u : List Byte) : EscapedBytes (escape u) := by
  obtain ⟨-, hidden, -⟩ := escapeIsInvertibleAndHidesReservedBytes
  exact hidden u

theorem EscapedBytes.tail {x : Byte} {b : List Byte} (h : EscapedBytes (x :: b)) : EscapedBytes b := by
  obtain ⟨hdelim, hxon, hxoff, hesc⟩ := h
  exact ⟨List.not_mem_of_not_mem_cons hdelim, List.not_mem_of_not_mem_cons hxon, List.not_mem_of_not_mem_cons hxoff,
    fun i hi => hesc (i + 1) hi⟩

/-- A byte of an escaped sequence other than 0x7D stands for itself. -/
theorem EscapedBytes.head_plain {x : Byte} {b : List Byte} (h : EscapedBytes (x :: b)) (hx : x ≠ 0x7D#8) : isReserved x = false := by
  obtain ⟨hdelim, hxon, hxoff, -⟩ := h
  rw [← Bool.not_eq_true, isReserved_iff]
  rintro (rfl | rfl | rfl | rfl)
  · exact hdelim List.mem_cons_self
  · exact hx rfl
  · exact hxon List.mem_cons_self
  · exact hxoff List.mem_cons_self

theorem isReserved_unmasked (y : Byte) (h : y = 0x5E#8 ∨ y = 0x5D#8 ∨ y = 0x31#8 ∨ y = 0x33#8) : isReserved (y ^^^ 0x20#8) = true := by
  rcases h with rfl | rfl | rfl | rfl <;> decide

/-- A 0x7D of an escaped sequence and the byte after it stand for a reserved byte. -/
theorem EscapedBytes.head_pair {b : List Byte} (h : EscapedBytes (0x7D#8 :: b)) :
    ∃ y rest, b = y :: rest ∧ isReserved (y ^^^ 0x20#8) = true := by
  obtain ⟨-, -, -, hesc⟩ := h
  obtain ⟨y, hy, hpair⟩ := hesc 0 rfl
  match b, hy with
  | y :: rest, rfl => exact ⟨y, rest, rfl, isReserved_unmasked y hpair⟩

/-- Such bytes are an escaped sequence, unit by unit. -/
theorem exists_escape_of_escapedBytes : ∀ b : List Byte, EscapedBytes b → ∃ u, b = escape u
  | [], _ => ⟨[], rfl⟩
  | x :: rest, h => by
    by_cases hx : x = 0x7D#8
    · subst hx
      obtain ⟨y, rest', rfl, hy⟩ := h.head_pair
      obtain ⟨u, rfl⟩ := exists_escape_of_escapedBytes rest' h.tail.tail
      refine ⟨(y ^^^ 0x20#8) :: u, ?_⟩
      rw [escape_cons_reserved _ u hy, BitVec.xor_assoc, BitVec.xor_self, BitVec.xor_zero]
    · obtain ⟨u, rfl⟩ := exists_escape_of_escapedBytes rest h.tail
      exact ⟨x :: u, (escape_cons_plain x u (h.head_plain hx)).symm⟩
termination_by b => b.length

/-- The same bytes after a first byte, by their index in the whole sequence. -/
theorem escapedBytes_iff_getElem? (x : Byte) (b : List Byte) :
    EscapedBytes b ↔
      (∀ i : Nat, 1 ≤ i → (x :: b)[i]? ≠ some 0x7E#8 ∧ (x :: b)[i]? ≠ some 0x11#8 ∧ (x :: b)[i]? ≠ some 0x13#8)
      ∧ ∀ i : Nat, 1 ≤ i → (x :: b)[i]? = some 0x7D#8 →
          ∃ y, (x :: b)[i + 1]? = some y ∧ (y = 0x5E#8 ∨ y = 0x5D#8 ∨ y = 0x31#8 ∨ y = 0x33#8) := by
  have absent (z : Byte) : z ∉ b ↔ ∀ i : Nat, b[i]? ≠ some z := by rw [List.mem_iff_getElem?, not_exists]
  have shift (P : Nat → Prop) : (∀ i, 1 ≤ i → P i) ↔ ∀ i, P (i + 1) :=
    ⟨fun h i => h (i + 1) (Nat.le_add_left 1 i), fun h i hi => Nat.sub_add_cancel hi ▸ h (i - 1)⟩
  rw [EscapedBytes, absent, absent, absent, shift, shift]
  simp only [List.getElem?_cons_succ, forall_and, and_assoc]

/-- Settles O50: an escaped sequence has the bytes of `EscapedBytes`, and every sequence of such bytes is escaped. -/
theorem canonicalFramesByTheirBytes : Obligations.CanonicalFramesByTheirBytes := by
  intro f
  refine ⟨⟨fun h => h rfl, fun h _ => h⟩, ⟨?bytes, ?escaped⟩, nofun⟩
  case bytes =>
    rintro ⟨u, rfl⟩
    exact ⟨rfl, (escapedBytes_iff_getElem? _ _).1 (escapedBytes_escape u)⟩
  case escaped =>
    rintro ⟨h0, hrest⟩
    match f, h0 with
    | _ :: xs, rfl =>
      obtain ⟨u, rfl⟩ := exists_escape_of_escapedBytes xs ((escapedBytes_iff_getElem? _ xs).2 hrest)
      exact ⟨u, rfl⟩

end Sys2Proof.Machine
end

section
/-! PROOF. The round trips through the wire (R161): a constructed record through ENCODE and BUILD, and a canonical frame through BUILD and
ENCODE. -/

namespace Sys2Proof.Machine

theorem wireFrame_length_le (fd : List Byte) (m : Mode) (h : fd.length ≤ 65535) : (wireFrame fd m).length ≤ 131077 := by
  rw [← wrapFrame_eq_wireFrame fd m h]
  exact wrapFrame_length_le fd m h

/-- Settles O51: the frame data that CONSTRUCT checked is the wire's, BUILD finds it (O33), and its decode is the record (O43). -/
theorem recordRoundTripThroughTheWire : Obligations.RecordRoundTripThroughTheWire := by
  intro s t m r hcfg hm hr h herr
  obtain ⟨L, fd, hL, hc, he, hl, hconfig, hrecord, hvalid⟩ := exec_construct_accepted s t r hr h herr
  obtain ⟨hLt, hLwf⟩ := registered_wf s.config r.type L hcfg hL
  rw [← hconfig] at hcfg hL
  obtain ⟨hcap, -⟩ := config_capacities t.config hcfg
  obtain ⟨b, hb, rfl⟩ := encodeLayout_some L r fd he
  refine ⟨_, _, _, exec_encode_wireFrame t m r L _ hm hvalid hrecord hL he hl,
    hostLoad_idle _ _ rfl ((wireFrame_length_le _ m hl).trans hcap),
    buildDecodesTheWireFrame _ m (r.type :: b) L r _ hm hl rfl hL (decodeLayout_encodeFields t.config L r b hLwf hLt.symm hc hb),
    rfl, rfl, rfl⟩

/-- What a BUILD without error says of IBUF and leaves (R114, R117, R124). -/
theorem exec_build_accepted (s t : State) (m : Mode) (h : exec (.build m) s = .next t) (herr : t.status.err = false) :
    ∃ fd L r tags, inboundFrameData m s.ibuf = .ok fd ∧ registered s.config (fd.headD 0#8) = some L
      ∧ decodeLayout s.config L fd = .ok (r, tags) ∧ t.config = s.config ∧ t.prec.record = some r ∧ t.prec.valid = true := by
  cases hin : inboundFrameData m s.ibuf with
  | error e =>
    rw [exec_build_error s m e hin] at h
    cases h
    cases herr
  | ok fd =>
    rw [exec_build_ok s m fd hin] at h
    cases h
    rcases dispatch_cases s (fd.headD 0#8) fd with ⟨L, r, tags, hL, hd, ht⟩ | ⟨e, ht⟩ <;> rw [ht] at herr ⊢
    · exact ⟨fd, L, r, tags, rfl, hL, hd, rfl, rfl, rfl⟩
    · cases herr

theorem modeAccepted_of_inboundFrameData (m : Mode) (b fd : List Byte) (h : inboundFrameData m b = .ok fd) : modeAccepted m = true := by
  unfold inboundFrameData at h
  split at h
  case isTrue hm => exact hm
  case isFalse => cases h

/-- The envelope accepts plain frames only (R58, R89). -/
theorem eq_plainFrame_of_envelope (raw fd : List Byte) (n : Nat) (h : envelope raw n = .ok fd) :
    raw = plainFrame fd ∧ fd.length ≤ 65535 := by
  obtain ⟨hi, lo, c, rfl, -, hl, hc⟩ := envelope_ok raw fd n h
  have := hi.isLt
  have := lo.isLt
  exact ⟨eq_plainFrame hi lo c fd hl hc, by omega⟩

theorem wireFrame_esc (fd u : List Byte) (h : plainFrame fd = 0x7E#8 :: u) : wireFrame fd .API_ESC = 0x7E#8 :: escape u := by
  obtain ⟨-, rfl⟩ := List.cons.inj h
  exact congrArg (0x7E#8 :: ·) (escape_eq_flatMap _).symm

/-- A canonical frame is the wire frame of the frame data that BUILD finds in it (R156). -/
theorem eq_wireFrame_of_canonical (m : Mode) (b fd : List Byte) (hcan : Canonical m b) (h : inboundFrameData m b = .ok fd) :
    b = wireFrame fd m ∧ fd.length ≤ 65535 := by
  have hmode := modeAccepted_of_inboundFrameData m b fd h
  rcases (modeAccepted_iff m).1 hmode with rfl | rfl
  case inl =>
    rw [inboundFrameData_api] at h
    exact eq_plainFrame_of_envelope b fd 5 h
  case inr =>
    obtain ⟨u, rfl⟩ := hcan rfl
    rw [inboundFrameData_unescaped _ _ _ hmode (inboundUnescape_esc_ok _ _ u (unescape_escape u))] at h
    obtain ⟨hu, hl⟩ := eq_plainFrame_of_envelope _ fd 5 h
    exact ⟨(wireFrame_esc fd u hu.symm).symm, hl⟩

/-- Settles O52: the decoded frame data is its record's encoding (O43), and the frame is its wire frame (`eq_wireFrame_of_canonical`). -/
theorem frameRoundTripThroughTheRecord : Obligations.FrameRoundTripThroughTheRecord := by
  intro s t m hcfg hcan h herr
  obtain ⟨fd, L, r, tags, hin, hL, hd, hconfig, hrecord, hvalid⟩ := exec_build_accepted s t m h herr
  obtain ⟨hLt, hLwf⟩ := registered_wf s.config _ L hcfg hL
  obtain ⟨-, hencode⟩ := frameDataRoundTrip s.config L hLwf
  obtain ⟨-, hrt, -⟩ := decodeLayout_ok s.config L fd r tags hd
  obtain ⟨hframe, hl⟩ := eq_wireFrame_of_canonical m s.ibuf fd hcan hin
  have hm := (modeAccepted_iff m).1 (modeAccepted_of_inboundFrameData m s.ibuf fd hin)
  have hreg : registered t.config r.type = some L := by rw [hconfig, hrt, hLt, hL]
  exact ⟨_, exec_encode_wireFrame t m r L fd hm hvalid hrecord hreg (hencode fd r tags hd) hl, hframe.symm, rfl⟩

end Sys2Proof.Machine
end

section
/-! PROOF. Code tables (R172 to R178): what LOOKUP reports of every table id and code, and that CODETAB never decides a decode. -/

namespace Sys2Proof.Machine

/-! ### LOOKUP -/

theorem lookupResult_eq (tag : Tag) (table code : Byte) :
    lookupResult tag table code = BitVec.ofNat 32 (tag.bits.toNat + 256 * table.toNat + 65536 * code.toNat) := by
  apply BitVec.eq_of_toNat_eq
  have := tag.bits.isLt
  have := table.isLt
  have := code.isLt
  simp only [lookupResult, toNat_append_digits, BitVec.toNat_ofNat]
  omega

/-- The tag of a code of a defined table as RESULT numbers it (R174, R175). -/
theorem lookupTag_bits (cfg : Config) (t n : Byte) (h : t.toNat ≤ 5 ∨ (8 ≤ t.toNat ∧ t.toNat ≤ 12)) :
    (lookupTag cfg t n).bits.toNat = if (t, n) ∈ cfg.codetab then 0 else if t.toNat ≤ 5 then 1 else 2 := by
  rcases h with hd | ha
  case inl =>
    rw [lookupTag_degrade cfg t n (by rw [policy, if_pos hd]), if_pos hd]
    split <;> rfl
  case inr =>
    have hd : ¬ t.toNat ≤ 5 := by omega
    rw [lookupTag_absent cfg t n (by rw [policy, if_neg hd, if_pos ha]), if_neg hd]
    split <;> rfl

theorem exec_lookup_defined (s : State) (table code : Byte) (h : tableDefined table = true) :
    exec (.lookup table code) s = .next (afterOk s (lookupResult (lookupTag s.config table code) table code)) :=
  if_pos h

theorem exec_lookup_reserved (s : State) (table code : Byte) (h : ¬ tableDefined table = true) :
    exec (.lookup table code) s = .next (afterError s 5#4 0x04#8 table) :=
  if_neg h

/-- Settles O53: the id's range decides between the tag of R175 (`lookupTag_bits`) and BAD_TABLE. -/
theorem lookupReportsTheTag : Obligations.LookupReportsTheTag := by
  intro s table code
  refine ⟨fun hdefined => ?_, fun hreserved => ?_⟩
  · rw [exec_lookup_defined s table code ((tableDefined_iff table).2 hdefined), lookupResult_eq,
      lookupTag_bits s.config table code hdefined]
  · refine exec_lookup_reserved s table code fun h => ?_
    have := (tableDefined_iff table).1 h
    omega

/-! ### Decoding under two configurations -/

section
variable (cfg cfg' : Config) (i : Nat)

/-- Only a code field looks at the configuration (R124). -/
theorem decodeField_config_irrelevant (f : FieldSpec) (b : List Byte) (hf : ∀ t, f ≠ .CODE t) :
    decodeField cfg i f b = decodeField cfg' i f b := by
  cases f with
  | CODE t => exact absurd rfl (hf t)
  | CID | INT w | BYTES w | TEXT c q | VAR | PAYLOAD => rfl

/-- A field fails alike under any two configurations, or reads the same value and bytes and is tagged under both or neither: a code field
never fails (R126). -/
theorem decodeField_configs (f : FieldSpec) (b : List Byte) :
    (∃ e, decodeField cfg i f b = .error e ∧ decodeField cfg' i f b = .error e)
    ∨ (∃ v t t' rest, decodeField cfg i f b = .ok (v, t, rest) ∧ decodeField cfg' i f b = .ok (v, t', rest) ∧ t.isSome = t'.isSome) := by
  by_cases hf : ∃ t, f = .CODE t
  case pos =>
    obtain ⟨t, rfl⟩ := hf
    exact .inr ⟨_, _, _, _, rfl, rfl, rfl⟩
  case neg =>
    rw [← decodeField_config_irrelevant cfg cfg' i f b (not_exists.1 hf)]
    cases decodeField cfg i f b with
    | error e => exact .inl ⟨e, rfl, rfl⟩
    | ok read => exact .inr ⟨_, _, _, _, rfl, rfl, rfl⟩

theorem decodeFields_cons_of_ok {f : FieldSpec} {fs : List FieldSpec} {b rest left : List Byte} {v : FieldVal} {vs : List FieldVal}
    {t : Option Tag} {ts : List (Option Tag)} (h : decodeField cfg i f b = .ok (v, t, rest))
    (hs : decodeFields cfg (i + 1) fs rest = .ok (vs, ts, left)) : decodeFields cfg i (f :: fs) b = .ok (v :: vs, t :: ts, left) := by
  rw [decodeFields, h]
  simp only [hs]

theorem decodeFields_configs (fs : List FieldSpec) (b : List Byte) :
    (∃ e, decodeFields cfg i fs b = .error e ∧ decodeFields cfg' i fs b = .error e)
    ∨ (∃ vs ts ts' left, decodeFields cfg i fs b = .ok (vs, ts, left) ∧ decodeFields cfg' i fs b = .ok (vs, ts', left)
        ∧ ts.map Option.isSome = ts'.map Option.isSome) := by
  induction fs generalizing i b with
  | nil => exact .inr ⟨_, _, _, _, rfl, rfl, rfl⟩
  | cons f fs ih =>
    rcases decodeField_configs cfg cfg' i f b with ⟨e, h, h'⟩ | ⟨v, t, t', rest, h, h', ht⟩
    case inl => exact .inl ⟨e, decodeFields_error_here h, decodeFields_error_here h'⟩
    case inr =>
      rcases ih (i + 1) rest with ⟨e, hs, hs'⟩ | ⟨vs, ts, ts', left, hs, hs', hts⟩
      case inl => exact .inl ⟨e, decodeFields_error_later h hs, decodeFields_error_later h' hs'⟩
      case inr =>
        exact .inr ⟨_, _, _, left, decodeFields_cons_of_ok cfg i h hs, decodeFields_cons_of_ok cfg' i h' hs',
          by rw [List.map_cons, List.map_cons, ht, hts]⟩

/-- The checks around the fields (R125) do not look at the configuration either. -/
theorem decodeLayout_configs (L : Layout) (fd : List Byte) :
    (∃ e, decodeLayout cfg L fd = .error e ∧ decodeLayout cfg' L fd = .error e)
    ∨ (∃ r tags tags', decodeLayout cfg L fd = .ok (r, tags) ∧ decodeLayout cfg' L fd = .ok (r, tags')
        ∧ tags.map Option.isSome = tags'.map Option.isSome) := by
  unfold decodeLayout
  by_cases hlen : fd.length + 4 < minlen L
  · simp only [if_pos hlen]
    exact .inl ⟨_, rfl, rfl⟩
  by_cases htype : fd.headD 0#8 ≠ L.type
  · simp only [if_neg hlen, if_pos htype]
    exact .inl ⟨_, rfl, rfl⟩
  simp only [if_neg hlen, if_neg htype]
  rcases decodeFields_configs cfg cfg' 0 L.fields (fd.drop 1) with ⟨e, h, h'⟩ | ⟨vs, ts, ts', left, h, h', hts⟩ <;> simp only [h, h']
  case inl => exact .inl ⟨e, rfl, rfl⟩
  case inr =>
    cases left with
    | nil => exact .inr ⟨_, ts, ts', rfl, rfl, hts⟩
    | cons x left => exact .inl ⟨_, rfl, rfl⟩

end

/-- Settles O44: no two configurations decode differently but in their tags (`decodeLayout_configs`). -/
theorem unknownCodesNeverFailADecode : Obligations.UnknownCodesNeverFailADecode :=
  fun cfg codetab L fd => decodeLayout_configs cfg { cfg with codetab := codetab } L fd

end Sys2Proof.Machine
end

section
/-! PROOF. The control commands (R186, R187), and that nothing hangs (R187, R188, R190): no step faults under the invariant, and every
instruction completes. -/

namespace Sys2Proof.Machine

/-! ### CLEAR and the reserved opcodes -/

/-- Every reserved opcode completes alike, its opcode in EARG (R187, R67). -/
theorem next_illegal_eq_afterError (s : State) (op : BitVec 4) :
    (.next (s.illegal op) : Result) = .next (afterError s 5#4 0x01#8 (op.setWidth 8)) := rfl

/-- CLEAR completes as a success from the state whose OVR it has cleared (R186). -/
theorem clearOvr_succeed_eq (s : State) (r : Word) :
    { s with status := s.status.clearOvr }.succeed r = { afterOk s r with status := { okStatus s with ovr := false } } := rfl

/-- Settles O54: CLEAR's completion is `clearOvr_succeed_eq`, each reserved opcode's is `next_illegal_eq_afterError` at that opcode. -/
theorem controlCommandsComplete : Obligations.ControlCommandsComplete := by
  intro s
  have reserved := next_illegal_eq_afterError s
  exact ⟨congrArg Host.Outcome.next (clearOvr_succeed_eq s 0#32),
    reserved 0x0#4, reserved 0xC#4, reserved 0xD#4, reserved 0xE#4, reserved 0xF#4⟩

/-! ### Nothing hangs -/

/-- The host's step is its next action, or nothing where it has none left. -/
theorem hostStep_no_fault (s : State) (f : Fault) : hostStep s ≠ .fault f := by
  unfold hostStep
  split
  · exact nofun
  · exact hostAct_no_fault _ _ f

/-- On the engine's turn the latched command completes; every other step is the host's. -/
theorem step_no_fault (s : State) (f : Fault) (hi : Inv s) : step s ≠ .fault f := by
  have ⟨hc, _, _, _⟩ := hi
  by_cases hturn : s.status.busy = true ∧ engineTurn s = true
  · obtain ⟨hb, ht⟩ := hturn
    obtain ⟨t, h, -⟩ := step_engine_completes s hi hb ht
    rw [h]
    exact nofun
  · rw [step_host s hc (by simpa [Decidable.imp_iff_not_or] using hturn)]
    exact hostStep_no_fault s f

/-- Every completion leaves the block idle and done, with no command latched (R28, R196). -/
theorem exec_idle (i : Instr) (s t : State) (h : exec i s = .next t) :
    t.status.busy = false ∧ t.status.done = true ∧ t.latched = none := by
  cases exec_completion i s t h <;> exact ⟨rfl, rfl, rfl⟩

/-- Settles O57: no step faults (`step_no_fault`), and every instruction answers (`exec_next_of_inv`) a completion (`exec_idle`). -/
theorem nothingHangsUnderTheInvariant : Obligations.NothingHangsUnderTheInvariant := by
  refine ⟨step_no_fault, fun s i hi => ?_⟩
  obtain ⟨t, h⟩ := exec_next_of_inv i s hi
  exact ⟨t, h, exec_idle i s t h⟩

end Sys2Proof.Machine
end

section
/-! PROOF. The frame of every instruction (R27, R28, R195), what a failing one leaves (R20, R196), and the block between commands (R77, R78,
R205). -/

namespace Sys2Proof.Machine

/-! ### The frame of an instruction -/

/-- No instruction writes both OBUF and PREC (R23, R46). -/
theorem writesObuf_of_writesPrec (i : Instr) (h : writesPrec i = true) : writesObuf i = false := by
  cases i with
  | escape | unescape | validate _ | wrap _ | encode _ => cases h
  | _ => rfl

/-- No completion writes IBUF, ILEN or what the model holds of the host. -/
theorem exec_host_eq (i : Instr) (s t : State) (h : exec i s = .next t) :
    t.ibuf = s.ibuf ∧ t.ilen = s.ilen ∧ t.pending = s.pending ∧ t.received = s.received ∧ t.draws = s.draws := by
  cases exec_completion i s t h <;> exact ⟨rfl, rfl, rfl, rfl, rfl⟩

/-- CLEAR alone writes OVR (R186). -/
theorem exec_ovr_eq (i : Instr) (s t : State) (h : exec i s = .next t) (hi : i ≠ .clear) : t.status.ovr = s.status.ovr := by
  cases exec_completion i s t h with
  | clear hc => exact absurd hc hi
  | plain | plainError | bytes | bytesError | record | recordError | constructError => rfl

/-- Only the completions of a command that writes OBUF touch OBUF and OLEN (R46). -/
theorem exec_obuf_eq (i : Instr) (s t : State) (h : exec i s = .next t) (hw : writesObuf i = false) :
    t.obuf = s.obuf ∧ t.olen = s.olen := by
  cases exec_completion i s t h with
  | bytes _ _ ho | bytesError _ ho => rw [hw] at ho; cases ho
  | plain | plainError | clear | record | recordError | constructError => exact ⟨rfl, rfl⟩

/-- Settles O58: each piece of the state is framed by its own lemma over the completions. -/
theorem instructionsChangeOnlyTheirOutputs : Obligations.InstructionsChangeOnlyTheirOutputs := by
  intro s t i h
  obtain ⟨hibuf, hilen, hpending, hreceived, hdraws⟩ := exec_host_eq i s t h
  exact ⟨hibuf, hilen, exec_config i s t h, hpending, hreceived, hdraws, exec_ovr_eq i s t h, exec_obuf_eq i s t h, exec_prec_eq i s t h⟩

/-! ### What a failing instruction leaves -/

/-- The failing completions (R196): each is an error's, from the state whose output the command has cleared. -/
theorem exec_error_cases (i : Instr) (s t : State) (h : exec i s = .next t) (herr : t.status.err = true) :
    ∃ e, (writesObuf i = false ∧ writesPrec i = false ∧ t = s.fail e)
      ∨ (writesObuf i = true ∧ t = (s.setObuf []).fail e)
      ∨ (writesPrec i = true ∧ i ≠ .construct ∧ t = s.failRecord e)
      ∨ (i = .construct ∧ ∃ vals, t = s.failConstruct vals e) := by
  cases exec_completion i s t h with
  | plain | clear | bytes | record => cases herr
  | plainError e ho hp => exact ⟨e, .inl ⟨ho, hp, rfl⟩⟩
  | bytesError e ho => exact ⟨e, .inr (.inl ⟨ho, rfl⟩)⟩
  | recordError e hp hi => exact ⟨e, .inr (.inr (.inl ⟨hp, hi, rfl⟩))⟩
  | constructError vals e hi => exact ⟨e, .inr (.inr (.inr ⟨hi, vals, rfl⟩))⟩

/-- A failing instruction leaves RESULT 0 (R20, R196). -/
theorem exec_error_result (i : Instr) (s t : State) (h : exec i s = .next t) (herr : t.status.err = true) : t.result = 0#32 := by
  obtain ⟨e, ⟨-, -, rfl⟩ | ⟨-, rfl⟩ | ⟨-, -, rfl⟩ | ⟨-, vals, rfl⟩⟩ := exec_error_cases i s t h herr <;> rfl

/-- A failing command that writes OBUF leaves it empty (R196). -/
theorem exec_error_obuf (i : Instr) (s t : State) (h : exec i s = .next t) (herr : t.status.err = true) (hw : writesObuf i = true) :
    t.obuf = [] ∧ t.olen = 0#32 := by
  obtain ⟨e, ⟨ho, -, -⟩ | ⟨-, rfl⟩ | ⟨hp, -, -⟩ | ⟨rfl, -⟩⟩ := exec_error_cases i s t h herr
  · rw [hw] at ho; cases ho
  · exact ⟨rfl, rfl⟩
  · rw [writesObuf_of_writesPrec i hp] at hw; cases hw
  · cases hw

/-- A failing BUILD, DECODEV or frame decoder leaves PREC empty (R114, R120, R196). -/
theorem exec_error_prec (i : Instr) (s t : State) (h : exec i s = .next t) (herr : t.status.err = true) (hw : writesPrec i = true)
    (hi : i ≠ .construct) : t.prec = Prec.empty := by
  obtain ⟨e, ⟨-, hp, -⟩ | ⟨ho, -⟩ | ⟨-, -, rfl⟩ | ⟨hc, -⟩⟩ := exec_error_cases i s t h herr
  · rw [hw] at hp; cases hp
  · rw [writesObuf_of_writesPrec i hw] at ho; cases ho
  · rfl
  · exact absurd hc hi

/-- A failing CONSTRUCT keeps the record, not valid, with no tag (R151, R196). -/
theorem exec_construct_error_prec (s t : State) (h : exec .construct s = .next t) (herr : t.status.err = true) :
    t.prec.record = s.prec.record ∧ t.prec.valid = false ∧ ∀ x ∈ t.prec.tags, x = none := by
  obtain ⟨e, ⟨-, hp, -⟩ | ⟨ho, -⟩ | ⟨-, hi, -⟩ | ⟨-, vals, rfl⟩⟩ := exec_error_cases .construct s t h herr
  · cases hp
  · cases ho
  · exact absurd rfl hi
  · exact ⟨rfl, rfl, fun x hx => List.eq_of_mem_replicate hx⟩

/-- Settles O59: the unchanged pieces are the frame's, the cleared ones those of the failing completions (`exec_error_cases`). -/
theorem failingInstructionsLeaveNoPartialOutput : Obligations.FailingInstructionsLeaveNoPartialOutput := by
  intro s t i h herr
  refine ⟨exec_error_result i s t h herr, exec_obuf_eq i s t h, exec_error_obuf i s t h herr, exec_prec_eq i s t h,
    exec_error_prec i s t h herr, ?construct⟩
  case construct =>
    rintro rfl
    exact exec_construct_error_prec s t h herr

/-! ### The block between commands -/

/-- Settles O14: a step with no command to complete is the host's, whose WAIT and condition write nothing of the block. -/
theorem idleBlockKeepsItsState : Obligations.IdleBlockKeepsItsState := by
  intro s hc
  refine ⟨fun hb hp => ?noAction, fun rest hb hp => ?wait, fun n rest h hp => ?condition⟩
  case noAction => rw [step_host s hc (.inl hb), hostStep, hp]
  case wait => rw [step_idle s _ rest hc hp hb, hostAct]
  case condition =>
    rw [step_hostAct s _ rest hc hp (by simp) h, hostAct]
    cases herr : s.status.err <;> rfl

end Sys2Proof.Machine
end

section
/-! PROOF. Reset (R206, R207): it abandons the command in flight, and neither the step it takes the place of nor a second reset shows after
it. -/

namespace Sys2Proof.Machine

/-- Reset loads the frozen configuration and keeps the model's host side (log entry 16), and no other piece of the state has a part in it. -/
theorem resetBlock_eq_of_kept_eq (s t : State) (hconfig : t.config = s.config) (hdraws : t.draws = s.draws)
    (hpending : t.pending = s.pending) (hreceived : t.received = s.received) : t.resetBlock = s.resetBlock := by
  rw [State.resetBlock, State.resetBlock, hconfig, hdraws, hpending, hreceived]

/-- A reset input that comes before the drawn latency has passed resets the block, whatever command is in flight (R206). -/
theorem step_resetInput (s : State) (rest : List HostAction) (hc : s.config.wf = true) (hp : s.pending = .resetInput :: rest)
    (h : s.status.busy = false ∨ 0 < s.latencyLeft) :
    step s = .next { State.resetWith s.config with draws := s.draws, pending := rest, received := s.received } := by
  rw [step_hostAct s .resetInput rest hc hp nofun h, hostAct, State.resetBlock]

/-- A reset after an instruction's completion gives the same block as one in its place (R207). -/
theorem exec_resetBlock (s t : State) (i : Instr) (h : exec i s = .next t) : t.resetBlock = s.resetBlock := by
  obtain ⟨-, -, hpending, hreceived, hdraws⟩ := exec_host_eq i s t h
  exact resetBlock_eq_of_kept_eq s t (exec_config i s t h) hdraws hpending hreceived

/-- A second reset finds what it keeps as the first one left it (R207). -/
theorem resetBlock_resetBlock (s : State) : s.resetBlock.resetBlock = s.resetBlock :=
  resetBlock_eq_of_kept_eq s s.resetBlock rfl rfl rfl rfl

/-- Settles O18: the reset input's step is `step_resetInput`; that reset hides the step before it and itself is `resetBlock_eq_of_kept_eq`
at an instruction's frame (`exec_resetBlock`) and at reset's own (`resetBlock_resetBlock`). -/
theorem resetAbandonsTheCommandAndIsIdempotent : Obligations.ResetAbandonsTheCommandAndIsIdempotent :=
  ⟨step_resetInput, exec_resetBlock, resetBlock_resetBlock⟩

end Sys2Proof.Machine
end
